-- ==== Sys2Proof/Word.lean ====
section
/-! DEFINITION. The value types of the block (R7, R8): bytes, 32-bit header words, pixels and cache slot numbers. -/

namespace Sys2Proof

/-- `u8` of R7. -/
abbrev Byte := BitVec 8

/-- `u32` of R7. -/
abbrev U32 := BitVec 32

/-- A pixel cache index, 0..63 (R34). -/
abbrev Slot := Fin 64

/-- A pixel of four `u8` channels with value semantics; two pixels are equal exactly when all four channels are (R8). -/
structure Pixel where
  r : Byte
  g : Byte
  b : Byte
  a : Byte
  deriving DecidableEq, Repr

/-- {0,0,0,0}: what a slot that was never written holds (R34, R110). -/
def Pixel.zero : Pixel := ⟨0, 0, 0, 0⟩

/-- {0,0,0,255}: the previous pixel at the start of every run and at reset (R27, R261). -/
def Pixel.start : Pixel := ⟨0, 0, 0, 255⟩

end Sys2Proof
end

