-- ==== Sys2Proof/Config.lean ====
section
/-! DEFINITION. The implementation parameters of R5: the fixed ones as constants, the open ones as a record that State
carries and no step writes. -/

namespace Sys2Proof

/-- The parameter `MAGIC`: the four bytes the stream begins with (R5, R98). -/
structure Magic where
  m0 : Byte
  m1 : Byte
  m2 : Byte
  m3 : Byte
  deriving DecidableEq, Repr

/-- `MAGIC[0..3]` in stream order (R90). -/
def Magic.bytes (m : Magic) : List Byte := [m.m0, m.m1, m.m2, m.m3]

/-- The default of R5, `71 6F 69 66`.  PRESUMED: the spec marks it as general knowledge (D4, K1).  Unsafe for a statement
that needs this value; a statement about every state holds for every `MAGIC`.  Log 1. -/
def Magic.default : Magic := ⟨0x71, 0x6F, 0x69, 0x66⟩

/-- The open parameters of R5 that are fixed before the first command (R263). -/
structure Config where
  magic : Magic
  /-- `CURSOR_BITS` of a finite build, or `none` for the unbounded cursors of R5 (D15).  Log 2. -/
  cursorBits : Option Nat
  deriving DecidableEq, Repr

/-- The default build: the default magic and unbounded cursors.  DESIGN CHOICE, logs 1 and 2. -/
def Config.default : Config := ⟨Magic.default, none⟩

/-- `RUN_CAP` of R5. -/
def runCap : Nat := 62

/-- `HEADER_BYTES` of R5. -/
def headerBytes : Nat := 14

/-- `END_MARKER` of R5. -/
def endMarker : List Byte := [0, 0, 0, 0, 0, 0, 0, 1]

end Sys2Proof
end

