-- ==== Sys2Proof/Syntax.lean ====
section
/-! DEFINITION. The op-codes of the stream, one constructor per row of spec/opcode_table.json, with the operands of the
assembler syntax R81. -/

namespace Sys2Proof

/-- The six op-codes of R70. -/
inductive Instr where
  /-- `INDEX i`: the cache slot to take the pixel from (R72). -/
  | index (i : Nat)
  /-- `DIFF dr, dg, db`: the three deltas with the bias of 2 already taken off (R73). -/
  | diff (dr dg db : Int)
  /-- `LUMA dg, dr_dg, db_dg`: the green delta, and the red and blue deltas relative to it (R74). -/
  | luma (dg drDg dbDg : Int)
  /-- `RUN n`: the run LENGTH, which is the encoded field plus one (R75, R81). -/
  | run (n : Nat)
  /-- `RGB r, g, b` (R76). -/
  | rgb (r g b : Byte)
  /-- `RGBA r, g, b, a` (R77). -/
  | rgba (r g b a : Byte)
  deriving DecidableEq, Repr

end Sys2Proof
end

