-- ==== Sys2Proof/WellFormed.lean ====
section
/-! DEFINITION. Which op-code terms the encoding can express: the operand ranges of R81 and R83. -/

namespace Sys2Proof

/-- `lo ≤ x ≤ hi` on integers (R7). -/
abbrev inRange (lo x hi : Int) : Prop := lo ≤ x ∧ x ≤ hi

/-- The operand ranges of R81: INDEX 0..63; DIFF each -2..1; LUMA dg -32..31 and the others -8..7; RUN 1..62. -/
abbrev WellFormed : Instr → Prop
  | .index i => i < 64
  | .diff dr dg db => inRange (-2) dr 1 ∧ inRange (-2) dg 1 ∧ inRange (-2) db 1
  | .luma dg drDg dbDg => inRange (-32) dg 31 ∧ inRange (-8) drDg 7 ∧ inRange (-8) dbDg 7
  | .run n => 1 ≤ n ∧ n ≤ 62
  | .rgb _ _ _ => True
  | .rgba _ _ _ _ => True

/-- The same check as a Bool, for running. -/
def wellFormed : Instr → Bool
  | .index i => decide (WellFormed (.index i))
  | .diff dr dg db => decide (WellFormed (.diff dr dg db))
  | .luma dg drDg dbDg => decide (WellFormed (.luma dg drDg dbDg))
  | .run n => decide (WellFormed (.run n))
  | .rgb _ _ _ => true
  | .rgba _ _ _ _ => true

end Sys2Proof
end

