-- ==== Sys2Proof/Decode.lean ====
section
/-! DEFINITION. The op-code encoding of 30_encoding.md: bit fields (R6), tag (R71), length (R79), the decoder, total on any
bytes and rejecting by name, and after it the encoder. -/

namespace Sys2Proof

/-- `v[hi:lo]`: the unsigned field of a byte, both bits included (R6). -/
def bits (v : Byte) (hi lo : Nat) : Nat := (v.extractLsb hi lo).toNat

/-- Which op-code a first byte selects. -/
inductive Tag where
  | index | diff | luma | run | rgb | rgba
  deriving DecidableEq, Repr

/-- Tag decode, in the priority order of R71. -/
def tagOf (b0 : Byte) : Tag :=
  if b0 = 0xFE then .rgb
  else if b0 = 0xFF then .rgba
  else if bits b0 7 6 = 0b00 then .index
  else if bits b0 7 6 = 0b01 then .diff
  else if bits b0 7 6 = 0b10 then .luma
  else .run

/-- The whole length of an op-code, from its first byte alone (R79). -/
def opLength (b0 : Byte) : Nat :=
  if bits b0 7 6 = 0b10 then 2
  else if b0 = 0xFE then 4
  else if b0 = 0xFF then 5
  else 1

/-- A biased field: an unsigned field minus a constant, never sign-extended (R83). -/
def biased (field bias : Nat) : Int := (field : Int) - (bias : Int)

/-- Why bytes are no op-code.  No first byte is illegal (R78), so only missing bytes are refused. -/
inductive DecodeReject where
  /-- No byte at all. -/
  | noBytes
  /-- The first byte selects this op-code and later bytes of it are missing. -/
  | truncated (t : Tag)
  deriving DecidableEq, Repr

/-- `INDEX` from its byte (R72). -/
def decodeIndex (b0 : Byte) : Instr := .index (bits b0 5 0)

/-- `DIFF` from its byte (R73; the positions are D5, log 10). -/
def decodeDiff (b0 : Byte) : Instr := .diff (biased (bits b0 5 4) 2) (biased (bits b0 3 2) 2) (biased (bits b0 1 0) 2)

/-- `LUMA` from its two bytes (R74). -/
def decodeLuma (b0 b1 : Byte) : Instr := .luma (biased (bits b0 5 0) 32) (biased (bits b1 7 4) 8) (biased (bits b1 3 0) 8)

/-- `RUN` from its byte: the length is the field plus one (R75). -/
def decodeRun (b0 : Byte) : Instr := .run (bits b0 5 0 + 1)

/-- The op-code at the head of a byte stream, and the bytes after it (R70-R77). -/
def decode : List Byte → Except DecodeReject (Instr × List Byte)
  | [] => .error .noBytes
  | b0 :: rest =>
    match tagOf b0 with
    | .rgb =>
      match rest with
      | r :: g :: b :: rest => .ok (.rgb r g b, rest)
      | _ => .error (.truncated .rgb)
    | .rgba =>
      match rest with
      | r :: g :: b :: a :: rest => .ok (.rgba r g b a, rest)
      | _ => .error (.truncated .rgba)
    | .index => .ok (decodeIndex b0, rest)
    | .diff => .ok (decodeDiff b0, rest)
    | .luma =>
      match rest with
      | b1 :: rest => .ok (decodeLuma b0 b1, rest)
      | _ => .error (.truncated .luma)
    | .run => .ok (decodeRun b0, rest)

/-- An integer as a byte to be placed in an encoding: `wrap8` of it (R7). -/
def toByte (x : Int) : Byte := BitVec.ofInt 8 x

/-- The bytes of an op-code, by the "Assembles to" column of R81. -/
def encode : Instr → List Byte
  | .index i => [BitVec.ofNat 8 i]
  | .diff dr dg db => [0x40 ||| (toByte (dr + 2) <<< 4) ||| (toByte (dg + 2) <<< 2) ||| toByte (db + 2)]
  | .luma dg drDg dbDg => [0x80 ||| toByte (dg + 32), (toByte (drDg + 8) <<< 4) ||| toByte (dbDg + 8)]
  | .run n => [0xC0 ||| toByte ((n : Int) - 1)]
  | .rgb r g b => [0xFE, r, g, b]
  | .rgba r g b a => [0xFF, r, g, b, a]

/-- The length in bytes that the table of R70 gives an op-code. -/
def Instr.length : Instr → Nat
  | .index _ => 1
  | .diff _ _ _ => 1
  | .luma _ _ _ => 2
  | .run _ => 1
  | .rgb _ _ _ => 4
  | .rgba _ _ _ _ => 5

/-- The longest op-code, RGBA, in bytes (R70). -/
def longestOp : Nat := 5

/-- The bytes of a table word: byte `k` is bits `8k+7..8k`, and every bit from `nbits` up is 0. -/
def tableBytes (nbits w : Nat) : List Byte :=
  (List.range longestOp).map fun k => BitVec.ofNat 8 (w % 2 ^ nbits / 2 ^ (8 * k))

/-- The instruction the decoder reads from an op-code table word. -/
def decodeTableWord (nbits w : Nat) : Option Instr :=
  match decode (tableBytes nbits w) with
  | .ok (i, _) => some i
  | .error _ => none

end Sys2Proof
end

