-- ==== Sys2Proof/Machine/State.lean ====
section
/-! DEFINITION. The state of the block as plain data, the ways a step can stop, and the state after reset. -/

namespace Sys2Proof.Machine

/-- `PHASE`, with the eight values of R21. -/
inductive Phase where
  | idle | decHeader | decPixels | encHeader | encPixels | encTail | done | error
  deriving DecidableEq, Repr

/-- The error kinds of R230. -/
inductive ErrorKind where
  | invalidMagic | unexpectedEof | ioFailure | unsupportedChannelCount
  deriving DecidableEq, Repr

/-- The four host arrays of R50. -/
inductive ArrayName where
  | input | pixin | out | sink
  deriving DecidableEq, Repr

/-- What the I/O oracle answers for one access (R5, R233). -/
inductive IoAnswer where
  | ok | fail
  deriving DecidableEq, Repr

/-- The host's commands with their operands (R210, R211, R212). -/
inductive HostCommand where
  | reset
  | startDecode (input : List Byte)
  | startEncode (width height : U32) (channels colorspace : Byte) (pixin : List Byte)
  deriving DecidableEq, Repr

/-- One move of the host: it issues a command, or it waits while the block takes an engine step.  Log 4. -/
inductive HostMove where
  | command (c : HostCommand)
  | wait
  deriving DecidableEq, Repr

/-- One array of R50: its bytes by offset, offsets strictly rising.  An offset that is not listed has no value, and reading
it is a fault, never a byte the model picks.  Log 8. -/
abbrev Memory := List Host.Cell

/-- The state: every register of 10_state.md, the cache, the four arrays, and last the model's own fields (parameters, the
oracle's coming answers, the host's coming moves). -/
structure State where
  /-- `PHASE` (R21). -/
  phase : Phase
  /-- `ERR`; `none` is NONE (R22). -/
  err : Option ErrorKind
  /-- `HDR_WIDTH` (R23). -/
  hdrWidth : U32
  /-- `HDR_HEIGHT` (R24). -/
  hdrHeight : U32
  /-- `HDR_CHANNELS` (R25). -/
  hdrChannels : Byte
  /-- `HDR_COLORSPACE` (R26). -/
  hdrColorspace : Byte
  /-- `PX`, the previous pixel (R27). -/
  px : Pixel
  /-- `RUN`, the run counter (R28). -/
  run : BitVec 6
  /-- `PIX`, the pixel counter (R29). -/
  pix : Nat
  /-- `IP`, the input cursor (R30). -/
  ip : Nat
  /-- `OP`, the output cursor (R31). -/
  op : Nat
  /-- `IN_LEN` (R32). -/
  inLen : Nat
  /-- `CACHE[0..63]` (R34). -/
  cache : Vector Pixel 64
  /-- `IN` (R50). -/
  input : Memory
  /-- `PIXIN` (R50). -/
  pixin : Memory
  /-- `OUT` (R50). -/
  out : Memory
  /-- `SINK` (R50). -/
  sink : Memory
  /-- The open parameters `MAGIC` and `CURSOR_BITS` (R5); no step writes them. -/
  config : Config
  /-- The coming answers of `IO_ORACLE`, one an access, in access order; past the end the answer is ok.  Log 3. -/
  oracle : List IoAnswer
  /-- The host's coming moves; past the end the host only waits.  Log 4. -/
  host : List HostMove
  deriving DecidableEq, Repr

/-- Why the machine stops.  None of these is met in a state that a run from reset reaches (Safety.lean, `Inv`). -/
inductive Fault where
  /-- Raised by `InByte` and `PixIn` when the array lists no byte at the offset.  Safe: the model stops and names no value. -/
  | noByteAt (array : ArrayName) (offset : Nat)
  /-- Raised by `OutWrite` at an offset outside `OUT` (R66 gives it meaning below `NPIX × HDR_CHANNELS` only).  Safe. -/
  | outsideOut (offset : Nat)
  /-- Raised by `PixIn` for a pixel number from `NPIX` up (R65 gives it meaning below `NPIX` only).  Safe. -/
  | outsidePixin (pixel : Nat)
  /-- Raised by `PixIn` when `HDR_CHANNELS` is neither 3 nor 4, for which R65 has no case.  Safe. -/
  | pixelOfBadWidth
  /-- Raised by the fetch if the decoder rejects the op-code it has read whole; R78 says that no encoding is illegal, and
  Laws/Fetch.lean proves that it is never raised.  Safe. -/
  | undecodable (r : DecodeReject)
  deriving DecidableEq, Repr

/-- What the model gives no meaning. -/
inductive Refusal where
  /-- An op-code whose meaning is not written.  Raised by no arm.  Safe. -/
  | notModelled (mnemonic : String)
  /-- `START_ENCODE` whose `PIXIN` has the wrong length (R212: "the model gives it no meaning and takes no step").  Safe.
  Log 7. -/
  | wrongPixinLength
  /-- A step that would take `PIX`, `IP` or `OP` past a finite `CURSOR_BITS` (X13: such a run is refused).  Safe.  Log 2. -/
  | cursorOverflow
  deriving DecidableEq, Repr

/-- The state after reset: every register at the value R210 and R260 give.  The arrays are detached (R210), which the model
writes as empty (log 9); the model's own fields are at their defaults (logs 1-4). -/
def State.reset : State where
  phase := .idle
  err := none
  hdrWidth := 0
  hdrHeight := 0
  hdrChannels := 0
  hdrColorspace := 0
  px := Pixel.start
  run := 0
  pix := 0
  ip := 0
  op := 0
  inLen := 0
  cache := Vector.replicate 64 Pixel.zero
  input := []
  pixin := []
  out := []
  sink := []
  config := Config.default
  oracle := []
  host := []

end Sys2Proof.Machine
end

