-- ==== Sys2Proof/Machine/Ops.lean ====
section
/-! DEFINITION. The named operations every step is made of: the arrays, the access primitives of R9, the pixel cache, the
per-call initialisation, and error entry as one shared operation. -/

namespace Sys2Proof.Machine

/-! ### Arrays -/

/-- The canonical form of an array: offsets strictly rising. -/
abbrev Memory.wf (m : Memory) : Prop := m.Pairwise fun x y => x.1 < y.1

/-- The byte at an offset, or `none` where the array lists none.  Log 8. -/
def Memory.read : Memory → Nat → Option Byte
  | [], _ => none
  | (a, b) :: m, k => if a = k then some b else Memory.read m k

/-- The array with one byte written, in canonical form. -/
def Memory.write : Memory → Nat → Byte → Memory
  | [], k, v => [(k, v)]
  | (a, b) :: m, k, v =>
    if k < a then (k, v) :: (a, b) :: m
    else if k = a then (a, v) :: m
    else (a, b) :: Memory.write m k v

/-- Bytes written one after another from an offset up. -/
def Memory.writeRange : Memory → Nat → List Byte → Memory
  | m, _, [] => m
  | m, k, v :: vs => Memory.writeRange (Memory.write m k v) (k + 1) vs

/-- `n` bytes from an offset up, if the array lists them all. -/
def Memory.readRange : Memory → Nat → Nat → Option (List Byte)
  | _, _, 0 => some []
  | m, k, n + 1 =>
    match Memory.read m k, Memory.readRange m (k + 1) n with
    | some b, some bs => some (b :: bs)
    | _, _ => none

/-- The array that holds these bytes from an offset up. -/
def Memory.ofBytesFrom : Nat → List Byte → Memory
  | _, [] => []
  | k, b :: bs => (k, b) :: Memory.ofBytesFrom (k + 1) bs

/-- A host byte array, indexed from 0 (R50). -/
def Memory.ofBytes (bs : List Byte) : Memory := Memory.ofBytesFrom 0 bs

/-! ### Sizes -/

/-- `NPIX`, exact (R33). -/
def State.npix (s : State) : Nat := s.hdrWidth.toNat * s.hdrHeight.toNat

/-- `HDR_CHANNELS` as the number `C` of the pseudocode. -/
def State.channels (s : State) : Nat := s.hdrChannels.toNat

/-- The size of `OUT`, and of `PIXIN`, in bytes (R50). -/
def State.arraySize (s : State) : Nat := s.npix * s.channels

/-- `CHANNEL_SET` of R5. -/
abbrev supportedChannels (c : Byte) : Prop := c = 3 ∨ c = 4

/-- `PIX`, `IP` and `OP` are within the width `CURSOR_BITS` of the build (D15, X13).  Log 2. -/
def State.cursorsFit (s : State) : Bool :=
  match s.config.cursorBits with
  | none => true
  | some n => decide (s.pix < 2 ^ n ∧ s.ip < 2 ^ n ∧ s.op < 2 ^ n)

/-! ### Errors -/

/-- Error entry (R235): `ERR` gets the kind and `PHASE` becomes `ERROR`; nothing else of the block changes.  It is left only
by a command (R238), so there is no return operation. -/
def errorEntry (e : ErrorKind) (s : State) : State := { s with err := some e, phase := .error }

/-- What a piece of a step's pseudocode comes to. -/
inductive Attempt (α : Type) where
  /-- It goes on, with a temporary and the state it has written so far. -/
  | done (a : α) (s : State)
  /-- `raise e` (R9), with the oracle's answers that are left. -/
  | raised (e : ErrorKind) (oracle : List IoAnswer)
  /-- It reaches a place to which the spec gives no meaning. -/
  | stopped (f : Fault)
  deriving Repr

/-- One piece of pseudocode after another. -/
def Attempt.andThen {α β : Type} (x : Attempt α) (k : α → State → Attempt β) : Attempt β :=
  match x with
  | .done a s => k a s
  | .raised e o => .raised e o
  | .stopped f => .stopped f

/-- `raise e` in a state. -/
def raise {α : Type} (e : ErrorKind) (s : State) : Attempt α := .raised e s.oracle

/-- The end of a step that began in `s` (R10, R235): its writes happen all together, or, when it raised, none of them and
error entry instead.  The oracle's answers stay used (log 3). -/
def commit (s : State) (x : Attempt Unit) : Host.Outcome State Fault Refusal :=
  match x with
  | .done _ s' => if s'.cursorsFit then .next s' else .refused .cursorOverflow
  | .raised e o => .next (errorEntry e { s with oracle := o })
  | .stopped f => .fault f

/-! ### Access primitives -/

/-- One question to the I/O oracle (R5, R233): `IoFailure` when it answers fail.  Log 3. -/
def askOracle (s : State) : Attempt Unit :=
  match s.oracle with
  | [] => .done () s
  | .ok :: o => .done () { s with oracle := o }
  | .fail :: o => .raised .ioFailure o

/-- A byte an array lists, or the fault for a byte it does not. -/
def listed (array : ArrayName) (m : Memory) (k : Nat) (s : State) : Attempt Byte :=
  match Memory.read m k with
  | some b => .done b s
  | none => .stopped (.noByteAt array k)

/-- `InByte(k)` (R64): the oracle first, then the end of the input. -/
def inByte (k : Nat) (s : State) : Attempt Byte :=
  (askOracle s).andThen fun _ s =>
    if k ≥ s.inLen then raise .unexpectedEof s else listed .input s.input k s

/-- `InByte(k)`, …, `InByte(k+n−1)` in increasing offset order. -/
def inBytes : Nat → Nat → State → Attempt (List Byte)
  | _, 0, s => .done [] s
  | k, n + 1, s =>
    (inByte k s).andThen fun b s =>
      (inBytes (k + 1) n s).andThen fun bs s => .done (b :: bs) s

/-- `PixIn(i)` (R65): one question to the oracle a pixel; alpha is 255 with 3 channels. -/
def pixIn (i : Nat) (s : State) : Attempt Pixel :=
  (askOracle s).andThen fun _ s =>
    if s.npix ≤ i then .stopped (.outsidePixin i)
    else if s.hdrChannels = 4 then
      (listed .pixin s.pixin (4 * i) s).andThen fun r s =>
      (listed .pixin s.pixin (4 * i + 1) s).andThen fun g s =>
      (listed .pixin s.pixin (4 * i + 2) s).andThen fun b s =>
      (listed .pixin s.pixin (4 * i + 3) s).andThen fun a s => .done ⟨r, g, b, a⟩ s
    else if s.hdrChannels = 3 then
      (listed .pixin s.pixin (3 * i) s).andThen fun r s =>
      (listed .pixin s.pixin (3 * i + 1) s).andThen fun g s =>
      (listed .pixin s.pixin (3 * i + 2) s).andThen fun b s => .done ⟨r, g, b, 255⟩ s
    else .stopped .pixelOfBadWidth

/-- `OutWrite(k, v)` (R66). -/
def outWrite (k : Nat) (v : Byte) (s : State) : Attempt Unit :=
  (askOracle s).andThen fun _ s =>
    if k < s.arraySize then .done () { s with out := Memory.write s.out k v }
    else .stopped (.outsideOut k)

/-- `OutWrite` of bytes at successive offsets. -/
def outWrites : Nat → List Byte → State → Attempt Unit
  | _, [], s => .done () s
  | k, v :: vs, s => (outWrite k v s).andThen fun _ s => outWrites (k + 1) vs s

/-- `Emit(v)` (R67): append at offset `OP`, then `OP + 1`. -/
def emit (v : Byte) (s : State) : Attempt Unit :=
  (askOracle s).andThen fun _ s => .done () { s with sink := Memory.write s.sink s.op v, op := s.op + 1 }

/-- `Emit` of bytes one after another. -/
def emits : List Byte → State → Attempt Unit
  | [], s => .done () s
  | v :: vs, s => (emit v s).andThen fun _ s => emits vs s

/-! ### The pixel cache -/

/-- The cache hash (R111). -/
def hash (p : Pixel) : Slot := Fin.ofNat 64 (p.r.toNat * 3 + p.g.toNat * 5 + p.b.toNat * 7 + p.a.toNat * 11)

/-- `CACHE[i]` (R113). -/
def cacheRead (c : Vector Pixel 64) (i : Slot) : Pixel := c.get i

/-- `CACHE[hash(p)] <- p` (R115). -/
def cacheInsert (c : Vector Pixel 64) (p : Pixel) : Vector Pixel 64 := c.set (hash p).val p (hash p).isLt

/-- A cache whose slots are all {0,0,0,0} (R117). -/
def emptyCache : Vector Pixel 64 := Vector.replicate 64 Pixel.zero

/-! ### Pixel output of the decoder -/

/-- The bytes of a pixel in `OUT`, in the order of R53: alpha only with 4 channels (R139). -/
def pixelBytes (channels : Byte) (p : Pixel) : List Byte :=
  if channels = 4 then [p.r, p.g, p.b, p.a] else [p.r, p.g, p.b]

/-- `EmitPixel(p, C)` (R139): the bytes at `PIX × C`, and `OP` behind them. -/
def emitPixel (p : Pixel) (s : State) : Attempt Unit :=
  (outWrites (s.pix * s.channels) (pixelBytes s.hdrChannels p) s).andThen fun _ s =>
    .done () { s with op := (s.pix + 1) * s.channels }

/-- The common end of a decode pixel step that produced `p` (R130, R139, R140, R141). -/
def producePixel (p : Pixel) (s : State) : Attempt Unit :=
  (emitPixel p { s with px := p }).andThen fun _ s =>
    .done () { s with pix := s.pix + 1, phase := if s.pix + 1 = s.npix then .done else s.phase }

/-! ### Per-call initialisation -/

/-- `PerCallInit` (R261). -/
def perCallInit (s : State) : State :=
  { s with cache := emptyCache, px := Pixel.start, run := 0, pix := 0, ip := 0, op := 0, err := none, sink := [] }

end Sys2Proof.Machine
end

