-- ==== Sys2Proof/Machine/Operands.lean ====
section
/-! DEFINITION. Operand assembly and the 8-bit arithmetic of the op-codes: `wrap8` and `s8` of R7, the decoder's pixels
(R132-R137) and the encoder's deltas (R179). -/

namespace Sys2Proof.Machine

/-- `wrap8(x) = x mod 256` (R7). -/
def wrap8 (x : Int) : Byte := BitVec.ofInt 8 x

/-- `s8(v)`: an 8-bit value as two's-complement signed (R7). -/
def s8 (v : Byte) : Int := if v.toNat < 128 then (v.toNat : Int) else (v.toNat : Int) - 256

/-- `wrap8(v + d)`: one channel moved by a delta (R133, R134). -/
def addDelta (v : Byte) (d : Int) : Byte := wrap8 ((v.toNat : Int) + d)

/-- A pixel moved by three deltas, alpha kept (R133, R134). -/
def addDeltas (p : Pixel) (dr dg db : Int) : Pixel := ⟨addDelta p.r dr, addDelta p.g dg, addDelta p.b db, p.a⟩

/-- The slot an INDEX operand names (R72). -/
def slotOf (i : Nat) : Slot := Fin.ofNat 64 i

/-- The pixel INDEX produces (R132): the slot's content, with no check of its hash (D18). -/
def indexPixel (s : State) (i : Nat) : Pixel := cacheRead s.cache (slotOf i)

/-- The pixel DIFF produces (R133). -/
def diffPixel (px : Pixel) (dr dg db : Int) : Pixel := addDeltas px dr dg db

/-- The pixel LUMA produces (R134): `dr = dg + dr_dg` and `db = dg + db_dg`, in integers. -/
def lumaPixel (px : Pixel) (dg drDg dbDg : Int) : Pixel := addDeltas px (dg + drDg) dg (dg + dbDg)

/-- The pixel RGB produces (R135): the previous alpha stays. -/
def rgbPixel (px : Pixel) (r g b : Byte) : Pixel := ⟨r, g, b, px.a⟩

/-- The pixel RGBA produces (R136). -/
def rgbaPixel (r g b a : Byte) : Pixel := ⟨r, g, b, a⟩

/-- The run counter after a RUN op-code: its length minus one (R137). -/
def runRepeats (n : Nat) : BitVec 6 := BitVec.ofNat 6 (n - 1)

/-- `s8(wrap8(x − y))`: the signed 8-bit delta of one channel (R179). -/
def delta (x y : Byte) : Int := s8 (wrap8 ((x.toNat : Int) - (y.toNat : Int)))

end Sys2Proof.Machine
end

