-- ==== Sys2Proof/Machine/Flags.lean ====
section
/-! DEFINITION. The block has no flags, condition codes or predicates (R35).  What stands here instead are the comparisons
that take a flag's place: the decoder has none beside the tag, and the encoder chooses its op-code by these (R170). -/

namespace Sys2Proof.Machine

/-- `DiffFits` (R180). -/
def diffFits (dr dg db : Int) : Bool := decide (inRange (-2) dr 1 ∧ inRange (-2) dg 1 ∧ inRange (-2) db 1)

/-- `LumaFits` (R181), the relative deltas formed in integers (R179). -/
def lumaFits (dr dg db : Int) : Bool :=
  decide (inRange (-32) dg 31 ∧ inRange (-8) (dr - dg) 7 ∧ inRange (-8) (db - dg) 7)

/-- The hit of `CacheHit(p)`: equality of all four channels, and nothing else (R114, D6). -/
def cacheHit (c : Vector Pixel 64) (p : Pixel) : Bool := decide (cacheRead c (hash p) = p)

/-- The engine is in a run, so that a `START_*` is refused (R213). -/
def busy : Phase → Bool
  | .decHeader => true
  | .decPixels => true
  | .encHeader => true
  | .encPixels => true
  | .encTail => true
  | .idle => false
  | .done => false
  | .error => false

end Sys2Proof.Machine
end

