-- ==== Sys2Proof/Machine/Commands.lean ====
section
/-! DEFINITION. The host's side (44_commands.md): the three commands, and what the host reads back. -/

namespace Sys2Proof.Machine

/-- `RESET` (R210): every register and array back to reset.  The parameters, the oracle and the host's plan are not the
block's and stay. -/
def resetCommand (s : State) : State :=
  { State.reset with config := s.config, oracle := s.oracle, host := s.host }

/-- `START_DECODE(IN)` (R211), of a block that is not busy.  `OUT` begins unwritten (log 9). -/
def startDecode (bytes : List Byte) (s : State) : State :=
  { perCallInit s with
    inLen := bytes.length
    input := Memory.ofBytes bytes
    out := []
    hdrWidth := 0
    hdrHeight := 0
    hdrChannels := 0
    hdrColorspace := 0
    phase := .decHeader }

/-- `START_ENCODE(w, h, ch, cs, PIXIN)` (R212), of a block that is not busy. -/
def startEncode (w h : U32) (ch cs : Byte) (bytes : List Byte) (s : State) : State :=
  { perCallInit s with
    hdrWidth := w
    hdrHeight := h
    hdrChannels := ch
    hdrColorspace := cs
    pixin := Memory.ofBytes bytes
    phase := .encHeader }

/-- What R212 requires of the length of `PIXIN`; nothing when the channel count is unsupported (D25). -/
def pixinLengthOk (w h : U32) (ch : Byte) (bytes : List Byte) : Bool :=
  decide (supportedChannels ch → bytes.length = w.toNat * h.toNat * ch.toNat)

/-- One host command as a command step.  A `START_*` while busy has no effect (R213; log 6). -/
def hostCommand (c : HostCommand) (s : State) : Host.Outcome State Fault Refusal :=
  match c with
  | .reset => .next (resetCommand s)
  | .startDecode bytes => if busy s.phase then .next s else .next (startDecode bytes s)
  | .startEncode w h ch cs bytes =>
    if busy s.phase then .next s
    else if pixinLengthOk w h ch bytes then .next (startEncode w h ch cs bytes s)
    else .refused .wrongPixinLength

/-- The number the host reads in `PHASE` (R21). -/
def phaseCode : Phase → BitVec 3
  | .idle => 0
  | .decHeader => 1
  | .decPixels => 2
  | .encHeader => 3
  | .encPixels => 4
  | .encTail => 5
  | .done => 6
  | .error => 7

/-- The number the host reads in `ERR` (R22, R230). -/
def errCode : Option ErrorKind → BitVec 3
  | none => 0
  | some .invalidMagic => 1
  | some .unexpectedEof => 2
  | some .ioFailure => 3
  | some .unsupportedChannelCount => 4

/-- The registers the host can read at any time (R37): numbers as naturals, `PX` as a pixel. -/
inductive HostReg where
  | phase | err | hdrWidth | hdrHeight | hdrChannels | hdrColorspace | pxR | pxG | pxB | pxA | run | pix | ip | op | inLen
  deriving DecidableEq, Repr

/-- A host read of a register (R37); it changes nothing. -/
def hostRead (r : HostReg) (s : State) : Nat :=
  match r with
  | .phase => (phaseCode s.phase).toNat
  | .err => (errCode s.err).toNat
  | .hdrWidth => s.hdrWidth.toNat
  | .hdrHeight => s.hdrHeight.toNat
  | .hdrChannels => s.hdrChannels.toNat
  | .hdrColorspace => s.hdrColorspace.toNat
  | .pxR => s.px.r.toNat
  | .pxG => s.px.g.toNat
  | .pxB => s.px.b.toNat
  | .pxA => s.px.a.toNat
  | .run => s.run.toNat
  | .pix => s.pix
  | .ip => s.ip
  | .op => s.op
  | .inLen => s.inLen

/-- What a call returns to the host. -/
inductive Result where
  | decoded (bytes : List Byte) (width height : U32) (channels colorspace : Byte)
  | encoded (bytes : List Byte)
  | failed (e : ErrorKind)
  deriving DecidableEq, Repr

/-- The result of a run the host began with `START_DECODE` (R215): `OUT` and the header registers at `DONE`, the error kind
alone at `ERROR` (R236), nothing before (R59). -/
def decodeResult (s : State) : Option Result :=
  match s.phase with
  | .done =>
    (Memory.readRange s.out 0 s.arraySize).map fun bytes =>
      .decoded bytes s.hdrWidth s.hdrHeight s.hdrChannels s.hdrColorspace
  | .error => s.err.map .failed
  | _ => none

/-- The result of a run the host began with `START_ENCODE` (R215). -/
def encodeResult (s : State) : Option Result :=
  match s.phase with
  | .done => (Memory.readRange s.sink 0 s.op).map .encoded
  | .error => s.err.map .failed
  | _ => none

end Sys2Proof.Machine
end

