-- ==== Sys2Proof/Machine/DecodeOps.lean ====
section
/-! DEFINITION. The meanings of the six op-codes in a decode pixel step (R132-R137) and the run-repeat step (R138). -/

namespace Sys2Proof.Machine

/-- A decode step that moves `IP`, may insert its pixel, and produces it (R130). -/
def produceInserted (len : Nat) (p : Pixel) (s : State) : Host.Outcome State Fault Refusal :=
  commit s (producePixel p { s with cache := cacheInsert s.cache p, ip := s.ip + len })

/-- INDEX (R132): no insert. -/
def execIndex (i : Nat) (s : State) : Host.Outcome State Fault Refusal :=
  commit s (producePixel (indexPixel s i) { s with ip := s.ip + 1 })

/-- DIFF (R133). -/
def execDiff (dr dg db : Int) (s : State) : Host.Outcome State Fault Refusal :=
  produceInserted 1 (diffPixel s.px dr dg db) s

/-- LUMA (R134). -/
def execLuma (dg drDg dbDg : Int) (s : State) : Host.Outcome State Fault Refusal :=
  produceInserted 2 (lumaPixel s.px dg drDg dbDg) s

/-- RUN (R137): the counter holds the repeats still to come; no insert. -/
def execRun (n : Nat) (s : State) : Host.Outcome State Fault Refusal :=
  commit s (producePixel s.px { s with run := runRepeats n, ip := s.ip + 1 })

/-- RGB (R135). -/
def execRgb (r g b : Byte) (s : State) : Host.Outcome State Fault Refusal :=
  produceInserted 4 (rgbPixel s.px r g b) s

/-- RGBA (R136): legal with 3 channels too. -/
def execRgba (r g b a : Byte) (s : State) : Host.Outcome State Fault Refusal :=
  produceInserted 5 (rgbaPixel r g b a) s

/-- The run-repeat step (R138): `RUN − 1`, the previous pixel again, no byte read, no insert. -/
def runRepeat (s : State) : Host.Outcome State Fault Refusal :=
  commit s (producePixel s.px { s with run := s.run - 1 })

end Sys2Proof.Machine
end

