-- ==== Sys2Proof/Machine/EncodeOps.lean ====
section
/-! DEFINITION. The encoder (43_encode_ops.md): the run counter with its cap, the cache lookup and insert, op-code selection,
the encode pixel step R170 and the tail step R185.  The bytes of an op-code are those of `encode`. -/

namespace Sys2Proof.Machine

/-- A RUN op-code for a pending run (R174, R175), and the counter back to 0. -/
def emitRun (n : Nat) (s : State) : Attempt Unit :=
  (emits (encode (.run n)) s).andThen fun _ s => .done () { s with run := 0 }

/-- `RunExtend` (R172): one more pixel of the run, and a RUN of 62 at the cap (R173). -/
def runExtend (s : State) : Attempt Unit :=
  let s := { s with run := s.run + 1 }
  if s.run.toNat = runCap then emitRun runCap s else .done () s

/-- `if RUN > 0: RunFlush()` (R174), also of the tail step (R185). -/
def runFlush (s : State) : Attempt Unit :=
  if s.run = 0 then .done () s else emitRun s.run.toNat s

/-- The op-code for a pixel that missed in the cache, in the priority order of R170 (R178-R182). -/
def chooseLiteral (p px : Pixel) : Instr :=
  let dr := delta p.r px.r
  let dg := delta p.g px.g
  let db := delta p.b px.b
  if p.a ≠ px.a then .rgba p.r p.g p.b p.a
  else if diffFits dr dg db then .diff dr dg db
  else if lumaFits dr dg db then .luma dg (dr - dg) (db - dg)
  else .rgb p.r p.g p.b

/-- The op-code for a pixel that is no run pixel: INDEX on a hit (R176), else by `chooseLiteral`. -/
def chooseOp (c : Vector Pixel 64) (p px : Pixel) : Instr :=
  if cacheHit c p then .index (hash p).val else chooseLiteral p px

/-- The cache after a pixel that is no run pixel: the insert of a miss (R177). -/
def cacheAfter (c : Vector Pixel 64) (p : Pixel) : Vector Pixel 64 := if cacheHit c p then c else cacheInsert c p

/-- The classification of an input pixel (R170): run extension, or run flush, lookup, insert and op-code, with `PX` from before the
step (R264). -/
def classify (p : Pixel) (s : State) : Attempt Unit :=
  if p = s.px then runExtend s
  else
    (runFlush s).andThen fun _ s =>
      emits (encode (chooseOp s.cache p s.px)) { s with cache := cacheAfter s.cache p }

/-- The end of an encode pixel step (R183, R184). -/
def advanceEncoder (p : Pixel) (s : State) : State :=
  { s with
    px := p
    pix := s.pix + 1
    ip := s.ip + s.channels
    phase := if s.pix + 1 = s.npix then .encTail else s.phase }

/-- The encode pixel step (R170). -/
def encodePixel (s : State) : Host.Outcome State Fault Refusal :=
  commit s <|
    (pixIn s.pix s).andThen fun p s =>
      (classify p s).andThen fun _ s => .done () (advanceEncoder p s)

/-- The tail step (R185): the pending run, then the end marker. -/
def encodeTail (s : State) : Host.Outcome State Fault Refusal :=
  commit s <|
    (runFlush s).andThen fun _ s =>
      (emits endMarker s).andThen fun _ s => .done () { s with phase := .done }

end Sys2Proof.Machine
end

