-- ==== Sys2Proof/Machine/Fetch.lean ====
section
/-! DEFINITION. Reading the op-code at `IP`: its first byte, the bytes its length asks for (R79), and its decoding. -/

namespace Sys2Proof.Machine

/-- The bytes of the op-code at `IP`, in increasing offset order (R130, R237). -/
def fetchBytes (s : State) : Attempt (List Byte) :=
  (inByte s.ip s).andThen fun b0 s =>
    (inBytes (s.ip + 1) (opLength b0 - 1) s).andThen fun bs s => .done (b0 :: bs) s

/-- The op-code the bytes spell. -/
def decoded (bs : List Byte) (s : State) : Attempt Instr :=
  match decode bs with
  | .ok (i, _) => .done i s
  | .error r => .stopped (.undecodable r)

/-- The op-code at `IP`. -/
def fetch (s : State) : Attempt Instr := (fetchBytes s).andThen decoded

end Sys2Proof.Machine
end

