-- ==== Sys2Proof/Machine/HeaderCodec.lean ====
section
/-! DEFINITION. The header codec (40_header.md): big-endian integers, the header parse step R93, the header emit step R96. -/

namespace Sys2Proof.Machine

/-- `be32` (R91). -/
def be32 (b0 b1 b2 b3 : Byte) : U32 :=
  BitVec.ofNat 32 (b0.toNat * 2 ^ 24 + b1.toNat * 2 ^ 16 + b2.toNat * 2 ^ 8 + b3.toNat)

/-- `be32bytes` (R92). -/
def be32bytes (v : U32) : List Byte :=
  [v.extractLsb' 24 8, v.extractLsb' 16 8, v.extractLsb' 8 8, v.extractLsb' 0 8]

/-- The byte at offset `k` of a header of which the bytes from offset 4 up are given. -/
def headerByte (h : List Byte) (k : Nat) : Byte := h.getD (k - 4) 0

/-- What the header parse step does with its bytes once all 14 are read: the channel check, then every write (R93). -/
def latchHeader (h : List Byte) (s : State) : Attempt Unit :=
  let w := be32 (headerByte h 4) (headerByte h 5) (headerByte h 6) (headerByte h 7)
  let ht := be32 (headerByte h 8) (headerByte h 9) (headerByte h 10) (headerByte h 11)
  let ch := headerByte h 12
  let cs := headerByte h 13
  if supportedChannels ch then
    .done ()
      { s with
        hdrWidth := w
        hdrHeight := ht
        hdrChannels := ch
        hdrColorspace := cs
        ip := headerBytes
        phase := if w.toNat * ht.toNat = 0 then .done else .decPixels }
  else raise .unsupportedChannelCount s

/-- The header parse step (R93), its errors in the order of R237. -/
def headerParse (s : State) : Host.Outcome State Fault Refusal :=
  commit s <|
    if s.inLen < 4 then raise .invalidMagic s
    else
      (inBytes 0 4 s).andThen fun m s =>
        if m = s.config.magic.bytes then (inBytes 4 10 s).andThen latchHeader
        else raise .invalidMagic s

/-- The 14 bytes of the header registers, in the order of R90. -/
def headerOf (s : State) : List Byte :=
  s.config.magic.bytes ++ be32bytes s.hdrWidth ++ be32bytes s.hdrHeight ++ [s.hdrChannels, s.hdrColorspace]

/-- The header emit step (R96): the channel check comes before any byte. -/
def headerEmit (s : State) : Host.Outcome State Fault Refusal :=
  commit s <|
    if supportedChannels s.hdrChannels then
      (emits (headerOf s) s).andThen fun _ s =>
        .done () { s with phase := if s.npix = 0 then .encTail else .encPixels }
    else raise .unsupportedChannelCount s

end Sys2Proof.Machine
end

