-- ==== Sys2Proof/Machine/Engine.lean ====
section
/-! DEFINITION. The engine step that `PHASE` selects (R20), and the host's moves between engine steps. -/

namespace Sys2Proof.Machine

/-- The op-code at `IP` run as one step (R130): what the fetch raises, the step raises (R143). -/
def fetchAndExec (s : State) : Host.Outcome State Fault Refusal :=
  match fetch s with
  | .done i s' => exec i s'
  | .raised e o => .next (errorEntry e { s with oracle := o })
  | .stopped f => .fault f

/-- The decode pixel step (R130): a repeat while `RUN > 0`, else the op-code at `IP`. -/
def decodePixel (s : State) : Host.Outcome State Fault Refusal :=
  if s.run = 0 then fetchAndExec s else runRepeat s

/-- The engine step of R20.  In a quiescent phase the engine takes none, and the state stays (R214; log 5). -/
def engineStep (s : State) : Host.Outcome State Fault Refusal :=
  match s.phase with
  | .decHeader => headerParse s
  | .decPixels => decodePixel s
  | .encHeader => headerEmit s
  | .encPixels => encodePixel s
  | .encTail => encodeTail s
  | .idle => .next s
  | .done => .next s
  | .error => .next s

/-- The host's next move, if it has one, and else an engine step (R20; log 4). -/
def machineStep (s : State) : Host.Outcome State Fault Refusal :=
  match s.host with
  | [] => engineStep s
  | .wait :: rest => engineStep { s with host := rest }
  | .command c :: rest => hostCommand c { s with host := rest }

end Sys2Proof.Machine
end

