-- ==== Sys2Proof/Machine/Step.lean ====
section
/-! DEFINITION. One step of the machine, and the placing of a single op-code where the next step fetches it. -/

namespace Sys2Proof.Machine

/-- One step: a host command, or one engine step. -/
def step (s : State) : Host.Outcome State Fault Refusal := machineStep s

/-- `s` as it stands after a decode run has been started and its header parsed, with the op-code of a table word at `IP`, so
that the next step runs it.  It takes the place of `START_DECODE` and the header parse step (log 11).  An image with pixels
left is kept; where none is left, a 64 × 64 image is begun. -/
def State.withFetchWord (s : State) (nbits w : Nat) : State :=
  let t : State :=
    { s with
      phase := .decPixels
      err := none
      run := 0
      host := []
      oracle := []
      inLen := max s.inLen (s.ip + longestOp)
      input := Memory.writeRange s.input s.ip (tableBytes nbits w)
      hdrChannels := if supportedChannels s.hdrChannels then s.hdrChannels else 4 }
  let u : State := if t.pix < t.npix then t else { t with hdrWidth := 64, hdrHeight := 64, pix := 0 }
  { u with op := u.pix * u.channels }

end Sys2Proof.Machine
end

