-- ==== Sys2Proof/Safety.lean ====
section
/-! DEFINITION. What a safe run keeps, and the words the statements are written in. -/

namespace Sys2Proof.Machine

/-- The array lists a byte at the offset. -/
abbrev Memory.lists (m : Memory) (k : Nat) : Prop := (Memory.read m k).isSome = true

/-- The oracle lets the next `n` accesses through. -/
def State.lets (s : State) (n : Nat) : Prop := ∀ a ∈ s.oracle.take n, a = IoAnswer.ok

/-- The state once `n` more of the oracle's answers are used. -/
def State.used (s : State) (n : Nat) : State := { s with oracle := s.oracle.drop n }

/-- The engine runs by itself at the next step: the host waits, or has no move left. -/
def State.hostWaits (s : State) : Prop := s.host = [] ∨ ∃ rest, s.host = .wait :: rest

/-- The state once the host's waiting move is taken. -/
def State.afterWait (s : State) : State := { s with host := s.host.tail }

/-- How many bytes of `OUT` one pixel takes: the `C` of R139. -/
def pixelWidth (channels : Byte) : Nat := if channels = 4 then 4 else 3

/-- The state after a decode pixel step that produced `p`, apart from what the op-code itself writes (R139, R140, R141): `PX`,
the pixel's bytes in `OUT`, `OP`, `PIX` and `PHASE`, and the oracle's answers used by the writes. -/
def State.pixelDone (s : State) (p : Pixel) : State :=
  { s with
    px := p
    out := Memory.writeRange s.out (s.pix * s.channels) (pixelBytes s.hdrChannels p)
    op := (s.pix + 1) * s.channels
    pix := s.pix + 1
    phase := if s.pix + 1 = s.npix then .done else s.phase
    oracle := s.oracle.drop (pixelWidth s.hdrChannels) }

/-- When a decode pixel step that moves `IP` by `len` completes: a supported channel count, a pixel left to produce (R130),
output writes that do not fail, and cursors within the build's width. -/
def State.pixelReady (s : State) (len : Nat) : Prop :=
  supportedChannels s.hdrChannels ∧ s.pix < s.npix ∧ s.lets (pixelWidth s.hdrChannels) ∧
    ({ s with ip := s.ip + len, pix := s.pix + 1, op := (s.pix + 1) * s.channels } : State).cursorsFit = true

/-- The state after bytes have been appended to `SINK` (R67). -/
def State.emitted (s : State) (bs : List Byte) : State :=
  { s with sink := Memory.writeRange s.sink s.op bs, op := s.op + bs.length, oracle := s.oracle.drop bs.length }

/-- `IN` lists these bytes from an offset up, all below `IN_LEN`. -/
def State.inputAt (s : State) (k : Nat) (bs : List Byte) : Prop :=
  k + bs.length ≤ s.inLen ∧ Memory.readRange s.input k bs.length = some bs

/-- `PIXIN` holds pixel `i` (R53, R65): its four bytes with 4 channels, or three and an alpha of 255 with 3. -/
def State.pixelAt (s : State) (i : Nat) (p : Pixel) : Prop :=
  (s.hdrChannels = 4 ∧ Memory.readRange s.pixin (4 * i) 4 = some [p.r, p.g, p.b, p.a]) ∨
    (s.hdrChannels = 3 ∧ Memory.readRange s.pixin (3 * i) 3 = some [p.r, p.g, p.b] ∧ p.a = 255)

/-- The RUN op-code the encoder owes for a pending run, as bytes (R174). -/
def pendingRun (run : BitVec 6) : List Byte := if run = 0 then [] else encode (.run run.toNat)

/-- `t` is `s` but for what decode pixel steps may write: `PHASE`, `PX`, `RUN`, `PIX`, `IP`, `OP`, the cache, the oracle's answers,
`ERR` on an error only, and in `OUT` only the bytes of the current pixel, at `PIX × C` (R139, R235). -/
def State.decodeFrame (s t : State) : Prop :=
  t.hdrWidth = s.hdrWidth ∧ t.hdrHeight = s.hdrHeight ∧ t.hdrChannels = s.hdrChannels ∧
    t.hdrColorspace = s.hdrColorspace ∧ t.inLen = s.inLen ∧ t.input = s.input ∧ t.pixin = s.pixin ∧ t.sink = s.sink ∧
    t.config = s.config ∧ (t.phase ≠ .error → t.err = s.err) ∧
    ∀ k, k < s.pix * s.channels ∨ s.pix * s.channels + pixelWidth s.hdrChannels ≤ k →
      Memory.read t.out k = Memory.read s.out k

/-- Which phases an engine step can lead to (R20, R93, R96, R141, R184, R185, R214, R235). -/
def phaseSuccessors : Phase → List Phase
  | .idle => [.idle]
  | .decHeader => [.decPixels, .done, .error]
  | .decPixels => [.decPixels, .done, .error]
  | .encHeader => [.encPixels, .encTail, .error]
  | .encPixels => [.encPixels, .encTail, .error]
  | .encTail => [.done, .error]
  | .done => [.done]
  | .error => [.error]

/-- Which errors an engine step in a phase can raise (R230, R237). -/
def errorsOf : Phase → List ErrorKind
  | .decHeader => [.invalidMagic, .unexpectedEof, .ioFailure, .unsupportedChannelCount]
  | .decPixels => [.unexpectedEof, .ioFailure]
  | .encHeader => [.ioFailure, .unsupportedChannelCount]
  | .encPixels => [.ioFailure]
  | .encTail => [.ioFailure]
  | .idle => []
  | .done => []
  | .error => []

/-- What every state of a run from reset satisfies. -/
structure State.Inv (s : State) : Prop where
  /-- The arrays are in canonical form. -/
  wfInput : Memory.wf s.input
  wfPixin : Memory.wf s.pixin
  wfOut : Memory.wf s.out
  wfSink : Memory.wf s.sink
  /-- `RUN` is 0..61 between steps (R28). -/
  run : s.run.toNat ≤ 61
  /-- `ERR ≠ NONE` exactly in `ERROR` (R22). -/
  err : s.err ≠ none ↔ s.phase = .error
  /-- The channel count is 3 or 4 once the header step is past (R25). -/
  channels : s.phase = .decPixels ∨ s.phase = .encPixels ∨ s.phase = .encTail ∨ s.phase = .done →
    supportedChannels s.hdrChannels
  /-- `PIX` is 0..`NPIX` (R29). -/
  pixLe : s.pix ≤ s.npix
  /-- A pixel is left while pixels are processed (R130, R170). -/
  pixLt : s.phase = .decPixels ∨ s.phase = .encPixels → s.pix < s.npix
  /-- None is left afterwards (R141, R184). -/
  pixEq : s.phase = .encTail ∨ s.phase = .done → s.pix = s.npix
  /-- `IN` has its `IN_LEN` bytes during a decode run (R50). -/
  input : s.phase = .decHeader ∨ s.phase = .decPixels → ∀ k < s.inLen, Memory.lists s.input k
  /-- `PIXIN` has its bytes during an encode run with a supported channel count (R50, R212). -/
  pixin : s.phase = .encHeader ∨ s.phase = .encPixels → supportedChannels s.hdrChannels →
    ∀ k < s.arraySize, Memory.lists s.pixin k
  /-- A decode run begins as `START_DECODE` leaves it (R211, R261). -/
  decHeader : s.phase = .decHeader →
    s.pix = 0 ∧ s.ip = 0 ∧ s.op = 0 ∧ s.run = 0 ∧ s.px = Pixel.start ∧ s.cache = emptyCache ∧ s.out = [] ∧
      s.hdrWidth = 0 ∧ s.hdrHeight = 0 ∧ s.hdrChannels = 0 ∧ s.hdrColorspace = 0
  /-- An encode run begins as `START_ENCODE` leaves it (R212, R261). -/
  encHeader : s.phase = .encHeader →
    s.pix = 0 ∧ s.ip = 0 ∧ s.op = 0 ∧ s.run = 0 ∧ s.px = Pixel.start ∧ s.cache = emptyCache ∧ s.sink = []
  /-- In decode `OP` is `PIX × C` (R31), `IP` is between the header and the end of `IN` (R30), and `OUT` is written exactly
  below `OP` (R56). -/
  decPixels : s.phase = .decPixels →
    s.op = s.pix * s.channels ∧ headerBytes ≤ s.ip ∧ s.ip ≤ s.inLen ∧ ∀ k, Memory.lists s.out k ↔ k < s.op
  /-- In encode `IP` is `PIX × C` (R30), and `SINK` has exactly `OP` bytes, the header among them (R31). -/
  encPixels : s.phase = .encPixels ∨ s.phase = .encTail →
    s.ip = s.pix * s.channels ∧ headerBytes ≤ s.op ∧ ∀ k, Memory.lists s.sink k ↔ k < s.op
  /-- In a 3-channel encode the alpha stays 255 (R190). -/
  alpha : s.phase = .encPixels ∨ s.phase = .encTail → s.hdrChannels = 3 → s.px.a = 255
  /-- At `DONE` the result is there in full: `OUT` of a decode run (R56), or `SINK` of an encode run, whose size is at least 22
  (R187). -/
  done : s.phase = .done →
    (s.op = s.arraySize ∧ ∀ k, Memory.lists s.out k ↔ k < s.op) ∨
      (22 ≤ s.op ∧ ∀ k, Memory.lists s.sink k ↔ k < s.op)
  /-- A slot holds {0,0,0,0} or a pixel whose hash is its number (R118). -/
  slots : ∀ h : Slot, cacheRead s.cache h = Pixel.zero ∨ hash (cacheRead s.cache h) = h

end Sys2Proof.Machine
end

