-- ==== Sys2Proof/Certificates/Slice0/Obligations.lean ====
section
/-! DEFINITION. The statements for the provers.  Each docstring names the rules of spec/ it formalises. -/

open Sys2Proof Sys2Proof.Machine

/-! ### Encoding -/

/-- Decoding the bytes of a well-formed op-code gives it back and leaves the bytes after it (R70-R77, R81). -/
def Obligations.DecodeOfEncode : Prop :=
  ∀ (i : Instr) (rest : List Byte), WellFormed i → decode (encode i ++ rest) = .ok (i, rest)

/-- Every op-code the decoder reads is well-formed, and its bytes are exactly the ones it was read from (R78, R83): each byte
string has one meaning and each meaning one byte string. -/
def Obligations.EncodeOfDecode : Prop :=
  ∀ (bs : List Byte) (i : Instr) (rest : List Byte),
    decode bs = .ok (i, rest) → WellFormed i ∧ encode i ++ rest = bs

/-- R71: the first byte alone selects the op-code, FE and FF before the two-bit tag, and each first byte selects exactly one. -/
def Obligations.FirstByteSelectsOpcode : Prop :=
  ∀ b0 : Byte,
    (∃ rest i, decode (b0 :: rest) = .ok (i, [])) ∧
      ∀ (rest : List Byte) (i : Instr) (rest' : List Byte),
        decode (b0 :: rest) = .ok (i, rest') →
          match i with
          | .rgb _ _ _ => b0 = 0xFE
          | .rgba _ _ _ _ => b0 = 0xFF
          | .index _ => b0.toNat < 0x40
          | .diff _ _ _ => 0x40 ≤ b0.toNat ∧ b0.toNat < 0x80
          | .luma _ _ _ => 0x80 ≤ b0.toNat ∧ b0.toNat < 0xC0
          | .run _ => 0xC0 ≤ b0.toNat ∧ b0.toNat ≤ 0xFD

/-- R79: the length follows from the first byte: 2 when its top bits are 10, 4 for FE, 5 for FF, else 1. -/
def Obligations.LengthFromFirstByte : Prop :=
  ∀ (b0 : Byte) (rest : List Byte) (i : Instr) (rest' : List Byte),
    decode (b0 :: rest) = .ok (i, rest') →
      let len := if 0x80 ≤ b0.toNat ∧ b0.toNat < 0xC0 then 2 else if b0 = 0xFE then 4 else if b0 = 0xFF then 5 else 1
      (b0 :: rest).length = len + rest'.length ∧ (encode i).length = len

/-- R78: no first byte is illegal; an op-code is refused only for missing bytes. -/
def Obligations.EveryCompleteOpcodeDecodes : Prop :=
  ∀ (b0 : Byte) (rest : List Byte),
    (opLength b0 ≤ rest.length + 1 → ∃ i rest', decode (b0 :: rest) = .ok (i, rest')) ∧
      (rest.length + 1 < opLength b0 → decode (b0 :: rest) = .error (.truncated (tagOf b0)))

/-- A sanity check: words written out from R70-R77 decode to the op-codes they stand for.  The places of the three fields in the
word of DIFF are presumed: R73 takes them from general knowledge, not from the source (D5, log 10). -/
def Obligations.SpecWordsDecode : Prop :=
  decode [0b00_001001] = .ok (.index 9, []) ∧
    decode [0b01_00_10_11] = .ok (.diff (-2) 0 1, []) ∧
    decode [0b10_011101, 0b1010_0111] = .ok (.luma (-3) 2 (-1), []) ∧
    decode [0b11_111101] = .ok (.run 62, []) ∧
    decode [0xFE, 10, 20, 30] = .ok (.rgb 10 20 30, []) ∧
    decode [0xFF, 1, 2, 3, 4] = .ok (.rgba 1 2 3 4, [])

/-! ### Reset, commands, phases -/

/-- R260 (with R21-R32, R34): the register values after hardware reset. -/
def Obligations.ResetRegisterValues : Prop :=
  let s := State.reset
  s.phase = .idle ∧ s.err = none ∧ s.hdrWidth = 0 ∧ s.hdrHeight = 0 ∧ s.hdrChannels = 0 ∧ s.hdrColorspace = 0 ∧
    s.px = ⟨0, 0, 0, 255⟩ ∧ s.run = 0 ∧ s.pix = 0 ∧ s.ip = 0 ∧ s.op = 0 ∧ s.inLen = 0 ∧
    ∀ h : Slot, cacheRead s.cache h = ⟨0, 0, 0, 0⟩

/-- R210: `RESET` is accepted in every phase and sets every register to its reset value.  That the detached arrays are empty
is the model's choice (log 9), and that the parameters and the oracle stay is too (log 14). -/
def Obligations.ResetCommandInEveryPhase : Prop :=
  ∀ (s : State) (rest : List HostMove),
    s.host = .command .reset :: rest →
      step s = .next { State.reset with config := s.config, oracle := s.oracle, host := rest }

/-- R211, R261: what `START_DECODE` does in a quiescent block.  That `OUT` is empty then and `PIXIN` stays is the model's
choice (log 9). -/
def Obligations.StartDecodeResult : Prop :=
  ∀ (s : State) (bytes : List Byte) (rest : List HostMove),
    s.host = .command (.startDecode bytes) :: rest →
      s.phase = .idle ∨ s.phase = .done ∨ s.phase = .error →
      step s = .next
        { s with
          phase := .decHeader, err := none, hdrWidth := 0, hdrHeight := 0, hdrChannels := 0, hdrColorspace := 0
          px := ⟨0, 0, 0, 255⟩, run := 0, pix := 0, ip := 0, op := 0, inLen := bytes.length
          cache := Vector.replicate 64 ⟨0, 0, 0, 0⟩, input := Memory.ofBytes bytes, out := [], sink := []
          host := rest }

/-- R212, R261: what `START_ENCODE` does in a quiescent block: with 3 or 4 channels and a `PIXIN` of the right length, or with
any other channel count, it begins a run; with 3 or 4 channels and another length it is refused.  That `IN`, `IN_LEN` and `OUT`
stay as they are is the model's choice (log 9). -/
def Obligations.StartEncodeResult : Prop :=
  ∀ (s : State) (w h : U32) (ch cs : Byte) (pixels : List Byte) (rest : List HostMove),
    s.host = .command (.startEncode w h ch cs pixels) :: rest →
      s.phase = .idle ∨ s.phase = .done ∨ s.phase = .error →
      ((ch ≠ 3 ∧ ch ≠ 4 ∨ pixels.length = w.toNat * h.toNat * ch.toNat) →
        step s = .next
          { s with
            phase := .encHeader, err := none, hdrWidth := w, hdrHeight := h, hdrChannels := ch, hdrColorspace := cs
            px := ⟨0, 0, 0, 255⟩, run := 0, pix := 0, ip := 0, op := 0
            cache := Vector.replicate 64 ⟨0, 0, 0, 0⟩, pixin := Memory.ofBytes pixels, sink := []
            host := rest }) ∧
      ((ch = 3 ∨ ch = 4) ∧ pixels.length ≠ w.toNat * h.toNat * ch.toNat → step s = .refused .wrongPixinLength)

/-- R213: a `START_*` while busy has no effect; the host's move is spent (log 6). -/
def Obligations.BusyStartHasNoEffect : Prop :=
  ∀ (s : State) (c : HostCommand) (rest : List HostMove),
    s.host = .command c :: rest → c ≠ .reset →
      s.phase ≠ .idle ∧ s.phase ≠ .done ∧ s.phase ≠ .error →
      step s = .next { s with host := rest }

/-- R214: in `IDLE`, `DONE` and `ERROR` the engine takes no step; that the machine then answers the same state is the model's
choice (log 5). -/
def Obligations.QuiescentEngineStays : Prop :=
  ∀ s : State, s.hostWaits → s.phase = .idle ∨ s.phase = .done ∨ s.phase = .error → step s = .next s.afterWait

/-- R214, R238: nothing leaves `DONE` or `ERROR` but a command, and what leaves `ERROR` clears `ERR`. -/
def Obligations.OnlyCommandsLeaveDoneAndError : Prop :=
  ∀ s t : State, s.phase = .done ∨ s.phase = .error → step s = .next t → t.phase ≠ s.phase →
    t.err = none ∧
      ∃ c rest, s.host = .command c :: rest ∧
        (t.phase = match c with
          | .reset => Phase.idle
          | .startDecode _ => Phase.decHeader
          | .startEncode _ _ _ _ _ => Phase.encHeader)

/-- R20 and the rules of the steps: the phases an engine step can lead to. -/
def Obligations.PhaseTransitions : Prop :=
  ∀ s t : State, s.hostWaits → step s = .next t → t.phase ∈ phaseSuccessors s.phase

/-- R230, R237: the error kinds an engine step can raise, by phase. -/
def Obligations.ErrorKindsByPhase : Prop :=
  ∀ (s t : State) (e : ErrorKind), s.hostWaits → s.phase ≠ .error → step s = .next t → t.phase = .error → t.err = some e →
    e ∈ errorsOf s.phase

/-! ### Invariant -/

/-- The invariant holds after reset. -/
def Obligations.InvariantAtReset : Prop := State.reset.Inv

/-- The invariant is kept by every step, from every state that meets it: canonical arrays, `RUN` 0..61 (R28), `ERR` exactly
in `ERROR` (R22), 3 or 4 channels past the header (R25), `PIX` within `NPIX` (R29), the cursors (R30, R31), the written part
of `OUT` and `SINK` (R56), the slot invariant (R118), and alpha 255 in a 3-channel encode (R190). -/
def Obligations.EveryStepKeepsInvariant : Prop :=
  ∀ s t : State, s.Inv → step s = .next t → t.Inv

/-- From a state that meets the invariant no step stops with a fault: no read of a byte that is not there, no access outside
an array, no undecodable op-code (R50, R56, R65, R66, R78). -/
def Obligations.InvariantExcludesFaults : Prop :=
  ∀ (s : State) (f : Fault), s.Inv → step s ≠ .fault f

/-- The model refuses nothing but a wrongly sized `START_ENCODE` (R212) and a step past a finite `CURSOR_BITS` (X13). -/
def Obligations.OnlyTwoRefusals : Prop :=
  ∀ (s : State) (r : Refusal), step s = .refused r →
    (r = .cursorOverflow ∧ s.config.cursorBits ≠ none) ∨
      (r = .wrongPixinLength ∧
        ∃ w h ch cs pixels rest, s.host = .command (.startEncode w h ch cs pixels) :: rest ∧ (ch = 3 ∨ ch = 4) ∧
          pixels.length ≠ w.toNat * h.toNat * ch.toNat)

/-- R235: a step that raises changes `ERR` and `PHASE` and nothing else of the block; the oracle's answers and the host's move
it used are used (log 3, log 4). -/
def Obligations.ErrorsArePrecise : Prop :=
  ∀ s t : State, s.hostWaits → s.phase ≠ .error → step s = .next t → t.phase = .error →
    ∃ e used, t = { s with phase := .error, err := some e, oracle := s.oracle.drop used, host := s.host.tail }

/-! ### Decode -/

/-- R132: INDEX produces the slot's pixel, moves `IP` by 1, and inserts nothing. -/
def Obligations.IndexResult : Prop :=
  ∀ (i : Slot) (s : State), s.pixelReady 1 →
    exec (.index i.val) s = .next { s.pixelDone (cacheRead s.cache i) with ip := s.ip + 1 }

/-- R133: DIFF moves r, g and b with 8-bit wraparound, keeps alpha, inserts the pixel, and moves `IP` by 1. -/
def Obligations.DiffResult : Prop :=
  ∀ (dr dg db : Int) (s : State), s.pixelReady 1 →
    let p : Pixel :=
      ⟨BitVec.ofInt 8 (s.px.r.toNat + dr), BitVec.ofInt 8 (s.px.g.toNat + dg), BitVec.ofInt 8 (s.px.b.toNat + db), s.px.a⟩
    exec (.diff dr dg db) s = .next { s.pixelDone p with cache := cacheInsert s.cache p, ip := s.ip + 1 }

/-- R134: LUMA moves green by dg, red by dg + dr_dg and blue by dg + db_dg with 8-bit wraparound, keeps alpha, inserts the
pixel, and moves `IP` by 2. -/
def Obligations.LumaResult : Prop :=
  ∀ (dg drDg dbDg : Int) (s : State), s.pixelReady 2 →
    let p : Pixel :=
      ⟨BitVec.ofInt 8 (s.px.r.toNat + (dg + drDg)), BitVec.ofInt 8 (s.px.g.toNat + dg),
        BitVec.ofInt 8 (s.px.b.toNat + (dg + dbDg)), s.px.a⟩
    exec (.luma dg drDg dbDg) s = .next { s.pixelDone p with cache := cacheInsert s.cache p, ip := s.ip + 2 }

/-- R137: RUN produces the previous pixel, sets `RUN` to its length minus one, moves `IP` by 1, and inserts nothing. -/
def Obligations.RunResult : Prop :=
  ∀ (n : Nat) (s : State), 1 ≤ n → n ≤ 62 → s.pixelReady 1 →
    exec (.run n) s = .next { s.pixelDone s.px with run := BitVec.ofNat 6 (n - 1), ip := s.ip + 1 }

/-- R135: RGB sets r, g and b, keeps alpha, inserts the pixel, and moves `IP` by 4. -/
def Obligations.RgbResult : Prop :=
  ∀ (r g b : Byte) (s : State), s.pixelReady 4 →
    exec (.rgb r g b) s =
      .next { s.pixelDone ⟨r, g, b, s.px.a⟩ with cache := cacheInsert s.cache ⟨r, g, b, s.px.a⟩, ip := s.ip + 4 }

/-- R136: RGBA sets all four channels, inserts the pixel, and moves `IP` by 5, with 3 channels and with 4. -/
def Obligations.RgbaResult : Prop :=
  ∀ (r g b a : Byte) (s : State), s.pixelReady 5 →
    exec (.rgba r g b a) s =
      .next { s.pixelDone ⟨r, g, b, a⟩ with cache := cacheInsert s.cache ⟨r, g, b, a⟩, ip := s.ip + 5 }

/-- D15, X13: in a build with finite cursors a step that would take `PIX`, `IP` or `OP` past their width is refused by name, where it
would else complete: an op-code, a run repeat, the header parse step, the header emit step, the two kinds of encode pixel step
and the tail step.  That the refusal comes at that step is the model's choice (log 2). -/
def Obligations.CursorOverflowIsRefused : Prop :=
  (∀ (i : Instr) (s : State),
    supportedChannels s.hdrChannels → s.pix < s.npix → s.lets (pixelWidth s.hdrChannels) →
      ({ s with ip := s.ip + i.length, pix := s.pix + 1, op := (s.pix + 1) * s.channels } : State).cursorsFit = false →
      exec i s = .refused .cursorOverflow) ∧
  ∀ s : State, s.hostWaits →
    (s.phase = .decPixels → s.run ≠ 0 → supportedChannels s.hdrChannels → s.pix < s.npix →
      s.lets (pixelWidth s.hdrChannels) →
      ({ s with pix := s.pix + 1, op := (s.pix + 1) * s.channels } : State).cursorsFit = false →
      step s = .refused .cursorOverflow) ∧
    (∀ (w h : U32) (ch cs : Byte), s.phase = .decHeader → ch = 3 ∨ ch = 4 →
      s.inputAt 0 (s.config.magic.bytes ++ be32bytes w ++ be32bytes h ++ [ch, cs]) → s.lets 14 →
      ({ s with ip := 14 } : State).cursorsFit = false →
      step s = .refused .cursorOverflow) ∧
    (s.phase = .encHeader → supportedChannels s.hdrChannels → s.lets 14 →
      ({ s with op := s.op + 14 } : State).cursorsFit = false →
      step s = .refused .cursorOverflow) ∧
    (∀ p : Pixel, s.phase = .encPixels → s.pix < s.npix → s.pixelAt s.pix p →
      let emitted :=
        if p = s.px then (if s.run.toNat = 61 then [0xFD] else []) else pendingRun s.run ++ encode (chooseOp s.cache p s.px)
      s.lets (1 + emitted.length) →
      ({ s with pix := s.pix + 1, ip := s.ip + s.channels, op := s.op + emitted.length } : State).cursorsFit = false →
      step s = .refused .cursorOverflow) ∧
    (s.phase = .encTail →
      let emitted := pendingRun s.run ++ [0, 0, 0, 0, 0, 0, 0, 1]
      s.lets emitted.length → ({ s with op := s.op + emitted.length } : State).cursorsFit = false →
      step s = .refused .cursorOverflow)

/-- R138: while `RUN > 0` a decode step produces `PX` again, lowers `RUN` by 1, reads no byte and inserts nothing. -/
def Obligations.RunRepeatResult : Prop :=
  ∀ s : State, s.hostWaits → s.phase = .decPixels → s.run ≠ 0 → s.pixelReady 0 →
    step s = .next { s.afterWait.pixelDone s.px with run := BitVec.ofNat 6 (s.run.toNat - 1) }

/-- A step runs the op-code at `IP` (R130): when the bytes there are read without failure and decode to `i`, the step is
`exec i` of the state whose oracle answers for those reads are used. -/
def Obligations.StepRunsOpcodeAtIp : Prop :=
  ∀ (s : State) (bs : List Byte) (i : Instr),
    s.hostWaits → s.phase = .decPixels → s.run = 0 → s.inputAt s.ip bs → decode bs = .ok (i, []) → s.lets bs.length →
      step s = exec i (s.afterWait.used bs.length)

/-- The frame of the four op-codes that insert: `RUN` is unchanged, of the cache only the slot of the produced pixel may
change, and of `OUT` only the pixel's bytes (R116, R133-R136, R139). -/
def Obligations.InsertingOpcodesFrame : Prop :=
  ∀ (i : Instr) (s t : State),
    (∃ dr dg db, i = .diff dr dg db) ∨ (∃ dg drDg dbDg, i = .luma dg drDg dbDg) ∨ (∃ r g b, i = .rgb r g b) ∨
      (∃ r g b a, i = .rgba r g b a) →
    exec i s = .next t →
      s.decodeFrame t ∧ t.host = s.host ∧ t.run = s.run ∧
        ∀ h : Slot, h ≠ hash t.px → cacheRead t.cache h = cacheRead s.cache h

/-- The frame of INDEX and RUN: the cache is unchanged, INDEX leaves `RUN`, RUN leaves `PX`, and of `OUT` only the pixel's bytes
may change (R116, R132, R137, R139). -/
def Obligations.IndexAndRunFrame : Prop :=
  ∀ (s t : State) (n : Nat),
    (exec (.index n) s = .next t → s.decodeFrame t ∧ t.host = s.host ∧ t.cache = s.cache ∧ t.run = s.run) ∧
      (exec (.run n) s = .next t → s.decodeFrame t ∧ t.host = s.host ∧ t.cache = s.cache ∧ t.px = s.px)

/-- R130, R138, R141, R148, R149: what a decode pixel step that raises nothing does to the cursors.  `PIX` grows by 1 and the
step ends in `DONE` exactly when it reaches `NPIX`; with `RUN = 0` `IP` moves by the length of the op-code there, which lies
inside `IN`; with `RUN > 0` it does not move, and no byte is read: a change of `IN` or `IN_LEN` changes nothing. -/
def Obligations.DecodeStepCursors : Prop :=
  ∀ s t : State, s.hostWaits → s.phase = .decPixels → step s = .next t → t.phase ≠ .error →
    t.pix = s.pix + 1 ∧ (t.phase = .done ↔ t.pix = s.npix) ∧
      (s.run = 0 → ∃ bs i, s.inputAt s.ip bs ∧ decode bs = .ok (i, []) ∧ t.ip = s.ip + bs.length) ∧
      (s.run ≠ 0 → t.ip = s.ip ∧
        ∀ (n : Nat) (m : Memory),
          step { s with inLen := n, input := m } = .next { t with inLen := n, input := m })

/-- R143, R232: an op-code that does not fit before `IN_LEN` raises `UnexpectedEof`, and nothing else of the block changes: when
its first byte is missing, and when a later byte is.  That the oracle's answers for the reads made stay used is the model's
choice (log 3). -/
def Obligations.TruncatedOpcodeRaisesEof : Prop :=
  ∀ s : State, s.hostWaits → s.phase = .decPixels → s.run = 0 →
    (s.inLen ≤ s.ip → s.lets 1 →
      step s = .next { s.afterWait.used 1 with phase := .error, err := some .unexpectedEof }) ∧
    (∀ b0 bs, s.inputAt s.ip (b0 :: bs) → s.inLen = s.ip + (b0 :: bs).length → s.inLen < s.ip + opLength b0 →
      s.lets ((b0 :: bs).length + 1) →
      step s = .next { s.afterWait.used ((b0 :: bs).length + 1) with phase := .error, err := some .unexpectedEof })

/-- R233, R237: when the oracle first fails an access of a step, the `j`-th counted from 0, the step raises `IoFailure`.  The clauses
go through the steps: the reads of an op-code (the oracle is asked before `IN_LEN` is looked at, R64), its writes, the writes of a
run repeat, the reads of the header parse step, the `Emit`s of the header emit step, the `PixIn` and the `Emit`s of an encode
pixel step, and the `Emit`s of the tail step.  That the answers up to the failing one stay used is the model's choice (log 3). -/
def Obligations.FailedAccessRaisesIoFailure : Prop :=
  ∀ (s : State) (j : Nat), s.hostWaits → s.lets j → s.oracle[j]? = some .fail →
    let failed : State := { s.afterWait.used (j + 1) with phase := .error, err := some .ioFailure }
    (∀ bs : List Byte, s.phase = .decPixels → s.run = 0 → bs.length = j →
      (match bs with
        | [] => True
        | b0 :: _ => j < opLength b0 ∧ s.inputAt s.ip bs) →
      step s = .next failed) ∧
    (∀ (bs : List Byte) (i : Instr), s.phase = .decPixels → s.run = 0 → s.inputAt s.ip bs → decode bs = .ok (i, []) →
      supportedChannels s.hdrChannels → s.pix < s.npix → j < bs.length + pixelWidth s.hdrChannels →
      step s = .next failed) ∧
    (s.phase = .decPixels → s.run ≠ 0 → supportedChannels s.hdrChannels → s.pix < s.npix → j < pixelWidth s.hdrChannels →
      step s = .next failed) ∧
    (∀ bs : List Byte, s.phase = .decHeader → 4 ≤ s.inLen → j < 14 → bs.length = j → s.inputAt 0 bs →
      (4 ≤ j → bs.take 4 = s.config.magic.bytes) →
      step s = .next failed) ∧
    (s.phase = .encHeader → supportedChannels s.hdrChannels → j < 14 → step s = .next failed) ∧
    (s.phase = .encPixels → j = 0 → step s = .next failed) ∧
    (∀ p : Pixel, s.phase = .encPixels → s.pix < s.npix → s.pixelAt s.pix p →
      let emitted :=
        if p = s.px then (if s.run.toNat = 61 then [0xFD] else []) else pendingRun s.run ++ encode (chooseOp s.cache p s.px)
      j < 1 + emitted.length → step s = .next failed) ∧
    (s.phase = .encTail → j < (pendingRun s.run ++ [0, 0, 0, 0, 0, 0, 0, 1]).length → step s = .next failed)

/-- R233: no step raises `IoFailure` unless the oracle failed an access. -/
def Obligations.IoFailureOnlyFromOracle : Prop :=
  ∀ s t : State, s.err ≠ some .ioFailure → step s = .next t → t.err = some .ioFailure → IoAnswer.fail ∈ s.oracle

/-- R144: with 3 channels no alpha reaches `OUT`: not that of the previous pixel, not those of the cache slots, which INDEX takes,
and not the one an RGBA carries. -/
def Obligations.HiddenAlphaNeverReachesOut : Prop :=
  ∀ (s : State) (a : Byte), s.hdrChannels = 3 →
    (∀ (i : Instr) (t t' : State), exec i s = .next t → exec i { s with px := { s.px with a := a } } = .next t' →
      t'.out = t.out) ∧
    (∀ (c : Vector Pixel 64) (i : Instr) (t t' : State),
      (∀ h : Slot, (cacheRead c h).r = (cacheRead s.cache h).r ∧ (cacheRead c h).g = (cacheRead s.cache h).g ∧
        (cacheRead c h).b = (cacheRead s.cache h).b) →
      exec i s = .next t → exec i { s with cache := c } = .next t' → t'.out = t.out) ∧
    (∀ (r g b x y : Byte) (t t' : State), exec (.rgba r g b x) s = .next t → exec (.rgba r g b y) s = .next t' →
      t'.out = t.out)

/-- R142: bytes of `IN` from the end of the op-code on do not matter.  A decode step that raises nothing does the same when `IN`
is followed by further bytes, whatever they are. -/
def Obligations.TrailingBytesAreIgnored : Prop :=
  ∀ (s t : State) (n : Nat) (m : Memory),
    s.hostWaits → s.phase = .decPixels → step s = .next t → t.phase ≠ .error →
      (∀ k < s.inLen, Memory.read m k = Memory.read s.input k) →
      step { s with inLen := s.inLen + n, input := m } = .next { t with inLen := s.inLen + n, input := m }

/-! ### Header codec -/

/-- R91, R92: `be32` and `be32bytes` undo each other. -/
def Obligations.BigEndianRoundTrip : Prop :=
  (∀ (v : U32) (b0 b1 b2 b3 : Byte), be32bytes v = [b0, b1, b2, b3] → be32 b0 b1 b2 b3 = v) ∧
    (∀ b0 b1 b2 b3 : Byte, be32bytes (be32 b0 b1 b2 b3) = [b0, b1, b2, b3]) ∧
    ∀ b0 b1 b2 b3 : Byte,
      (be32 b0 b1 b2 b3).toNat = b0.toNat * 2 ^ 24 + b1.toNat * 2 ^ 16 + b2.toNat * 2 ^ 8 + b3.toNat

/-- R93, R95: the header parse step on a good header. -/
def Obligations.HeaderParseResult : Prop :=
  ∀ (s : State) (w h : U32) (ch cs : Byte),
    s.hostWaits → s.phase = .decHeader → ch = 3 ∨ ch = 4 →
      s.inputAt 0 (s.config.magic.bytes ++ be32bytes w ++ be32bytes h ++ [ch, cs]) → s.lets 14 →
      ({ s with ip := 14 } : State).cursorsFit = true →
      step s = .next
        { s.afterWait.used 14 with
          hdrWidth := w, hdrHeight := h, hdrChannels := ch, hdrColorspace := cs, ip := 14
          phase := if w.toNat * h.toNat = 0 then .done else .decPixels }

/-- R93, R231, R232, R234, R237: the errors of the header parse step, in their priority, under an oracle that does not fail.  That
the oracle's answers for the reads made stay used is the model's choice (log 3). -/
def Obligations.HeaderParseErrors : Prop :=
  ∀ s : State, s.hostWaits → s.phase = .decHeader →
    (s.inLen < 4 → step s = .next { s.afterWait with phase := .error, err := some .invalidMagic }) ∧
    (∀ m : List Byte, m.length = 4 → s.inputAt 0 m → m ≠ s.config.magic.bytes → s.lets 4 →
      step s = .next { s.afterWait.used 4 with phase := .error, err := some .invalidMagic }) ∧
    (∀ h : List Byte, s.inputAt 0 (s.config.magic.bytes ++ h) → s.inLen = 4 + h.length → h.length < 10 →
      s.lets (s.inLen + 1) →
      step s = .next { s.afterWait.used (s.inLen + 1) with phase := .error, err := some .unexpectedEof }) ∧
    (∀ (h : List Byte) (ch cs : Byte), h.length = 8 → s.inputAt 0 (s.config.magic.bytes ++ h ++ [ch, cs]) →
      ch ≠ 3 → ch ≠ 4 → s.lets 14 →
      step s = .next { s.afterWait.used 14 with phase := .error, err := some .unsupportedChannelCount })

/-- R96, R234: the header emit step: the 14 bytes in order, or `UnsupportedChannelCount` before any byte. -/
def Obligations.HeaderEmitResult : Prop :=
  ∀ s : State, s.hostWaits → s.phase = .encHeader →
    (s.hdrChannels = 3 ∨ s.hdrChannels = 4 → s.lets 14 → ({ s with op := s.op + 14 } : State).cursorsFit = true →
      step s = .next
        { s.afterWait.emitted
            (s.config.magic.bytes ++ be32bytes s.hdrWidth ++ be32bytes s.hdrHeight ++
              [s.hdrChannels, s.hdrColorspace]) with
          phase := if s.hdrWidth.toNat * s.hdrHeight.toNat = 0 then .encTail else .encPixels }) ∧
    (s.hdrChannels ≠ 3 → s.hdrChannels ≠ 4 →
      step s = .next { s.afterWait with phase := .error, err := some .unsupportedChannelCount })

/-- R97: parsing the 14 bytes the header emit step writes for a header gives that header back, for every `MAGIC`. -/
def Obligations.HeaderRoundTrip : Prop :=
  ∀ e : State, e.hostWaits → e.phase = .encHeader → e.hdrChannels = 3 ∨ e.hdrChannels = 4 → e.op = 0 → e.sink = [] →
    e.oracle = [] → e.config.cursorBits = none →
    ∃ t bs, step e = .next t ∧ t.op = 14 ∧ Memory.readRange t.sink 0 14 = some bs ∧
      ∀ d : State, d.hostWaits → d.phase = .decHeader → d.config = e.config → d.oracle = [] → d.ip = 0 →
        d.inLen = 14 → d.input = Memory.ofBytes bs →
        ∃ u, step d = .next u ∧ u.err = d.err ∧ u.hdrWidth = e.hdrWidth ∧ u.hdrHeight = e.hdrHeight ∧
          u.hdrChannels = e.hdrChannels ∧ u.hdrColorspace = e.hdrColorspace

/-! ### Pixel cache -/

/-- R111, R112: the hash; arithmetic of any width of 6 bits or more gives the same hash, so does 8-bit wraparound of each product, and so do the
low 6 bits of each product. -/
def Obligations.HashInAnyWidth : Prop :=
  ∀ p : Pixel,
    (hash p).val = (p.r.toNat * 3 + p.g.toNat * 5 + p.b.toNat * 7 + p.a.toNat * 11) % 64 ∧
    (∀ w : Nat, 6 ≤ w →
      (p.r.setWidth w * BitVec.ofNat w 3 + p.g.setWidth w * BitVec.ofNat w 5 + p.b.setWidth w * BitVec.ofNat w 7 +
        p.a.setWidth w * BitVec.ofNat w 11).toNat % 64 = (hash p).val) ∧
    ((p.r * 3).toNat + (p.g * 5).toNat + (p.b * 7).toNat + (p.a * 11).toNat) % 64 = (hash p).val ∧
    (p.r.toNat * 3 % 64 + p.g.toNat * 5 % 64 + p.b.toNat * 7 % 64 + p.a.toNat * 11 % 64) % 64 = (hash p).val

/-- R115, R116: an engine step that changes a slot is a pixel step, the slot is that of the pixel the step processed, and it
holds that pixel afterwards. -/
def Obligations.CacheWritesOnlyCurrentPixel : Prop :=
  ∀ (s t : State) (h : Slot), s.hostWaits → step s = .next t → cacheRead t.cache h ≠ cacheRead s.cache h →
    (s.phase = .decPixels ∨ s.phase = .encPixels) ∧ h = hash t.px ∧ cacheRead t.cache h = t.px

/-! ### Encode -/

/-- R172, R183, R184: a run pixel.  Below the cap `RUN` grows by 1 and nothing is emitted; at the cap `FD` is emitted and `RUN` is
0 again.  `PX`, which the pixel equals, stays; `PIX`, `IP` and `PHASE` go on. -/
def Obligations.RunPixelResult : Prop :=
  ∀ s : State, s.hostWaits → s.phase = .encPixels → s.pix < s.npix → s.pixelAt s.pix s.px →
    (s.run.toNat < 61 → s.lets 1 → ({ s with pix := s.pix + 1, ip := s.ip + s.channels } : State).cursorsFit = true →
      step s = .next
        { s.afterWait.used 1 with
          run := BitVec.ofNat 6 (s.run.toNat + 1)
          pix := s.pix + 1
          ip := s.ip + s.channels
          phase := if s.pix + 1 = s.npix then .encTail else .encPixels }) ∧
    (s.run.toNat = 61 → s.lets 2 →
      ({ s with pix := s.pix + 1, ip := s.ip + s.channels, op := s.op + 1 } : State).cursorsFit = true →
      step s = .next
        { (s.afterWait.used 1).emitted [0xFD] with
          run := 0
          pix := s.pix + 1
          ip := s.ip + s.channels
          phase := if s.pix + 1 = s.npix then .encTail else .encPixels })

/-- R170, R174, R176, R177, R183, R184: a pixel that is no run pixel.  The pending run is flushed, then the chosen op-code is
emitted, and the pixel is in its slot and in `PX`; `PIX`, `IP` and `PHASE` go on. -/
def Obligations.NewPixelResult : Prop :=
  ∀ (s : State) (p : Pixel), s.hostWaits → s.phase = .encPixels → s.pix < s.npix → s.pixelAt s.pix p → p ≠ s.px →
    let bytes := pendingRun s.run ++ encode (chooseOp s.cache p s.px)
    s.lets (1 + bytes.length) →
      ({ s with pix := s.pix + 1, ip := s.ip + s.channels, op := s.op + bytes.length } : State).cursorsFit = true →
      step s = .next
        { (s.afterWait.used 1).emitted bytes with
          run := 0
          cache := cacheInsert s.cache p
          px := p
          pix := s.pix + 1
          ip := s.ip + s.channels
          phase := if s.pix + 1 = s.npix then .encTail else .encPixels }

/-- R170, R176, R178-R182: the priority of the encoder's choice.  INDEX on a hit, else RGBA if the alpha differs, else DIFF, LUMA
or RGB by the signed 8-bit deltas. -/
def Obligations.OpcodeChoicePriority : Prop :=
  ∀ (c : Vector Pixel 64) (p px : Pixel),
    let dr := (p.r - px.r).toInt
    let dg := (p.g - px.g).toInt
    let db := (p.b - px.b).toInt
    let fits (lo x hi : Int) := lo ≤ x ∧ x ≤ hi
    let diff := fits (-2) dr 1 ∧ fits (-2) dg 1 ∧ fits (-2) db 1
    let luma := fits (-32) dg 31 ∧ fits (-8) (dr - dg) 7 ∧ fits (-8) (db - dg) 7
    let hit := cacheRead c (hash p) = p
    (hit → chooseOp c p px = .index (hash p).val) ∧
      (¬hit → p.a ≠ px.a → chooseOp c p px = .rgba p.r p.g p.b p.a) ∧
      (¬hit → p.a = px.a → diff → chooseOp c p px = .diff dr dg db) ∧
      (¬hit → p.a = px.a → ¬diff → luma → chooseOp c p px = .luma dg (dr - dg) (db - dg)) ∧
      (¬hit → p.a = px.a → ¬diff → ¬luma → chooseOp c p px = .rgb p.r p.g p.b)

/-- R175, R188: every op-code the encoder emits is one the encoding can express, and a RUN is a byte in C0..FD. -/
def Obligations.EmittedOpcodesAreWellFormed : Prop :=
  (∀ (c : Vector Pixel 64) (p px : Pixel), WellFormed (chooseOp c p px)) ∧
    ∀ n : Nat, 1 ≤ n → n ≤ 62 → ∃ b : Byte, encode (.run n) = [b] ∧ 0xC0 ≤ b.toNat ∧ b.toNat ≤ 0xFD ∧
      b.toNat = 0xC0 + (n - 1)

/-- R191 in part: the encoder never emits a DIFF of zeros, a LUMA that would fit DIFF, an RGB that would fit either, an RGBA with the
previous alpha, or an INDEX that is not the pixel's own slot. -/
def Obligations.EncodingsNeverProduced : Prop :=
  ∀ (c : Vector Pixel 64) (p px : Pixel), p ≠ px →
    chooseOp c p px ≠ .diff 0 0 0 ∧
      (∀ dg drDg dbDg, chooseOp c p px = .luma dg drDg dbDg → diffFits (dg + drDg) dg (dg + dbDg) = false) ∧
      (∀ r g b, chooseOp c p px = .rgb r g b →
        ∀ i : Instr, WellFormed i → (∃ dr dg db, i = .diff dr dg db) ∨ (∃ dg drDg dbDg, i = .luma dg drDg dbDg) →
          ∀ s t : State, s.px = px → s.phase = .decPixels → exec i s = .next t → t.phase ≠ .error → t.px ≠ p) ∧
      (∀ r g b a, chooseOp c p px = .rgba r g b a → a ≠ px.a) ∧
      (∀ n, chooseOp c p px = .index n → n = (hash p).val ∧ cacheRead c (hash p) = p)

/-- R119, R189, one pixel: in a decoder with the encoder's `PX` and cache, the op-code the encoder chose for `p` produces `p` and
leaves the cache as the encoder's is afterwards. -/
def Obligations.ChosenOpcodeReproducesPixel : Prop :=
  ∀ (s : State) (p : Pixel), s.pixelReady (chooseOp s.cache p s.px).length →
    ∃ t, exec (chooseOp s.cache p s.px) s = .next t ∧ t.px = p ∧ t.cache = cacheAfter s.cache p ∧ t.run = s.run ∧
      t.ip = s.ip + (encode (chooseOp s.cache p s.px)).length ∧
      Memory.readRange t.out (s.pix * s.channels) (pixelWidth s.hdrChannels) = some (pixelBytes s.hdrChannels p)

/-- R190: a 3-channel encode never emits RGBA. -/
def Obligations.ThreeChannelEncodeNeverRgba : Prop :=
  ∀ (s : State) (p : Pixel), s.Inv → s.phase = .encPixels → s.hdrChannels = 3 → s.pixelAt s.pix p →
    ∀ r g b a, chooseOp s.cache p s.px ≠ .rgba r g b a

/-- R185: the tail step: the pending run, then the end marker, then `DONE`. -/
def Obligations.TailResult : Prop :=
  ∀ s : State, s.hostWaits → s.phase = .encTail →
    let bytes := pendingRun s.run ++ [0, 0, 0, 0, 0, 0, 0, 1]
    s.lets bytes.length → ({ s with op := s.op + bytes.length } : State).cursorsFit = true →
      step s = .next { s.afterWait.emitted bytes with run := 0, phase := .done }

/-- R187: the size of the encoder's output.  A bound of 5 bytes a pixel, the pending run counted, is kept by pixel steps, and
the tail step adds at most the end marker to it. -/
def Obligations.EncoderOutputBound : Prop :=
  ∀ s t : State, s.hostWaits → s.run.toNat ≤ 61 → step s = .next t →
    s.op + (pendingRun s.run).length ≤ 14 + 5 * s.pix →
    (s.phase = .encPixels → t.op + (pendingRun t.run).length ≤ 14 + 5 * t.pix) ∧
      (s.phase = .encTail → t.op ≤ 14 + 5 * t.pix + 8)

/-- The frame of the encoder's steps: the header registers, `IN_LEN`, `IN`, `PIXIN`, `OUT` and the parameters are unchanged, and of
`SINK` only bytes from `OP` up to the new `OP` may change (R56, R67). -/
def Obligations.EncoderStepsFrame : Prop :=
  ∀ s t : State, s.hostWaits → s.phase = .encHeader ∨ s.phase = .encPixels ∨ s.phase = .encTail → step s = .next t →
    t.hdrWidth = s.hdrWidth ∧ t.hdrHeight = s.hdrHeight ∧ t.hdrChannels = s.hdrChannels ∧
      t.hdrColorspace = s.hdrColorspace ∧ t.inLen = s.inLen ∧ t.input = s.input ∧ t.pixin = s.pixin ∧ t.out = s.out ∧
      t.config = s.config ∧ s.op ≤ t.op ∧
      ∀ k, k < s.op ∨ t.op ≤ k → Memory.read t.sink k = Memory.read s.sink k

/-- R173: after `k` consecutive pixels equal to `PX` from `RUN = 0`, exactly `k / 62` bytes FD have been emitted, `RUN` is `k mod 62`,
and `PX` and the cache are what they were. -/
def Obligations.RunCapOverManyPixels : Prop :=
  ∀ (k : Nat) (s : State),
    s.phase = .encPixels → s.host = [] → s.oracle = [] → s.config.cursorBits = none → s.run = 0 →
      s.pix + k ≤ s.npix → (∀ j < k, s.pixelAt (s.pix + j) s.px) →
      ∃ t, core.run k s = .next t ∧ t.run.toNat = k % 62 ∧ t.op = s.op + k / 62 ∧
        Memory.readRange t.sink s.op (k / 62) = some (List.replicate (k / 62) 0xFD) ∧ t.px = s.px ∧ t.cache = s.cache

/-! ### Runs -/

/-- R269: a run ends.  From a state after `START_DECODE` that meets the invariant, the block is quiescent after at least 1 and
at most `NPIX + 1` engine steps; after `START_ENCODE`, at most `NPIX + 2`. -/
def Obligations.EveryRunEnds : Prop :=
  ∀ s : State, s.Inv → s.host = [] → s.config.cursorBits = none →
    (s.phase = .decHeader →
      ∃ k t, core.run k s = .next t ∧ (t.phase = .done ∨ t.phase = .error) ∧ 1 ≤ k ∧ k ≤ t.npix + 1) ∧
    (s.phase = .encHeader →
      ∃ k t, core.run k s = .next t ∧ (t.phase = .done ∨ t.phase = .error) ∧ 1 ≤ k ∧ k ≤ t.npix + 2)

/-- R56, R215: what the host gets.  When a decode run reaches `DONE` the result is the `NPIX × HDR_CHANNELS` bytes of `OUT` with the
header registers; when an encode run does, it is the `OP` bytes of `SINK`, which end in the end marker.  At `ERROR` it is the kind
in `ERR` alone, and in any other phase there is none (R59, R236). -/
def Obligations.ResultsAreWhole : Prop :=
  ∀ s t : State, s.Inv → s.hostWaits → step s = .next t →
    (s.phase = .decHeader ∨ s.phase = .decPixels → t.phase = .done →
      ∃ bytes, decodeResult t = some (.decoded bytes t.hdrWidth t.hdrHeight t.hdrChannels t.hdrColorspace) ∧
        Memory.readRange t.out 0 t.arraySize = some bytes ∧
        bytes.length = t.hdrWidth.toNat * t.hdrHeight.toNat * t.hdrChannels.toNat) ∧
    (s.phase = .encTail → t.phase = .done →
      ∃ bytes, encodeResult t = some (.encoded (bytes ++ [0, 0, 0, 0, 0, 0, 0, 1])) ∧
        Memory.readRange t.sink 0 t.op = some (bytes ++ [0, 0, 0, 0, 0, 0, 0, 1]) ∧ bytes.length + 8 = t.op) ∧
    (t.phase = .error →
      ∃ e, t.err = some e ∧ decodeResult t = some (.failed e) ∧ encodeResult t = some (.failed e)) ∧
    (t.phase ≠ .done → t.phase ≠ .error → decodeResult t = none ∧ encodeResult t = none)

/-- R262: the result of a run does not depend on earlier runs.  Two quiescent blocks with the same parameters, the same coming
oracle answers and the same `START_*` agree after every number of steps, but for the arrays the run does not use.  That these,
`PIXIN` in a decode run and `IN`, `IN_LEN` and `OUT` in an encode run, stay as each block had them is the model's choice
(log 9). -/
def Obligations.RunsAreIndependent : Prop :=
  ∀ (s s' : State) (k : Nat), busy s.phase = false → busy s'.phase = false → s'.config = s.config →
    s'.oracle = s.oracle →
    (∀ bytes, s.host = [.command (.startDecode bytes)] → s'.host = s.host →
      ∀ t, core.run (k + 1) s = .next t → core.run (k + 1) s' = .next { t with pixin := s'.pixin }) ∧
    (∀ w h ch cs pixels, s.host = [.command (.startEncode w h ch cs pixels)] → s'.host = s.host →
      ∀ t, core.run (k + 1) s = .next t →
        core.run (k + 1) s' = .next { t with input := s'.input, inLen := s'.inLen, out := s'.out })

/-- R189, the round trip: for every header with 3 or 4 channels and every `PIXIN` of the right length, the encoder run
completes with a byte stream, and the decoder run on that stream, with the same `MAGIC`, completes with exactly the header
and the pixels that were encoded. -/
def Obligations.DecodeOfEncodeRun : Prop :=
  ∀ (s : State) (w h : U32) (ch cs : Byte) (pixels : List Byte),
    busy s.phase = false → s.oracle = [] → s.config.cursorBits = none →
      s.host = [.command (.startEncode w h ch cs pixels)] →
      ch = 3 ∨ ch = 4 → pixels.length = w.toNat * h.toNat * ch.toNat →
      ∃ t bytes, core.run (w.toNat * h.toNat + 3) s = .next t ∧ encodeResult t = some (.encoded bytes) ∧
        ∀ d : State, busy d.phase = false → d.oracle = [] → d.config = s.config →
          d.host = [.command (.startDecode bytes)] →
          ∃ u, core.run (w.toNat * h.toNat + 2) d = .next u ∧ decodeResult u = some (.decoded pixels w h ch cs)

/-! ### What the host reads -/

/-- R21, R22, R37, R230: what the host reads in each register.  `PHASE` and `ERR` read as the numbers of R21 and R22, every other
register as its value; and in every state that meets the invariant `ERR` reads as other than 0 exactly when `PHASE` reads as 7.
The two numberings are the spec's own decisions, not the source's (D3, D7). -/
def Obligations.HostReadsRegisters : Prop :=
  ∀ s : State,
    (hostRead .phase s = match s.phase with
      | .idle => 0
      | .decHeader => 1
      | .decPixels => 2
      | .encHeader => 3
      | .encPixels => 4
      | .encTail => 5
      | .done => 6
      | .error => 7) ∧
    (hostRead .err s = match s.err with
      | none => 0
      | some .invalidMagic => 1
      | some .unexpectedEof => 2
      | some .ioFailure => 3
      | some .unsupportedChannelCount => 4) ∧
    hostRead .hdrWidth s = s.hdrWidth.toNat ∧ hostRead .hdrHeight s = s.hdrHeight.toNat ∧
    hostRead .hdrChannels s = s.hdrChannels.toNat ∧ hostRead .hdrColorspace s = s.hdrColorspace.toNat ∧
    hostRead .pxR s = s.px.r.toNat ∧ hostRead .pxG s = s.px.g.toNat ∧ hostRead .pxB s = s.px.b.toNat ∧
    hostRead .pxA s = s.px.a.toNat ∧ hostRead .run s = s.run.toNat ∧ hostRead .pix s = s.pix ∧ hostRead .ip s = s.ip ∧
    hostRead .op s = s.op ∧ hostRead .inLen s = s.inLen ∧
    (s.Inv → (hostRead .err s ≠ 0 ↔ hostRead .phase s = 7))
end

