-- ==== Sys2Proof/Laws/Memory.lean ====
section
/-! SUPPORT. The laws of the arrays: read after write, the canonical form, ranges, and arrays made of bytes. -/

namespace Sys2Proof.Machine

@[simp] theorem Memory.read_nil (k : Nat) : Memory.read [] k = none := rfl

theorem Memory.read_cons (a : Nat) (b : Byte) (m : Memory) (k : Nat) :
    Memory.read ((a, b) :: m) k = if a = k then some b else Memory.read m k := rfl

/-- Below the first offset of a canonical array nothing is listed. -/
theorem Memory.read_eq_none_of_lt {m : Memory} {k : Nat} (h : ∀ c ∈ m, k < c.1) : Memory.read m k = none := by
  induction m with
  | nil => rfl
  | cons c m ih =>
    obtain ⟨a, b⟩ := c
    have ha : k < a := h (a, b) (by simp)
    rw [Memory.read_cons, if_neg (by omega), ih fun c hc => h c (by simp [hc])]

theorem Memory.read_write (m : Memory) (k j : Nat) (v : Byte) :
    Memory.read (Memory.write m k v) j = if j = k then some v else Memory.read m j := by
  induction m with
  | nil => simp [Memory.write, Memory.read_cons, eq_comm]
  | cons c m ih =>
    obtain ⟨a, b⟩ := c
    unfold Memory.write
    split_ifs <;> simp only [Memory.read_cons, ih] <;> split_ifs <;> first | rfl | omega

@[simp] theorem Memory.read_write_same (m : Memory) (k : Nat) (v : Byte) :
    Memory.read (Memory.write m k v) k = some v := by
  simp [Memory.read_write]

theorem Memory.read_write_other (m : Memory) {k j : Nat} (v : Byte) (h : j ≠ k) :
    Memory.read (Memory.write m k v) j = Memory.read m j := by
  simp [Memory.read_write, h]

theorem Memory.mem_write_fst {m : Memory} {k : Nat} {v : Byte} {c : Host.Cell} (h : c ∈ Memory.write m k v) :
    c.1 = k ∨ c ∈ m := by
  induction m with
  | nil => simp [Memory.write] at h; simp [h]
  | cons d m ih =>
    obtain ⟨a, b⟩ := d
    unfold Memory.write at h
    split_ifs at h with h1 h2
    · simp only [List.mem_cons] at h ⊢
      rcases h with rfl | h | h <;> simp_all
    · simp only [List.mem_cons] at h ⊢
      rcases h with rfl | h <;> simp_all
    · simp only [List.mem_cons] at h ⊢
      rcases h with rfl | h
      · simp
      · rcases ih h with h | h <;> simp [h]

theorem Memory.write_wf {m : Memory} (h : Memory.wf m) (k : Nat) (v : Byte) : Memory.wf (Memory.write m k v) := by
  induction m with
  | nil => simp [Memory.write, Memory.wf]
  | cons d m ih =>
    obtain ⟨a, b⟩ := d
    have hm := List.pairwise_cons.1 h
    unfold Memory.write
    split_ifs with h1 h2
    · refine List.pairwise_cons.2 ⟨fun c hc => ?_, h⟩
      rcases List.mem_cons.1 hc with rfl | hc
      · exact h1
      · exact lt_trans h1 (hm.1 c hc)
    · exact List.pairwise_cons.2 ⟨hm.1, hm.2⟩
    · refine List.pairwise_cons.2 ⟨fun c hc => ?_, ih hm.2⟩
      rcases Memory.mem_write_fst hc with h3 | h3
      · show a < c.1
        omega
      · exact hm.1 c h3

theorem Memory.writeRange_wf {m : Memory} (h : Memory.wf m) (k : Nat) (vs : List Byte) :
    Memory.wf (Memory.writeRange m k vs) := by
  induction vs generalizing m k with
  | nil => exact h
  | cons v vs ih => exact ih (Memory.write_wf h k v) (k + 1)

/-- A read after a range has been written: the range's byte inside it, and what was there outside it. -/
theorem Memory.read_writeRange (m : Memory) (k : Nat) (vs : List Byte) (j : Nat) :
    Memory.read (Memory.writeRange m k vs) j = if k ≤ j ∧ j < k + vs.length then vs[j - k]? else Memory.read m j := by
  induction vs generalizing m k with
  | nil => simp [Memory.writeRange]
  | cons v vs ih =>
    rw [Memory.writeRange, ih, Memory.read_write]
    by_cases h1 : j = k
    · subst h1; simp
    · by_cases h2 : k ≤ j ∧ j < k + (v :: vs).length
      · have h3 : k + 1 ≤ j ∧ j < k + 1 + vs.length := by simp at h2; omega
        rw [if_pos h3, if_pos h2, show j - k = j - (k + 1) + 1 by omega]
        simp
      · have h3 : ¬(k + 1 ≤ j ∧ j < k + 1 + vs.length) := by simp at h2; omega
        rw [if_neg h3, if_neg h2, if_neg h1]

theorem Memory.read_writeRange_outside (m : Memory) {k : Nat} {vs : List Byte} {j : Nat}
    (h : j < k ∨ k + vs.length ≤ j) : Memory.read (Memory.writeRange m k vs) j = Memory.read m j := by
  rw [Memory.read_writeRange, if_neg (by omega)]

theorem Memory.lists_writeRange (m : Memory) (k : Nat) (vs : List Byte) (j : Nat) :
    Memory.lists (Memory.writeRange m k vs) j ↔ (k ≤ j ∧ j < k + vs.length) ∨ Memory.lists m j := by
  rw [Memory.lists, Memory.read_writeRange]
  split_ifs with h
  · rw [List.getElem?_eq_getElem (by omega)]
    simp [h]
  · simp [h]

theorem Memory.writeRange_append (m : Memory) (k : Nat) (vs ws : List Byte) :
    Memory.writeRange m k (vs ++ ws) = Memory.writeRange (Memory.writeRange m k vs) (k + vs.length) ws := by
  induction vs generalizing m k with
  | nil => rfl
  | cons v vs ih =>
    rw [List.cons_append, Memory.writeRange, ih, Memory.writeRange, List.length_cons,
      show k + 1 + vs.length = k + (vs.length + 1) by omega]

/-- A range is read exactly when each of its bytes is. -/
theorem Memory.readRange_eq_some {m : Memory} {k n : Nat} {bs : List Byte} :
    Memory.readRange m k n = some bs ↔ bs.length = n ∧ ∀ j < n, Memory.read m (k + j) = bs[j]? := by
  induction n generalizing k bs with
  | zero =>
    constructor
    · rintro h
      obtain rfl : [] = bs := by simpa [Memory.readRange] using h
      simp
    · rintro ⟨h, -⟩
      simp [Memory.readRange, List.length_eq_zero_iff.1 h]
  | succ n ih =>
    rw [Memory.readRange]
    constructor
    · intro h
      split at h
      · next b cs hb hcs =>
        obtain rfl : b :: cs = bs := by simpa using h
        obtain ⟨hl, hr⟩ := ih.1 hcs
        refine ⟨by simp [hl], fun j hj => ?_⟩
        cases j with
        | zero => simpa using hb
        | succ j =>
          rw [show k + (j + 1) = k + 1 + j by omega, hr j (by omega)]
          simp
      · simp at h
    · rintro ⟨hl, hr⟩
      cases bs with
      | nil => simp at hl
      | cons b bs =>
        have hb : Memory.read m k = some b := by simpa using hr 0 (by omega)
        have hbs : Memory.readRange m (k + 1) n = some bs :=
          ih.2 ⟨by simpa using hl, fun j hj => by
            rw [show k + 1 + j = k + (j + 1) by omega, hr (j + 1) (by omega)]
            simp⟩
        rw [hb, hbs]

theorem Memory.readRange_of_lists {m : Memory} {k n : Nat} (h : ∀ j < n, Memory.lists m (k + j)) :
    ∃ bs, Memory.readRange m k n = some bs := by
  induction n generalizing k with
  | zero => exact ⟨[], rfl⟩
  | succ n ih =>
    obtain ⟨bs, hbs⟩ := ih (k := k + 1) fun j hj => by
      rw [show k + 1 + j = k + (j + 1) by omega]
      exact h (j + 1) (by omega)
    obtain ⟨b, hb⟩ := Option.isSome_iff_exists.1 (h 0 (by omega))
    exact ⟨b :: bs, by rw [Memory.readRange, show Memory.read m k = some b from hb, hbs]⟩

/-- What is written as a range is read back as one. -/
@[simp] theorem Memory.readRange_writeRange (m : Memory) (k : Nat) (vs : List Byte) :
    Memory.readRange (Memory.writeRange m k vs) k vs.length = some vs :=
  Memory.readRange_eq_some.2 ⟨rfl, fun j hj => by
    rw [Memory.read_writeRange, if_pos (by omega), Nat.add_sub_cancel_left]⟩

/-- A range that ends before another begins is not touched by it. -/
theorem Memory.readRange_writeRange_below (m : Memory) {k n j : Nat} (vs : List Byte) (h : k + n ≤ j) :
    Memory.readRange (Memory.writeRange m j vs) k n = Memory.readRange m k n := by
  induction n generalizing k with
  | zero => rfl
  | succ n ih =>
    rw [Memory.readRange, Memory.readRange, ih (by omega), Memory.read_writeRange_outside m (by omega)]

theorem Memory.readRange_append {m : Memory} {k n n' : Nat} {bs cs : List Byte}
    (h : Memory.readRange m k n = some bs) (h' : Memory.readRange m (k + n) n' = some cs) :
    Memory.readRange m k (n + n') = some (bs ++ cs) := by
  rw [Memory.readRange_eq_some] at *
  refine ⟨by simp [h.1, h'.1], fun j hj => ?_⟩
  by_cases hj' : j < n
  · rw [h.2 j hj', List.getElem?_append_left (by omega)]
  · rw [List.getElem?_append_right (by omega), h.1, ← h'.2 (j - n) (by omega)]
    congr 1
    omega

/-- Reading a list of bytes that falls into two parts reads each part. -/
theorem Memory.readRange_split {m : Memory} {k : Nat} {bs cs : List Byte}
    (h : Memory.readRange m k (bs ++ cs).length = some (bs ++ cs)) :
    Memory.readRange m k bs.length = some bs ∧ Memory.readRange m (k + bs.length) cs.length = some cs := by
  obtain ⟨-, h⟩ := Memory.readRange_eq_some.1 h
  rw [List.length_append] at h
  refine ⟨Memory.readRange_eq_some.2 ⟨rfl, fun j hj => ?_⟩, Memory.readRange_eq_some.2 ⟨rfl, fun j hj => ?_⟩⟩
  · rw [h j (by omega), List.getElem?_append_left hj]
  · rw [Nat.add_assoc, h (bs.length + j) (by omega), List.getElem?_append_right (by omega), Nat.add_sub_cancel_left]

theorem Memory.read_ofBytesFrom (k : Nat) (bs : List Byte) (j : Nat) :
    Memory.read (Memory.ofBytesFrom k bs) j = if k ≤ j then bs[j - k]? else none := by
  induction bs generalizing k with
  | nil => simp [Memory.ofBytesFrom]
  | cons b bs ih =>
    rw [Memory.ofBytesFrom, Memory.read_cons, ih]
    by_cases h1 : k = j
    · subst h1; simp
    · by_cases h2 : k ≤ j
      · rw [if_neg h1, if_pos h2, if_pos (by omega), show j - k = j - (k + 1) + 1 by omega]
        simp
      · rw [if_neg h1, if_neg h2, if_neg (by omega)]

@[simp] theorem Memory.read_ofBytes (bs : List Byte) (j : Nat) : Memory.read (Memory.ofBytes bs) j = bs[j]? := by
  simp [Memory.ofBytes, Memory.read_ofBytesFrom]

theorem Memory.mem_ofBytesFrom {k : Nat} {bs : List Byte} {c : Host.Cell} (h : c ∈ Memory.ofBytesFrom k bs) :
    k ≤ c.1 := by
  induction bs generalizing k with
  | nil => simp [Memory.ofBytesFrom] at h
  | cons b bs ih =>
    rcases List.mem_cons.1 h with rfl | h
    · exact le_refl _
    · have := ih h
      omega

theorem Memory.ofBytesFrom_wf (k : Nat) (bs : List Byte) : Memory.wf (Memory.ofBytesFrom k bs) := by
  induction bs generalizing k with
  | nil => exact List.Pairwise.nil
  | cons b bs ih => exact List.pairwise_cons.2 ⟨fun c hc => Memory.mem_ofBytesFrom hc, ih (k + 1)⟩

theorem Memory.ofBytes_wf (bs : List Byte) : Memory.wf (Memory.ofBytes bs) := Memory.ofBytesFrom_wf 0 bs

theorem Memory.lists_ofBytes {bs : List Byte} {j : Nat} : Memory.lists (Memory.ofBytes bs) j ↔ j < bs.length := by
  simp [Memory.lists]

/-- Canonical arrays that read alike are the same data. -/
theorem Memory.ext_of_wf {m m' : Memory} (h : Memory.wf m) (h' : Memory.wf m')
    (hr : ∀ k, Memory.read m k = Memory.read m' k) : m = m' := by
  induction m generalizing m' with
  | nil =>
    cases m' with
    | nil => rfl
    | cons c m' => obtain ⟨a, b⟩ := c; simpa [Memory.read_cons] using hr a
  | cons c m ih =>
    obtain ⟨a, b⟩ := c
    obtain ⟨hc, hm⟩ := List.pairwise_cons.1 h
    cases m' with
    | nil => simpa [Memory.read_cons] using hr a
    | cons d m' =>
      obtain ⟨a', b'⟩ := d
      obtain ⟨hc', hm'⟩ := List.pairwise_cons.1 h'
      have hle : a = a' := by
        by_contra hne
        rcases Nat.lt_or_gt_of_ne hne with hlt | hlt
        · have := hr a
          rw [Memory.read_cons, if_pos rfl, Memory.read_eq_none_of_lt] at this
          · simp at this
          · intro e he
            rcases List.mem_cons.1 he with rfl | he
            · exact hlt
            · exact lt_trans hlt (hc' e he)
        · have := hr a'
          rw [Memory.read_cons a', if_pos rfl, Memory.read_eq_none_of_lt] at this
          · simp at this
          · intro e he
            rcases List.mem_cons.1 he with rfl | he
            · exact hlt
            · exact lt_trans hlt (hc e he)
      subst hle
      have hb : b = b' := by simpa [Memory.read_cons] using hr a
      subst hb
      congr 1
      refine ih hm hm' fun k => ?_
      by_cases hk : a = k
      · subst hk
        rw [Memory.read_eq_none_of_lt hc, Memory.read_eq_none_of_lt hc']
      · simpa [Memory.read_cons, hk] using hr k

/-- The arrays after reset are in canonical form. -/
theorem State.reset_wf :
    Memory.wf State.reset.input ∧ Memory.wf State.reset.pixin ∧ Memory.wf State.reset.out ∧ Memory.wf State.reset.sink := by
  decide

end Sys2Proof.Machine
end

