-- ==== Sys2Proof/Laws/State.lean ====
section
/-! SUPPORT. One lemma per field per named update of State, true by rfl. -/

namespace Sys2Proof.Machine

/-! ### errorEntry -/

@[simp] theorem errorEntry_phase (e : ErrorKind) (s : State) : (errorEntry e s).phase = .error := rfl
@[simp] theorem errorEntry_err (e : ErrorKind) (s : State) : (errorEntry e s).err = some e := rfl
@[simp] theorem errorEntry_hdrWidth (e : ErrorKind) (s : State) : (errorEntry e s).hdrWidth = s.hdrWidth := rfl
@[simp] theorem errorEntry_hdrHeight (e : ErrorKind) (s : State) : (errorEntry e s).hdrHeight = s.hdrHeight := rfl
@[simp] theorem errorEntry_hdrChannels (e : ErrorKind) (s : State) : (errorEntry e s).hdrChannels = s.hdrChannels := rfl
@[simp] theorem errorEntry_hdrColorspace (e : ErrorKind) (s : State) :
    (errorEntry e s).hdrColorspace = s.hdrColorspace := rfl
@[simp] theorem errorEntry_px (e : ErrorKind) (s : State) : (errorEntry e s).px = s.px := rfl
@[simp] theorem errorEntry_run (e : ErrorKind) (s : State) : (errorEntry e s).run = s.run := rfl
@[simp] theorem errorEntry_pix (e : ErrorKind) (s : State) : (errorEntry e s).pix = s.pix := rfl
@[simp] theorem errorEntry_ip (e : ErrorKind) (s : State) : (errorEntry e s).ip = s.ip := rfl
@[simp] theorem errorEntry_op (e : ErrorKind) (s : State) : (errorEntry e s).op = s.op := rfl
@[simp] theorem errorEntry_inLen (e : ErrorKind) (s : State) : (errorEntry e s).inLen = s.inLen := rfl
@[simp] theorem errorEntry_cache (e : ErrorKind) (s : State) : (errorEntry e s).cache = s.cache := rfl
@[simp] theorem errorEntry_input (e : ErrorKind) (s : State) : (errorEntry e s).input = s.input := rfl
@[simp] theorem errorEntry_pixin (e : ErrorKind) (s : State) : (errorEntry e s).pixin = s.pixin := rfl
@[simp] theorem errorEntry_out (e : ErrorKind) (s : State) : (errorEntry e s).out = s.out := rfl
@[simp] theorem errorEntry_sink (e : ErrorKind) (s : State) : (errorEntry e s).sink = s.sink := rfl
@[simp] theorem errorEntry_config (e : ErrorKind) (s : State) : (errorEntry e s).config = s.config := rfl
@[simp] theorem errorEntry_oracle (e : ErrorKind) (s : State) : (errorEntry e s).oracle = s.oracle := rfl
@[simp] theorem errorEntry_host (e : ErrorKind) (s : State) : (errorEntry e s).host = s.host := rfl
@[simp] theorem errorEntry_npix (e : ErrorKind) (s : State) : (errorEntry e s).npix = s.npix := rfl
@[simp] theorem errorEntry_channels (e : ErrorKind) (s : State) : (errorEntry e s).channels = s.channels := rfl
@[simp] theorem errorEntry_arraySize (e : ErrorKind) (s : State) : (errorEntry e s).arraySize = s.arraySize := rfl

/-! ### perCallInit -/

@[simp] theorem perCallInit_phase (s : State) : (perCallInit s).phase = s.phase := rfl
@[simp] theorem perCallInit_err (s : State) : (perCallInit s).err = none := rfl
@[simp] theorem perCallInit_hdrWidth (s : State) : (perCallInit s).hdrWidth = s.hdrWidth := rfl
@[simp] theorem perCallInit_hdrHeight (s : State) : (perCallInit s).hdrHeight = s.hdrHeight := rfl
@[simp] theorem perCallInit_hdrChannels (s : State) : (perCallInit s).hdrChannels = s.hdrChannels := rfl
@[simp] theorem perCallInit_hdrColorspace (s : State) : (perCallInit s).hdrColorspace = s.hdrColorspace := rfl
@[simp] theorem perCallInit_px (s : State) : (perCallInit s).px = Pixel.start := rfl
@[simp] theorem perCallInit_run (s : State) : (perCallInit s).run = 0 := rfl
@[simp] theorem perCallInit_pix (s : State) : (perCallInit s).pix = 0 := rfl
@[simp] theorem perCallInit_ip (s : State) : (perCallInit s).ip = 0 := rfl
@[simp] theorem perCallInit_op (s : State) : (perCallInit s).op = 0 := rfl
@[simp] theorem perCallInit_inLen (s : State) : (perCallInit s).inLen = s.inLen := rfl
@[simp] theorem perCallInit_cache (s : State) : (perCallInit s).cache = emptyCache := rfl
@[simp] theorem perCallInit_input (s : State) : (perCallInit s).input = s.input := rfl
@[simp] theorem perCallInit_pixin (s : State) : (perCallInit s).pixin = s.pixin := rfl
@[simp] theorem perCallInit_out (s : State) : (perCallInit s).out = s.out := rfl
@[simp] theorem perCallInit_sink (s : State) : (perCallInit s).sink = [] := rfl
@[simp] theorem perCallInit_config (s : State) : (perCallInit s).config = s.config := rfl
@[simp] theorem perCallInit_oracle (s : State) : (perCallInit s).oracle = s.oracle := rfl
@[simp] theorem perCallInit_host (s : State) : (perCallInit s).host = s.host := rfl
@[simp] theorem perCallInit_npix (s : State) : (perCallInit s).npix = s.npix := rfl
@[simp] theorem perCallInit_channels (s : State) : (perCallInit s).channels = s.channels := rfl
@[simp] theorem perCallInit_arraySize (s : State) : (perCallInit s).arraySize = s.arraySize := rfl

/-! ### resetCommand -/

@[simp] theorem resetCommand_phase (s : State) : (resetCommand s).phase = .idle := rfl
@[simp] theorem resetCommand_err (s : State) : (resetCommand s).err = none := rfl
@[simp] theorem resetCommand_hdrWidth (s : State) : (resetCommand s).hdrWidth = 0 := rfl
@[simp] theorem resetCommand_hdrHeight (s : State) : (resetCommand s).hdrHeight = 0 := rfl
@[simp] theorem resetCommand_hdrChannels (s : State) : (resetCommand s).hdrChannels = 0 := rfl
@[simp] theorem resetCommand_hdrColorspace (s : State) : (resetCommand s).hdrColorspace = 0 := rfl
@[simp] theorem resetCommand_px (s : State) : (resetCommand s).px = Pixel.start := rfl
@[simp] theorem resetCommand_run (s : State) : (resetCommand s).run = 0 := rfl
@[simp] theorem resetCommand_pix (s : State) : (resetCommand s).pix = 0 := rfl
@[simp] theorem resetCommand_ip (s : State) : (resetCommand s).ip = 0 := rfl
@[simp] theorem resetCommand_op (s : State) : (resetCommand s).op = 0 := rfl
@[simp] theorem resetCommand_inLen (s : State) : (resetCommand s).inLen = 0 := rfl
@[simp] theorem resetCommand_cache (s : State) : (resetCommand s).cache = emptyCache := rfl
@[simp] theorem resetCommand_input (s : State) : (resetCommand s).input = [] := rfl
@[simp] theorem resetCommand_pixin (s : State) : (resetCommand s).pixin = [] := rfl
@[simp] theorem resetCommand_out (s : State) : (resetCommand s).out = [] := rfl
@[simp] theorem resetCommand_sink (s : State) : (resetCommand s).sink = [] := rfl
@[simp] theorem resetCommand_config (s : State) : (resetCommand s).config = s.config := rfl
@[simp] theorem resetCommand_oracle (s : State) : (resetCommand s).oracle = s.oracle := rfl
@[simp] theorem resetCommand_host (s : State) : (resetCommand s).host = s.host := rfl

/-! ### startDecode -/

@[simp] theorem startDecode_phase (bs : List Byte) (s : State) : (startDecode bs s).phase = .decHeader := rfl
@[simp] theorem startDecode_err (bs : List Byte) (s : State) : (startDecode bs s).err = none := rfl
@[simp] theorem startDecode_hdrWidth (bs : List Byte) (s : State) : (startDecode bs s).hdrWidth = 0 := rfl
@[simp] theorem startDecode_hdrHeight (bs : List Byte) (s : State) : (startDecode bs s).hdrHeight = 0 := rfl
@[simp] theorem startDecode_hdrChannels (bs : List Byte) (s : State) : (startDecode bs s).hdrChannels = 0 := rfl
@[simp] theorem startDecode_hdrColorspace (bs : List Byte) (s : State) : (startDecode bs s).hdrColorspace = 0 := rfl
@[simp] theorem startDecode_px (bs : List Byte) (s : State) : (startDecode bs s).px = Pixel.start := rfl
@[simp] theorem startDecode_run (bs : List Byte) (s : State) : (startDecode bs s).run = 0 := rfl
@[simp] theorem startDecode_pix (bs : List Byte) (s : State) : (startDecode bs s).pix = 0 := rfl
@[simp] theorem startDecode_ip (bs : List Byte) (s : State) : (startDecode bs s).ip = 0 := rfl
@[simp] theorem startDecode_op (bs : List Byte) (s : State) : (startDecode bs s).op = 0 := rfl
@[simp] theorem startDecode_inLen (bs : List Byte) (s : State) : (startDecode bs s).inLen = bs.length := rfl
@[simp] theorem startDecode_cache (bs : List Byte) (s : State) : (startDecode bs s).cache = emptyCache := rfl
@[simp] theorem startDecode_input (bs : List Byte) (s : State) : (startDecode bs s).input = Memory.ofBytes bs := rfl
@[simp] theorem startDecode_pixin (bs : List Byte) (s : State) : (startDecode bs s).pixin = s.pixin := rfl
@[simp] theorem startDecode_out (bs : List Byte) (s : State) : (startDecode bs s).out = [] := rfl
@[simp] theorem startDecode_sink (bs : List Byte) (s : State) : (startDecode bs s).sink = [] := rfl
@[simp] theorem startDecode_config (bs : List Byte) (s : State) : (startDecode bs s).config = s.config := rfl
@[simp] theorem startDecode_oracle (bs : List Byte) (s : State) : (startDecode bs s).oracle = s.oracle := rfl
@[simp] theorem startDecode_host (bs : List Byte) (s : State) : (startDecode bs s).host = s.host := rfl

/-! ### startEncode -/

@[simp] theorem startEncode_phase (w h : U32) (ch cs : Byte) (bs : List Byte) (s : State) :
    (startEncode w h ch cs bs s).phase = .encHeader := rfl
@[simp] theorem startEncode_err (w h : U32) (ch cs : Byte) (bs : List Byte) (s : State) :
    (startEncode w h ch cs bs s).err = none := rfl
@[simp] theorem startEncode_hdrWidth (w h : U32) (ch cs : Byte) (bs : List Byte) (s : State) :
    (startEncode w h ch cs bs s).hdrWidth = w := rfl
@[simp] theorem startEncode_hdrHeight (w h : U32) (ch cs : Byte) (bs : List Byte) (s : State) :
    (startEncode w h ch cs bs s).hdrHeight = h := rfl
@[simp] theorem startEncode_hdrChannels (w h : U32) (ch cs : Byte) (bs : List Byte) (s : State) :
    (startEncode w h ch cs bs s).hdrChannels = ch := rfl
@[simp] theorem startEncode_hdrColorspace (w h : U32) (ch cs : Byte) (bs : List Byte) (s : State) :
    (startEncode w h ch cs bs s).hdrColorspace = cs := rfl
@[simp] theorem startEncode_px (w h : U32) (ch cs : Byte) (bs : List Byte) (s : State) :
    (startEncode w h ch cs bs s).px = Pixel.start := rfl
@[simp] theorem startEncode_run (w h : U32) (ch cs : Byte) (bs : List Byte) (s : State) :
    (startEncode w h ch cs bs s).run = 0 := rfl
@[simp] theorem startEncode_pix (w h : U32) (ch cs : Byte) (bs : List Byte) (s : State) :
    (startEncode w h ch cs bs s).pix = 0 := rfl
@[simp] theorem startEncode_ip (w h : U32) (ch cs : Byte) (bs : List Byte) (s : State) :
    (startEncode w h ch cs bs s).ip = 0 := rfl
@[simp] theorem startEncode_op (w h : U32) (ch cs : Byte) (bs : List Byte) (s : State) :
    (startEncode w h ch cs bs s).op = 0 := rfl
@[simp] theorem startEncode_inLen (w h : U32) (ch cs : Byte) (bs : List Byte) (s : State) :
    (startEncode w h ch cs bs s).inLen = s.inLen := rfl
@[simp] theorem startEncode_cache (w h : U32) (ch cs : Byte) (bs : List Byte) (s : State) :
    (startEncode w h ch cs bs s).cache = emptyCache := rfl
@[simp] theorem startEncode_input (w h : U32) (ch cs : Byte) (bs : List Byte) (s : State) :
    (startEncode w h ch cs bs s).input = s.input := rfl
@[simp] theorem startEncode_pixin (w h : U32) (ch cs : Byte) (bs : List Byte) (s : State) :
    (startEncode w h ch cs bs s).pixin = Memory.ofBytes bs := rfl
@[simp] theorem startEncode_out (w h : U32) (ch cs : Byte) (bs : List Byte) (s : State) :
    (startEncode w h ch cs bs s).out = s.out := rfl
@[simp] theorem startEncode_sink (w h : U32) (ch cs : Byte) (bs : List Byte) (s : State) :
    (startEncode w h ch cs bs s).sink = [] := rfl
@[simp] theorem startEncode_config (w h : U32) (ch cs : Byte) (bs : List Byte) (s : State) :
    (startEncode w h ch cs bs s).config = s.config := rfl
@[simp] theorem startEncode_oracle (w h : U32) (ch cs : Byte) (bs : List Byte) (s : State) :
    (startEncode w h ch cs bs s).oracle = s.oracle := rfl
@[simp] theorem startEncode_host (w h : U32) (ch cs : Byte) (bs : List Byte) (s : State) :
    (startEncode w h ch cs bs s).host = s.host := rfl

/-! ### advanceEncoder -/

@[simp] theorem advanceEncoder_phase (p : Pixel) (s : State) :
    (advanceEncoder p s).phase = if s.pix + 1 = s.npix then .encTail else s.phase := rfl
@[simp] theorem advanceEncoder_err (p : Pixel) (s : State) : (advanceEncoder p s).err = s.err := rfl
@[simp] theorem advanceEncoder_hdrWidth (p : Pixel) (s : State) : (advanceEncoder p s).hdrWidth = s.hdrWidth := rfl
@[simp] theorem advanceEncoder_hdrHeight (p : Pixel) (s : State) : (advanceEncoder p s).hdrHeight = s.hdrHeight := rfl
@[simp] theorem advanceEncoder_hdrChannels (p : Pixel) (s : State) :
    (advanceEncoder p s).hdrChannels = s.hdrChannels := rfl
@[simp] theorem advanceEncoder_hdrColorspace (p : Pixel) (s : State) :
    (advanceEncoder p s).hdrColorspace = s.hdrColorspace := rfl
@[simp] theorem advanceEncoder_px (p : Pixel) (s : State) : (advanceEncoder p s).px = p := rfl
@[simp] theorem advanceEncoder_run (p : Pixel) (s : State) : (advanceEncoder p s).run = s.run := rfl
@[simp] theorem advanceEncoder_pix (p : Pixel) (s : State) : (advanceEncoder p s).pix = s.pix + 1 := rfl
@[simp] theorem advanceEncoder_ip (p : Pixel) (s : State) : (advanceEncoder p s).ip = s.ip + s.channels := rfl
@[simp] theorem advanceEncoder_op (p : Pixel) (s : State) : (advanceEncoder p s).op = s.op := rfl
@[simp] theorem advanceEncoder_inLen (p : Pixel) (s : State) : (advanceEncoder p s).inLen = s.inLen := rfl
@[simp] theorem advanceEncoder_cache (p : Pixel) (s : State) : (advanceEncoder p s).cache = s.cache := rfl
@[simp] theorem advanceEncoder_input (p : Pixel) (s : State) : (advanceEncoder p s).input = s.input := rfl
@[simp] theorem advanceEncoder_pixin (p : Pixel) (s : State) : (advanceEncoder p s).pixin = s.pixin := rfl
@[simp] theorem advanceEncoder_out (p : Pixel) (s : State) : (advanceEncoder p s).out = s.out := rfl
@[simp] theorem advanceEncoder_sink (p : Pixel) (s : State) : (advanceEncoder p s).sink = s.sink := rfl
@[simp] theorem advanceEncoder_config (p : Pixel) (s : State) : (advanceEncoder p s).config = s.config := rfl
@[simp] theorem advanceEncoder_oracle (p : Pixel) (s : State) : (advanceEncoder p s).oracle = s.oracle := rfl
@[simp] theorem advanceEncoder_host (p : Pixel) (s : State) : (advanceEncoder p s).host = s.host := rfl
@[simp] theorem advanceEncoder_npix (p : Pixel) (s : State) : (advanceEncoder p s).npix = s.npix := rfl
@[simp] theorem advanceEncoder_channels (p : Pixel) (s : State) : (advanceEncoder p s).channels = s.channels := rfl
@[simp] theorem advanceEncoder_arraySize (p : Pixel) (s : State) : (advanceEncoder p s).arraySize = s.arraySize := rfl

/-! ### State.pixelDone -/

@[simp] theorem State.pixelDone_phase (p : Pixel) (s : State) :
    (s.pixelDone p).phase = if s.pix + 1 = s.npix then .done else s.phase := rfl
@[simp] theorem State.pixelDone_err (p : Pixel) (s : State) : (s.pixelDone p).err = s.err := rfl
@[simp] theorem State.pixelDone_hdrWidth (p : Pixel) (s : State) : (s.pixelDone p).hdrWidth = s.hdrWidth := rfl
@[simp] theorem State.pixelDone_hdrHeight (p : Pixel) (s : State) : (s.pixelDone p).hdrHeight = s.hdrHeight := rfl
@[simp] theorem State.pixelDone_hdrChannels (p : Pixel) (s : State) : (s.pixelDone p).hdrChannels = s.hdrChannels := rfl
@[simp] theorem State.pixelDone_hdrColorspace (p : Pixel) (s : State) :
    (s.pixelDone p).hdrColorspace = s.hdrColorspace := rfl
@[simp] theorem State.pixelDone_px (p : Pixel) (s : State) : (s.pixelDone p).px = p := rfl
@[simp] theorem State.pixelDone_run (p : Pixel) (s : State) : (s.pixelDone p).run = s.run := rfl
@[simp] theorem State.pixelDone_pix (p : Pixel) (s : State) : (s.pixelDone p).pix = s.pix + 1 := rfl
@[simp] theorem State.pixelDone_ip (p : Pixel) (s : State) : (s.pixelDone p).ip = s.ip := rfl
@[simp] theorem State.pixelDone_op (p : Pixel) (s : State) : (s.pixelDone p).op = (s.pix + 1) * s.channels := rfl
@[simp] theorem State.pixelDone_inLen (p : Pixel) (s : State) : (s.pixelDone p).inLen = s.inLen := rfl
@[simp] theorem State.pixelDone_cache (p : Pixel) (s : State) : (s.pixelDone p).cache = s.cache := rfl
@[simp] theorem State.pixelDone_input (p : Pixel) (s : State) : (s.pixelDone p).input = s.input := rfl
@[simp] theorem State.pixelDone_pixin (p : Pixel) (s : State) : (s.pixelDone p).pixin = s.pixin := rfl
@[simp] theorem State.pixelDone_out (p : Pixel) (s : State) :
    (s.pixelDone p).out = Memory.writeRange s.out (s.pix * s.channels) (pixelBytes s.hdrChannels p) := rfl
@[simp] theorem State.pixelDone_sink (p : Pixel) (s : State) : (s.pixelDone p).sink = s.sink := rfl
@[simp] theorem State.pixelDone_config (p : Pixel) (s : State) : (s.pixelDone p).config = s.config := rfl
@[simp] theorem State.pixelDone_oracle (p : Pixel) (s : State) :
    (s.pixelDone p).oracle = s.oracle.drop (pixelWidth s.hdrChannels) := rfl
@[simp] theorem State.pixelDone_host (p : Pixel) (s : State) : (s.pixelDone p).host = s.host := rfl
@[simp] theorem State.pixelDone_npix (p : Pixel) (s : State) : (s.pixelDone p).npix = s.npix := rfl
@[simp] theorem State.pixelDone_channels (p : Pixel) (s : State) : (s.pixelDone p).channels = s.channels := rfl
@[simp] theorem State.pixelDone_arraySize (p : Pixel) (s : State) : (s.pixelDone p).arraySize = s.arraySize := rfl

/-! ### State.emitted -/

@[simp] theorem State.emitted_phase (bs : List Byte) (s : State) : (s.emitted bs).phase = s.phase := rfl
@[simp] theorem State.emitted_err (bs : List Byte) (s : State) : (s.emitted bs).err = s.err := rfl
@[simp] theorem State.emitted_hdrWidth (bs : List Byte) (s : State) : (s.emitted bs).hdrWidth = s.hdrWidth := rfl
@[simp] theorem State.emitted_hdrHeight (bs : List Byte) (s : State) : (s.emitted bs).hdrHeight = s.hdrHeight := rfl
@[simp] theorem State.emitted_hdrChannels (bs : List Byte) (s : State) :
    (s.emitted bs).hdrChannels = s.hdrChannels := rfl
@[simp] theorem State.emitted_hdrColorspace (bs : List Byte) (s : State) :
    (s.emitted bs).hdrColorspace = s.hdrColorspace := rfl
@[simp] theorem State.emitted_px (bs : List Byte) (s : State) : (s.emitted bs).px = s.px := rfl
@[simp] theorem State.emitted_run (bs : List Byte) (s : State) : (s.emitted bs).run = s.run := rfl
@[simp] theorem State.emitted_pix (bs : List Byte) (s : State) : (s.emitted bs).pix = s.pix := rfl
@[simp] theorem State.emitted_ip (bs : List Byte) (s : State) : (s.emitted bs).ip = s.ip := rfl
@[simp] theorem State.emitted_op (bs : List Byte) (s : State) : (s.emitted bs).op = s.op + bs.length := rfl
@[simp] theorem State.emitted_inLen (bs : List Byte) (s : State) : (s.emitted bs).inLen = s.inLen := rfl
@[simp] theorem State.emitted_cache (bs : List Byte) (s : State) : (s.emitted bs).cache = s.cache := rfl
@[simp] theorem State.emitted_input (bs : List Byte) (s : State) : (s.emitted bs).input = s.input := rfl
@[simp] theorem State.emitted_pixin (bs : List Byte) (s : State) : (s.emitted bs).pixin = s.pixin := rfl
@[simp] theorem State.emitted_out (bs : List Byte) (s : State) : (s.emitted bs).out = s.out := rfl
@[simp] theorem State.emitted_sink (bs : List Byte) (s : State) :
    (s.emitted bs).sink = Memory.writeRange s.sink s.op bs := rfl
@[simp] theorem State.emitted_config (bs : List Byte) (s : State) : (s.emitted bs).config = s.config := rfl
@[simp] theorem State.emitted_oracle (bs : List Byte) (s : State) :
    (s.emitted bs).oracle = s.oracle.drop bs.length := rfl
@[simp] theorem State.emitted_host (bs : List Byte) (s : State) : (s.emitted bs).host = s.host := rfl
@[simp] theorem State.emitted_npix (bs : List Byte) (s : State) : (s.emitted bs).npix = s.npix := rfl
@[simp] theorem State.emitted_channels (bs : List Byte) (s : State) : (s.emitted bs).channels = s.channels := rfl
@[simp] theorem State.emitted_arraySize (bs : List Byte) (s : State) : (s.emitted bs).arraySize = s.arraySize := rfl

/-! ### State.used -/

@[simp] theorem State.used_phase (n : Nat) (s : State) : (s.used n).phase = s.phase := rfl
@[simp] theorem State.used_err (n : Nat) (s : State) : (s.used n).err = s.err := rfl
@[simp] theorem State.used_hdrWidth (n : Nat) (s : State) : (s.used n).hdrWidth = s.hdrWidth := rfl
@[simp] theorem State.used_hdrHeight (n : Nat) (s : State) : (s.used n).hdrHeight = s.hdrHeight := rfl
@[simp] theorem State.used_hdrChannels (n : Nat) (s : State) : (s.used n).hdrChannels = s.hdrChannels := rfl
@[simp] theorem State.used_hdrColorspace (n : Nat) (s : State) : (s.used n).hdrColorspace = s.hdrColorspace := rfl
@[simp] theorem State.used_px (n : Nat) (s : State) : (s.used n).px = s.px := rfl
@[simp] theorem State.used_run (n : Nat) (s : State) : (s.used n).run = s.run := rfl
@[simp] theorem State.used_pix (n : Nat) (s : State) : (s.used n).pix = s.pix := rfl
@[simp] theorem State.used_ip (n : Nat) (s : State) : (s.used n).ip = s.ip := rfl
@[simp] theorem State.used_op (n : Nat) (s : State) : (s.used n).op = s.op := rfl
@[simp] theorem State.used_inLen (n : Nat) (s : State) : (s.used n).inLen = s.inLen := rfl
@[simp] theorem State.used_cache (n : Nat) (s : State) : (s.used n).cache = s.cache := rfl
@[simp] theorem State.used_input (n : Nat) (s : State) : (s.used n).input = s.input := rfl
@[simp] theorem State.used_pixin (n : Nat) (s : State) : (s.used n).pixin = s.pixin := rfl
@[simp] theorem State.used_out (n : Nat) (s : State) : (s.used n).out = s.out := rfl
@[simp] theorem State.used_sink (n : Nat) (s : State) : (s.used n).sink = s.sink := rfl
@[simp] theorem State.used_config (n : Nat) (s : State) : (s.used n).config = s.config := rfl
@[simp] theorem State.used_oracle (n : Nat) (s : State) : (s.used n).oracle = s.oracle.drop n := rfl
@[simp] theorem State.used_host (n : Nat) (s : State) : (s.used n).host = s.host := rfl
@[simp] theorem State.used_npix (n : Nat) (s : State) : (s.used n).npix = s.npix := rfl
@[simp] theorem State.used_channels (n : Nat) (s : State) : (s.used n).channels = s.channels := rfl
@[simp] theorem State.used_arraySize (n : Nat) (s : State) : (s.used n).arraySize = s.arraySize := rfl

/-! ### State.afterWait -/

@[simp] theorem State.afterWait_phase (s : State) : (s.afterWait).phase = s.phase := rfl
@[simp] theorem State.afterWait_err (s : State) : (s.afterWait).err = s.err := rfl
@[simp] theorem State.afterWait_hdrWidth (s : State) : (s.afterWait).hdrWidth = s.hdrWidth := rfl
@[simp] theorem State.afterWait_hdrHeight (s : State) : (s.afterWait).hdrHeight = s.hdrHeight := rfl
@[simp] theorem State.afterWait_hdrChannels (s : State) : (s.afterWait).hdrChannels = s.hdrChannels := rfl
@[simp] theorem State.afterWait_hdrColorspace (s : State) : (s.afterWait).hdrColorspace = s.hdrColorspace := rfl
@[simp] theorem State.afterWait_px (s : State) : (s.afterWait).px = s.px := rfl
@[simp] theorem State.afterWait_run (s : State) : (s.afterWait).run = s.run := rfl
@[simp] theorem State.afterWait_pix (s : State) : (s.afterWait).pix = s.pix := rfl
@[simp] theorem State.afterWait_ip (s : State) : (s.afterWait).ip = s.ip := rfl
@[simp] theorem State.afterWait_op (s : State) : (s.afterWait).op = s.op := rfl
@[simp] theorem State.afterWait_inLen (s : State) : (s.afterWait).inLen = s.inLen := rfl
@[simp] theorem State.afterWait_cache (s : State) : (s.afterWait).cache = s.cache := rfl
@[simp] theorem State.afterWait_input (s : State) : (s.afterWait).input = s.input := rfl
@[simp] theorem State.afterWait_pixin (s : State) : (s.afterWait).pixin = s.pixin := rfl
@[simp] theorem State.afterWait_out (s : State) : (s.afterWait).out = s.out := rfl
@[simp] theorem State.afterWait_sink (s : State) : (s.afterWait).sink = s.sink := rfl
@[simp] theorem State.afterWait_config (s : State) : (s.afterWait).config = s.config := rfl
@[simp] theorem State.afterWait_oracle (s : State) : (s.afterWait).oracle = s.oracle := rfl
@[simp] theorem State.afterWait_host (s : State) : (s.afterWait).host = s.host.tail := rfl
@[simp] theorem State.afterWait_npix (s : State) : (s.afterWait).npix = s.npix := rfl
@[simp] theorem State.afterWait_channels (s : State) : (s.afterWait).channels = s.channels := rfl
@[simp] theorem State.afterWait_arraySize (s : State) : (s.afterWait).arraySize = s.arraySize := rfl

end Sys2Proof.Machine
end

