-- ==== Sys2Proof/Laws/Ops.lean ====
section
/-! SUPPORT. What each shared operation does, said once: when it completes and with which state, and what follows when it
completes, raises or stops. -/

namespace Sys2Proof.Machine

/-! ### Sequencing -/

@[simp] theorem Attempt.andThen_done {α β : Type} (a : α) (s : State) (k : α → State → Attempt β) :
    (Attempt.done a s).andThen k = k a s := rfl

@[simp] theorem Attempt.andThen_raised {α β : Type} (e : ErrorKind) (o : List IoAnswer) (k : α → State → Attempt β) :
    (Attempt.raised e o).andThen k = .raised e o := rfl

@[simp] theorem Attempt.andThen_stopped {α β : Type} (f : Fault) (k : α → State → Attempt β) :
    (Attempt.stopped f).andThen k = .stopped f := rfl

theorem Attempt.andThen_eq_done {α β : Type} {x : Attempt α} {k : α → State → Attempt β} {b : β} {t : State} :
    x.andThen k = .done b t ↔ ∃ a s, x = .done a s ∧ k a s = .done b t := by
  cases x <;> simp

theorem Attempt.andThen_eq_raised {α β : Type} {x : Attempt α} {k : α → State → Attempt β} {e : ErrorKind}
    {o : List IoAnswer} :
    x.andThen k = .raised e o ↔ x = .raised e o ∨ ∃ a s, x = .done a s ∧ k a s = .raised e o := by
  cases x <;> simp

theorem Attempt.andThen_eq_stopped {α β : Type} {x : Attempt α} {k : α → State → Attempt β} {f : Fault} :
    x.andThen k = .stopped f ↔ x = .stopped f ∨ ∃ a s, x = .done a s ∧ k a s = .stopped f := by
  cases x <;> simp

@[simp] theorem Attempt.andThen_andThen {α β γ : Type} (x : Attempt α) (k : α → State → Attempt β)
    (l : β → State → Attempt γ) : (x.andThen k).andThen l = x.andThen fun a s => (k a s).andThen l := by
  cases x <;> rfl

/-! ### The end of a step -/

/-- What a step that ends in a next state was: completed within the cursors' width, or raised and discarded (R235). -/
theorem commit_eq_next {s t : State} {x : Attempt Unit} :
    commit s x = .next t ↔
      (x = .done () t ∧ t.cursorsFit = true) ∨ ∃ e o, x = .raised e o ∧ t = errorEntry e { s with oracle := o } := by
  cases x with
  | done u s' =>
    cases u
    simp only [commit]
    split_ifs with h
    · simp only [Host.Outcome.next.injEq, Attempt.done.injEq, true_and, false_and, exists_false, or_false]
      constructor
      · rintro rfl; exact ⟨rfl, h⟩
      · exact fun h => h.1
    · simp only [Attempt.done.injEq, true_and, false_and, exists_false, or_false, false_iff]
      rintro ⟨rfl, h'⟩
      exact h h'
  | raised e o =>
    simp only [commit, Host.Outcome.next.injEq, reduceCtorEq, false_and, Attempt.raised.injEq, false_or]
    constructor
    · rintro rfl; exact ⟨e, o, ⟨rfl, rfl⟩, rfl⟩
    · rintro ⟨e', o', ⟨rfl, rfl⟩, rfl⟩; rfl
  | stopped f => simp [commit]

@[simp] theorem commit_eq_fault {s : State} {x : Attempt Unit} {f : Fault} :
    commit s x = .fault f ↔ x = .stopped f := by
  cases x with
  | done u s' => simp only [commit]; split_ifs <;> simp
  | raised e o => simp [commit]
  | stopped g => simp [commit]

theorem commit_eq_refused {s : State} {x : Attempt Unit} {r : Refusal} :
    commit s x = .refused r ↔ ∃ t, x = .done () t ∧ t.cursorsFit = false ∧ r = .cursorOverflow := by
  cases x with
  | done u s' =>
    cases u
    simp only [commit]
    split_ifs with h
    · simp only [Attempt.done.injEq, true_and, false_iff, not_exists, not_and]
      rintro t rfl h'
      simp [h] at h'
    · simp only [Host.Outcome.refused.injEq, Attempt.done.injEq, true_and]
      constructor
      · rintro rfl; exact ⟨s', rfl, by simpa using h, rfl⟩
      · rintro ⟨t, rfl, -, rfl⟩; rfl
  | raised e o => simp [commit]
  | stopped g => simp [commit]

/-- Whether the cursors fit depends on the build and on the three cursors alone. -/
theorem State.cursorsFit_congr {s t : State} (hc : t.config = s.config) (hp : t.pix = s.pix) (hi : t.ip = s.ip)
    (ho : t.op = s.op) : t.cursorsFit = s.cursorsFit := by
  simp only [State.cursorsFit, hc, hp, hi, ho]

theorem commit_done {s t : State} (h : t.cursorsFit = true) : commit s (.done () t) = .next t :=
  commit_eq_next.2 (.inl ⟨rfl, h⟩)

@[simp] theorem commit_raised (s : State) (e : ErrorKind) (o : List IoAnswer) :
    commit s (.raised e o) = .next (errorEntry e { s with oracle := o }) := rfl

/-! ### The oracle -/

@[simp] theorem State.lets_zero (s : State) : s.lets 0 := by simp [State.lets]

@[simp] theorem State.used_zero (s : State) : s.used 0 = s := rfl

@[simp] theorem State.used_used (s : State) (m n : Nat) : (s.used m).used n = s.used (m + n) := by
  simp [State.used, List.drop_drop]

theorem State.lets_mono {s : State} {m n : Nat} (h : s.lets n) (hmn : m ≤ n) : s.lets m := fun a ha =>
  h a (by
    rw [← Nat.min_eq_left hmn, ← List.take_take] at ha
    exact List.mem_of_mem_take ha)

/-- The first `m + n` answers are ok exactly when the first `m` are and the `n` after them are. -/
theorem State.lets_add {s : State} {m n : Nat} :
    s.lets (m + n) ↔ s.lets m ∧ (s.used m).lets n := by
  simp only [State.lets, List.take_add, List.mem_append]
  constructor
  · exact fun h => ⟨fun a ha => h a (.inl ha), fun a ha => h a (.inr ha)⟩
  · rintro ⟨h, h'⟩ a (ha | ha)
    · exact h a ha
    · exact h' a ha

theorem askOracle_of_lets {s : State} (h : s.lets 1) :
    askOracle s = .done () (s.used 1) := by
  unfold askOracle
  rcases ho : s.oracle with _ | ⟨a, o⟩
  · obtain ⟨⟩ := s
    subst ho
    rfl
  · have : a = .ok := h a (by simp [ho])
    subst this
    simp [State.used, ho]

theorem askOracle_eq_done {s t : State} {u : Unit} :
    askOracle s = .done u t ↔ s.lets 1 ∧ t = s.used 1 := by
  constructor
  · intro h
    have hl : s.lets 1 := by
      intro a ha
      unfold askOracle at h
      rcases ho : s.oracle with _ | ⟨b, o⟩
      · simp [ho] at ha
      · cases b
        · simpa [ho] using ha
        · simp [ho] at h
    rw [askOracle_of_lets hl] at h
    exact ⟨hl, by simpa using h.symm⟩
  · rintro ⟨hl, rfl⟩
    exact askOracle_of_lets hl

theorem askOracle_eq_raised {s : State} {e : ErrorKind} {o : List IoAnswer} :
    askOracle s = .raised e o ↔ e = .ioFailure ∧ s.oracle = .fail :: o := by
  unfold askOracle
  rcases ho : s.oracle with _ | ⟨_ | _, o'⟩ <;> simp [eq_comm]

/-- When the next answer is a failure, asking raises `IoFailure` (R233). -/
theorem askOracle_of_fail {s : State} (h : s.oracle[0]? = some .fail) :
    askOracle s = .raised .ioFailure (s.oracle.drop 1) := by
  cases ho : s.oracle with
  | nil => simp [ho] at h
  | cons a o => exact askOracle_eq_raised.2 ⟨rfl, by simpa [ho] using h⟩

/-- The answer `m + n` places on is the `n`-th once `m` are used. -/
theorem State.used_oracle_get {s : State} {m n : Nat} : (s.used m).oracle[n]? = s.oracle[m + n]? := by
  simp [State.used]

@[simp] theorem askOracle_ne_stopped (s : State) (f : Fault) : askOracle s ≠ .stopped f := by
  unfold askOracle
  split <;> simp

/-! ### Reading `IN` -/

theorem listed_eq_done {n : ArrayName} {m : Memory} {k : Nat} {s t : State} {b : Byte} :
    listed n m k s = .done b t ↔ Memory.read m k = some b ∧ t = s := by
  unfold listed
  cases Memory.read m k <;> simp [eq_comm]

@[simp] theorem listed_ne_raised (n : ArrayName) (m : Memory) (k : Nat) (s : State) (e : ErrorKind) (o : List IoAnswer) :
    listed n m k s ≠ .raised e o := by
  unfold listed
  cases Memory.read m k <;> simp

theorem listed_eq_stopped {n : ArrayName} {m : Memory} {k : Nat} {s : State} {f : Fault} :
    listed n m k s = .stopped f ↔ Memory.read m k = none ∧ f = .noByteAt n k := by
  unfold listed
  cases Memory.read m k <;> simp [eq_comm]

/-- `InByte` answers a byte exactly when the oracle lets it, the offset is below `IN_LEN` and the byte is there (R64). -/
theorem inByte_eq_done {k : Nat} {s t : State} {b : Byte} :
    inByte k s = .done b t ↔
      s.lets 1 ∧ k < s.inLen ∧ Memory.read s.input k = some b ∧ t = s.used 1 := by
  unfold inByte
  rw [Attempt.andThen_eq_done]
  constructor
  · rintro ⟨u, s', h, h'⟩
    obtain ⟨hl, rfl⟩ := askOracle_eq_done.1 h
    split_ifs at h' with hk
    · simp [raise] at h'
    · obtain ⟨hb, rfl⟩ := listed_eq_done.1 h'
      exact ⟨hl, by simpa using hk, hb, rfl⟩
  · rintro ⟨hl, hk, hb, rfl⟩
    refine ⟨(), s.used 1, askOracle_of_lets hl, ?_⟩
    rw [if_neg (by simpa using hk)]
    exact listed_eq_done.2 ⟨hb, rfl⟩

/-- `InByte` raises `IoFailure` when the oracle fails it, and else `UnexpectedEof` from `IN_LEN` up (R64, R232, R233). -/
theorem inByte_eq_raised {k : Nat} {s : State} {e : ErrorKind} {o : List IoAnswer} :
    inByte k s = .raised e o ↔
      (e = .ioFailure ∧ s.oracle = .fail :: o) ∨
        (e = .unexpectedEof ∧ s.lets 1 ∧ s.inLen ≤ k ∧ o = s.oracle.drop 1) := by
  unfold inByte
  rw [Attempt.andThen_eq_raised, askOracle_eq_raised]
  constructor
  · rintro (h | ⟨u, s', h, h'⟩)
    · exact .inl h
    · obtain ⟨hl, rfl⟩ := askOracle_eq_done.1 h
      split_ifs at h' with hk
      · simp only [raise, Attempt.raised.injEq] at h'
        exact .inr ⟨h'.1.symm, hl, by simpa using hk, h'.2.symm⟩
      · exact absurd h' (listed_ne_raised _ _ _ _ _ _)
  · rintro (h | ⟨rfl, hl, hk, rfl⟩)
    · exact .inl h
    · refine .inr ⟨(), _, askOracle_of_lets hl, ?_⟩
      rw [if_pos (by simpa using hk)]
      rfl

theorem inByte_eq_stopped {k : Nat} {s : State} {f : Fault} (h : inByte k s = .stopped f) :
    k < s.inLen ∧ ¬Memory.lists s.input k ∧ f = .noByteAt .input k := by
  unfold inByte at h
  rw [Attempt.andThen_eq_stopped] at h
  rcases h with h | ⟨u, s', h, h'⟩
  · exact absurd h (askOracle_ne_stopped _ _)
  · obtain ⟨-, rfl⟩ := askOracle_eq_done.1 h
    split_ifs at h' with hk
    · simp [raise] at h'
    · obtain ⟨hn, rfl⟩ := listed_eq_stopped.1 h'
      exact ⟨by simpa using hk, by simpa [Memory.lists] using hn, rfl⟩

theorem inBytes_eq_done {k n : Nat} {s t : State} {bs : List Byte} :
    inBytes k n s = .done bs t ↔
      s.lets n ∧ (n = 0 ∨ k + n ≤ s.inLen) ∧ Memory.readRange s.input k n = some bs ∧
        t = s.used n := by
  induction n generalizing k s t bs with
  | zero =>
    simp [inBytes, Memory.readRange, eq_comm]
  | succ n ih =>
    simp only [inBytes, Attempt.andThen_eq_done, inByte_eq_done, ih, Attempt.done.injEq]
    constructor
    · rintro ⟨b, s1, ⟨hl, hk, hb, rfl⟩, cs, s2, ⟨hl', hk', hcs, rfl⟩, rfl, rfl⟩
      refine ⟨?_, .inr ?_, ?_, ?_⟩
      · rw [Nat.add_comm]
        exact State.lets_add.2 ⟨hl, hl'⟩
      · simp at hk'
        omega
      · rw [Memory.readRange, hb, show Memory.readRange s.input (k + 1) n = some cs from hcs]
      · simp [Nat.add_comm]
    · rintro ⟨hl, hk, hr, rfl⟩
      rw [Memory.readRange] at hr
      split at hr
      · next b cs hb hcs =>
        rw [Nat.add_comm] at hl
        obtain ⟨hl1, hl2⟩ := State.lets_add.1 hl
        refine ⟨b, _, ⟨hl1, by omega, hb, rfl⟩, cs, _, ⟨hl2, .inr (by simp; omega), hcs, rfl⟩, by simpa using hr, ?_⟩
        simp [Nat.add_comm]
      · simp at hr

/-- Reading bytes raises `IoFailure` or `UnexpectedEof`, the latter only where the bytes do not all fit (R232). -/
theorem inBytes_eq_raised {k n : Nat} {s : State} {e : ErrorKind} {o : List IoAnswer}
    (h : inBytes k n s = .raised e o) : e = .ioFailure ∨ (e = .unexpectedEof ∧ s.inLen < k + n) := by
  induction n generalizing k s with
  | zero => simp [inBytes] at h
  | succ n ih =>
    rw [inBytes, Attempt.andThen_eq_raised] at h
    rcases h with h | ⟨b, s1, h, h'⟩
    · rcases inByte_eq_raised.1 h with h | h
      · exact .inl h.1
      · exact .inr ⟨h.1, by omega⟩
    · obtain ⟨-, -, -, rfl⟩ := inByte_eq_done.1 h
      rw [Attempt.andThen_eq_raised] at h'
      rcases h' with h' | ⟨bs, s2, -, h'⟩
      · rcases ih h' with h | h
        · exact .inl h
        · exact .inr ⟨h.1, by simpa [Nat.add_assoc, Nat.add_comm 1 n] using h.2⟩
      · simp at h'

/-- When the oracle first fails the read of index `j`, reading bytes raises `IoFailure`; only the `j` bytes before it matter
(R64, R233). -/
theorem inBytes_of_fail {k n j : Nat} {s : State} {bs : List Byte} (hr : Memory.readRange s.input k j = some bs)
    (hk : j = 0 ∨ k + j ≤ s.inLen) (hj : j < n) (hl : s.lets j) (hf : s.oracle[j]? = some .fail) :
    inBytes k n s = .raised .ioFailure (s.oracle.drop (j + 1)) := by
  induction n generalizing k s bs j with
  | zero => omega
  | succ n ih =>
    rw [inBytes]
    cases j with
    | zero => rw [inByte, askOracle_of_fail hf, Attempt.andThen_raised, Attempt.andThen_raised]
    | succ j =>
      rw [Nat.add_comm] at hl
      obtain ⟨hl1, hl2⟩ := State.lets_add.1 hl
      rw [Memory.readRange] at hr
      split at hr
      · next b cs hb hcs =>
        rw [inByte_eq_done.2 ⟨hl1, by omega, hb, rfl⟩, Attempt.andThen_done,
          ih (s := s.used 1) hcs (by simp; omega) (by omega) hl2 (by rw [State.used_oracle_get, Nat.add_comm]; exact hf)]
        simp [State.used, Nat.add_comm, Nat.add_left_comm]
      · simp at hr

/-- Reading bytes stops only at an offset below `IN_LEN` where `IN` lists no byte. -/
theorem inBytes_eq_stopped {k n : Nat} {s : State} {f : Fault} (h : inBytes k n s = .stopped f) :
    ∃ j < s.inLen, ¬Memory.lists s.input j ∧ f = .noByteAt .input j := by
  induction n generalizing k s with
  | zero => simp [inBytes] at h
  | succ n ih =>
    rw [inBytes, Attempt.andThen_eq_stopped] at h
    rcases h with h | ⟨b, s1, h1, h⟩
    · obtain ⟨hk, hn, rfl⟩ := inByte_eq_stopped h
      exact ⟨k, hk, hn, rfl⟩
    · obtain ⟨-, -, -, rfl⟩ := inByte_eq_done.1 h1
      rw [Attempt.andThen_eq_stopped] at h
      rcases h with h | ⟨bs, s2, -, h⟩
      · exact ih (s := s.used 1) h
      · simp at h

theorem inBytes_ne_stopped {k n : Nat} {s : State} (h : ∀ j < s.inLen, Memory.lists s.input j) (f : Fault) :
    inBytes k n s ≠ .stopped f := by
  intro h'
  obtain ⟨j, hj, hn, -⟩ := inBytes_eq_stopped h'
  exact hn (h j hj)

/-! ### Writing `OUT` -/

/-- `s` with bytes written to `OUT` and the answers for them used. -/
def State.outWritten (s : State) (k : Nat) (vs : List Byte) : State :=
  { s with out := Memory.writeRange s.out k vs, oracle := s.oracle.drop vs.length }

theorem State.outWritten_outWritten (s : State) (k : Nat) (vs ws : List Byte) :
    (s.outWritten k vs).outWritten (k + vs.length) ws = s.outWritten k (vs ++ ws) := by
  simp [State.outWritten, Memory.writeRange_append, List.drop_drop]

theorem outWrite_eq_done {k : Nat} {v : Byte} {s t : State} {u : Unit} :
    outWrite k v s = .done u t ↔
      s.lets 1 ∧ k < s.arraySize ∧ t = s.outWritten k [v] := by
  unfold outWrite
  rw [Attempt.andThen_eq_done]
  constructor
  · rintro ⟨u, s', h, h'⟩
    obtain ⟨hl, rfl⟩ := askOracle_eq_done.1 h
    split_ifs at h' with hk
    exact ⟨hl, hk, by cases h'; rfl⟩
  · rintro ⟨hl, hk, rfl⟩
    refine ⟨(), s.used 1, askOracle_of_lets hl, ?_⟩
    rw [if_pos (by exact hk)]
    rfl

theorem outWrites_eq_done {k : Nat} {vs : List Byte} {s t : State} {u : Unit} :
    outWrites k vs s = .done u t ↔
      s.lets vs.length ∧ (vs = [] ∨ k + vs.length ≤ s.arraySize) ∧ t = s.outWritten k vs := by
  induction vs generalizing k s t with
  | nil =>
    rw [show s.outWritten k [] = s from rfl]
    simp [outWrites, eq_comm]
  | cons v vs ih =>
    have hcat : (s.outWritten k [v]).outWritten (k + 1) vs = s.outWritten k (v :: vs) :=
      State.outWritten_outWritten s k [v] vs
    simp only [outWrites, Attempt.andThen_eq_done, outWrite_eq_done, ih, List.length_cons]
    constructor
    · rintro ⟨-, s1, ⟨hl, hk, rfl⟩, hl', hk', rfl⟩
      refine ⟨?_, .inr ?_, hcat⟩
      · rw [Nat.add_comm]
        exact State.lets_add.2 ⟨hl, hl'⟩
      · rcases hk' with rfl | hk'
        · simpa using hk
        · have : k + 1 + vs.length ≤ s.arraySize := hk'
          omega
    · rintro ⟨hl, hk, rfl⟩
      rw [Nat.add_comm] at hl
      obtain ⟨hl1, hl2⟩ := State.lets_add.1 hl
      have hk : k + vs.length + 1 ≤ s.arraySize := by simpa [Nat.add_assoc] using hk
      refine ⟨(), s.outWritten k [v], ⟨hl1, by omega, rfl⟩, hl2, .inr ?_, hcat.symm⟩
      show k + 1 + vs.length ≤ s.arraySize
      omega

theorem outWrites_eq_raised {k : Nat} {vs : List Byte} {s : State} {e : ErrorKind} {o : List IoAnswer}
    (h : outWrites k vs s = .raised e o) : e = .ioFailure := by
  induction vs generalizing k s with
  | nil => simp [outWrites] at h
  | cons v vs ih =>
    rw [outWrites, Attempt.andThen_eq_raised] at h
    rcases h with h | ⟨-, s1, -, h⟩
    · unfold outWrite at h
      rw [Attempt.andThen_eq_raised, askOracle_eq_raised] at h
      rcases h with h | ⟨-, s1, -, h⟩
      · exact h.1
      · split_ifs at h
    · exact ih h

/-- When the oracle first fails the write of index `j`, writing bytes raises `IoFailure` (R66, R233). -/
theorem outWrites_of_fail {k j : Nat} {vs : List Byte} {s : State} (hk : k + vs.length ≤ s.arraySize)
    (hj : j < vs.length) (hl : s.lets j) (hf : s.oracle[j]? = some .fail) :
    outWrites k vs s = .raised .ioFailure (s.oracle.drop (j + 1)) := by
  induction vs generalizing k s j with
  | nil => simp at hj
  | cons v vs ih =>
    rw [List.length_cons] at hk hj
    rw [outWrites]
    cases j with
    | zero => rw [outWrite, askOracle_of_fail hf, Attempt.andThen_raised, Attempt.andThen_raised]
    | succ j =>
      rw [Nat.add_comm] at hl
      obtain ⟨hl1, hl2⟩ := State.lets_add.1 hl
      have hf' : (s.outWritten k [v]).oracle[j]? = some .fail := by simpa [State.outWritten, Nat.add_comm] using hf
      rw [outWrite_eq_done (u := ()).2 ⟨hl1, by omega, rfl⟩, Attempt.andThen_done,
        ih (s := s.outWritten k [v]) (by show k + 1 + vs.length ≤ s.arraySize; omega) (by omega) hl2 hf']
      simp [State.outWritten, Nat.add_comm, Nat.add_left_comm]

theorem outWrites_ne_stopped {k : Nat} {vs : List Byte} {s : State} (h : k + vs.length ≤ s.arraySize) (f : Fault) :
    outWrites k vs s ≠ .stopped f := by
  induction vs generalizing k s with
  | nil => simp [outWrites]
  | cons v vs ih =>
    rw [List.length_cons] at h
    rw [outWrites, Ne, Attempt.andThen_eq_stopped]
    rintro (h' | ⟨u, s1, h1, h'⟩)
    · unfold outWrite at h'
      rw [Attempt.andThen_eq_stopped] at h'
      rcases h' with h' | ⟨u, s1, h1, h'⟩
      · exact askOracle_ne_stopped _ _ h'
      · obtain ⟨-, rfl⟩ := askOracle_eq_done.1 h1
        rw [if_pos (by show k < s.arraySize; omega)] at h'
        simp at h'
    · obtain ⟨-, -, rfl⟩ := outWrite_eq_done.1 h1
      exact ih (s := s.outWritten k [v])
        (by show k + 1 + vs.length ≤ s.arraySize; omega) h'

/-! ### Appending to `SINK` -/

theorem State.emitted_emitted (s : State) (vs ws : List Byte) :
    (s.emitted vs).emitted ws = s.emitted (vs ++ ws) := by
  simp [State.emitted, Memory.writeRange_append, Nat.add_assoc, List.drop_drop]

theorem emit_eq_done {v : Byte} {s t : State} {u : Unit} : emit v s = .done u t ↔ s.lets 1 ∧ t = s.emitted [v] := by
  unfold emit
  simp only [Attempt.andThen_eq_done, askOracle_eq_done]
  constructor
  · rintro ⟨-, s1, ⟨hl, rfl⟩, h⟩
    exact ⟨hl, by simpa [State.used, State.emitted, Memory.writeRange] using h.symm⟩
  · rintro ⟨hl, rfl⟩
    exact ⟨(), s.used 1, ⟨hl, rfl⟩, rfl⟩

theorem emits_eq_done {vs : List Byte} {s t : State} {u : Unit} :
    emits vs s = .done u t ↔ s.lets vs.length ∧ t = s.emitted vs := by
  induction vs generalizing s t with
  | nil =>
    rw [show s.emitted [] = s from rfl]
    simp [emits, eq_comm]
  | cons v vs ih =>
    have hcat : (s.emitted [v]).emitted vs = s.emitted (v :: vs) := State.emitted_emitted s [v] vs
    simp only [emits, Attempt.andThen_eq_done, emit_eq_done, ih, List.length_cons]
    constructor
    · rintro ⟨-, s1, ⟨hl, rfl⟩, hl', rfl⟩
      refine ⟨?_, hcat⟩
      rw [Nat.add_comm]
      exact State.lets_add.2 ⟨hl, hl'⟩
    · rintro ⟨hl, rfl⟩
      rw [Nat.add_comm] at hl
      obtain ⟨hl1, hl2⟩ := State.lets_add.1 hl
      exact ⟨(), s.emitted [v], ⟨hl1, rfl⟩, hl2, hcat.symm⟩

theorem emits_eq_raised {vs : List Byte} {s : State} {e : ErrorKind} {o : List IoAnswer}
    (h : emits vs s = .raised e o) : e = .ioFailure := by
  induction vs generalizing s with
  | nil => simp [emits] at h
  | cons v vs ih =>
    simp only [emits, emit, Attempt.andThen_andThen, Attempt.andThen_done, Attempt.andThen_eq_raised,
      askOracle_eq_raised] at h
    rcases h with h | ⟨-, s1, -, h⟩
    · exact h.1
    · exact ih h

/-- When the oracle first fails the `Emit` of index `j`, emitting bytes raises `IoFailure` (R67, R233). -/
theorem emits_of_fail {j : Nat} {vs : List Byte} {s : State} (hj : j < vs.length) (hl : s.lets j)
    (hf : s.oracle[j]? = some .fail) : emits vs s = .raised .ioFailure (s.oracle.drop (j + 1)) := by
  induction vs generalizing s j with
  | nil => simp at hj
  | cons v vs ih =>
    rw [List.length_cons] at hj
    rw [emits]
    cases j with
    | zero => rw [emit, askOracle_of_fail hf, Attempt.andThen_raised, Attempt.andThen_raised]
    | succ j =>
      rw [Nat.add_comm] at hl
      obtain ⟨hl1, hl2⟩ := State.lets_add.1 hl
      have hf' : (s.emitted [v]).oracle[j]? = some .fail := by simpa [State.emitted, Nat.add_comm] using hf
      rw [emit_eq_done (u := ()).2 ⟨hl1, rfl⟩, Attempt.andThen_done, ih (s := s.emitted [v]) (by omega) hl2 hf']
      simp [State.emitted, Nat.add_comm, Nat.add_left_comm]

@[simp] theorem emits_ne_stopped (vs : List Byte) (s : State) (f : Fault) : emits vs s ≠ .stopped f := by
  induction vs generalizing s with
  | nil => simp [emits]
  | cons v vs ih =>
    simp only [emits, emit, Attempt.andThen_andThen, Attempt.andThen_done, Ne, Attempt.andThen_eq_stopped]
    rintro (h | ⟨u, s1, -, h⟩)
    · exact askOracle_ne_stopped _ _ h
    · exact ih _ h

/-! ### The cache -/

@[simp] theorem cacheRead_emptyCache (h : Slot) : cacheRead emptyCache h = Pixel.zero := by
  simp [cacheRead, emptyCache, Vector.get_eq_getElem]

theorem cacheRead_cacheInsert (c : Vector Pixel 64) (p : Pixel) (h : Slot) :
    cacheRead (cacheInsert c p) h = if h = hash p then p else cacheRead c h := by
  simp only [cacheRead, cacheInsert, Vector.get_eq_getElem, Vector.getElem_set, Fin.ext_iff, eq_comm]

theorem cache_ext {c c' : Vector Pixel 64} (h : ∀ i, cacheRead c i = cacheRead c' i) : c = c' := by
  refine Vector.ext fun i hi => ?_
  simpa [cacheRead, Vector.get_eq_getElem] using h ⟨i, hi⟩

/-- Inserting the pixel a slot already holds changes nothing (R115). -/
theorem cacheInsert_of_hit {c : Vector Pixel 64} {p : Pixel} (h : cacheRead c (hash p) = p) : cacheInsert c p = c :=
  cache_ext fun i => by
    rw [cacheRead_cacheInsert]
    split_ifs with hi
    · rw [hi, h]
    · rfl

/-- The insert of R177, on hit and miss alike. -/
theorem cacheAfter_eq_cacheInsert (c : Vector Pixel 64) (p : Pixel) : cacheAfter c p = cacheInsert c p := by
  unfold cacheAfter cacheHit
  by_cases h : cacheRead c (hash p) = p
  · simp [h, cacheInsert_of_hit h]
  · simp [h]

/-! ### Producing a pixel -/

@[simp] theorem pixelBytes_length (c : Byte) (p : Pixel) : (pixelBytes c p).length = pixelWidth c := by
  unfold pixelBytes pixelWidth
  split_ifs <;> rfl

theorem pixelWidth_of_supported {s : State} (h : supportedChannels s.hdrChannels) :
    pixelWidth s.hdrChannels = s.channels := by
  rcases h with h | h <;> simp [pixelWidth, State.channels, h]

theorem pixelBytes_ne_nil (c : Byte) (p : Pixel) : pixelBytes c p ≠ [] := by
  unfold pixelBytes
  split_ifs <;> simp

theorem producePixel_eq_done {p : Pixel} {s t : State} {u : Unit} :
    producePixel p s = .done u t ↔
      s.lets (pixelWidth s.hdrChannels) ∧ s.pix * s.channels + pixelWidth s.hdrChannels ≤ s.arraySize ∧
        t = s.pixelDone p := by
  simp only [producePixel, emitPixel, Attempt.andThen_andThen, Attempt.andThen_eq_done, outWrites_eq_done,
    Attempt.andThen_done, pixelBytes_ne_nil, false_or, pixelBytes_length]
  constructor
  · rintro ⟨-, s1, ⟨hl, hk, rfl⟩, h⟩
    refine ⟨hl, hk, ?_⟩
    cases h
    simp only [State.outWritten, State.pixelDone, pixelBytes_length]
    rfl
  · rintro ⟨hl, hk, rfl⟩
    refine ⟨(), _, ⟨hl, hk, rfl⟩, ?_⟩
    simp only [State.outWritten, State.pixelDone, pixelBytes_length]
    rfl

theorem producePixel_eq_raised {p : Pixel} {s : State} {e : ErrorKind} {o : List IoAnswer}
    (h : producePixel p s = .raised e o) : e = .ioFailure := by
  simp only [producePixel, emitPixel, Attempt.andThen_andThen, Attempt.andThen_done, Attempt.andThen_eq_raised,
    reduceCtorEq, and_false, exists_false, or_false] at h
  exact outWrites_eq_raised h

/-- A pixel's bytes lie inside `OUT` when a pixel is left and the channel count is supported. -/
theorem pixel_fits {s : State} (hc : supportedChannels s.hdrChannels) (hp : s.pix < s.npix) :
    s.pix * s.channels + pixelWidth s.hdrChannels ≤ s.arraySize := by
  rw [pixelWidth_of_supported hc, State.arraySize, ← Nat.succ_mul]
  exact Nat.mul_le_mul_right _ hp

theorem producePixel_ne_stopped {p : Pixel} {s : State} (hc : supportedChannels s.hdrChannels) (hp : s.pix < s.npix)
    (f : Fault) : producePixel p s ≠ .stopped f := by
  simp only [producePixel, emitPixel, Attempt.andThen_andThen, Attempt.andThen_done, Ne, Attempt.andThen_eq_stopped,
    reduceCtorEq, and_false, exists_false, or_false]
  exact outWrites_ne_stopped (s := { s with px := p }) (by rw [pixelBytes_length]; exact pixel_fits hc hp) f

end Sys2Proof.Machine
end

