-- ==== Sys2Proof/Laws/Fetch.lean ====
section
/-! SUPPORT. What the fetch does: it reads the whole op-code at `IP`, and the decoder never rejects it (R78). -/

namespace Sys2Proof

/-- The length of the op-codes of a tag (R70). -/
def Tag.length : Tag → Nat
  | .index => 1
  | .diff => 1
  | .luma => 2
  | .run => 1
  | .rgb => 4
  | .rgba => 5

theorem opLength_eq : ∀ b0 : Byte, opLength b0 = (tagOf b0).length := by decide

theorem opLength_pos (b0 : Byte) : 0 < opLength b0 := by
  rw [opLength_eq]
  cases tagOf b0 <;> simp [Tag.length]

/-- An op-code that is there whole decodes, and its length is that of its first byte (R78, R79). -/
theorem decode_of_length {b0 : Byte} {cs : List Byte} (h : cs.length = opLength b0 - 1) :
    ∃ i, decode (b0 :: cs) = .ok (i, []) ∧ i.length = opLength b0 := by
  rw [opLength_eq] at h ⊢
  unfold decode
  cases ht : tagOf b0 <;> simp only [ht, Tag.length] at h ⊢
  case luma =>
    obtain ⟨b1, rfl⟩ := List.length_eq_one_iff.1 h
    exact ⟨_, rfl, rfl⟩
  case rgb =>
    obtain ⟨r, g, b, rfl⟩ := List.length_eq_three.1 h
    exact ⟨_, rfl, rfl⟩
  case rgba =>
    match cs, h with
    | [r, g, b, a], _ => exact ⟨_, rfl, rfl⟩
  all_goals
    obtain rfl := List.length_eq_zero_iff.1 h
    exact ⟨_, rfl, rfl⟩

namespace Machine

theorem fetchBytes_eq_done {s t : State} {bs : List Byte} :
    fetchBytes s = .done bs t ↔
      ∃ b0 cs, bs = b0 :: cs ∧ cs.length = opLength b0 - 1 ∧ s.lets (opLength b0) ∧ s.inputAt s.ip bs ∧
        t = s.used (opLength b0) := by
  simp only [fetchBytes, Attempt.andThen_eq_done, inByte_eq_done, inBytes_eq_done]
  constructor
  · rintro ⟨b0, s1, ⟨hl, hk, hb, rfl⟩, cs, s2, ⟨hl', hk', hcs, rfl⟩, h⟩
    have hp := opLength_pos b0
    obtain ⟨rfl, rfl⟩ : b0 :: cs = bs ∧ ((s.used 1).used (opLength b0 - 1)) = t := by simpa using h
    have hlen : cs.length = opLength b0 - 1 := (Memory.readRange_eq_some.1 hcs).1
    have e : 1 + (opLength b0 - 1) = opLength b0 := by omega
    refine ⟨b0, cs, rfl, hlen, ?_, ⟨?_, ?_⟩, ?_⟩
    · rw [← e]
      exact State.lets_add.2 ⟨hl, hl'⟩
    · simp only [List.length_cons, hlen]
      simp only [State.used_ip, State.used_inLen] at hk'
      omega
    · rw [List.length_cons, hlen, Memory.readRange, hb, show Memory.readRange s.input (s.ip + 1) _ = some cs from hcs]
    · rw [State.used_used, e]
  · rintro ⟨b0, cs, rfl, hlen, hl, ⟨hk, hr⟩, rfl⟩
    have hp := opLength_pos b0
    have e : opLength b0 = 1 + (opLength b0 - 1) := by omega
    rw [e] at hl
    obtain ⟨hl1, hl2⟩ := State.lets_add.1 hl
    rw [List.length_cons, hlen] at hk hr
    rw [Memory.readRange] at hr
    split at hr
    · next b ds hb hds =>
      obtain ⟨rfl, rfl⟩ : b = b0 ∧ ds = cs := by simpa using hr
      refine ⟨b, s.used 1, ⟨hl1, by omega, hb, rfl⟩, ds, _, ⟨hl2, ?_, hds, rfl⟩, ?_⟩
      · simp only [State.used_ip, State.used_inLen]
        omega
      · rw [State.used_used, ← e]
    · simp at hr

/-- The fetch answers an op-code only by reading it whole at `IP` (R130). -/
theorem fetch_eq_done {s t : State} {i : Instr} :
    fetch s = .done i t ↔
      ∃ bs, s.inputAt s.ip bs ∧ bs.length = i.length ∧ decode bs = .ok (i, []) ∧ s.lets i.length ∧
        t = s.used i.length := by
  simp only [fetch, Attempt.andThen_eq_done, fetchBytes_eq_done]
  constructor
  · rintro ⟨bs, s1, ⟨b0, cs, rfl, hlen, hl, hi, rfl⟩, h⟩
    obtain ⟨j, hj, hjl⟩ := decode_of_length hlen
    obtain ⟨rfl, rfl⟩ : j = i ∧ s.used (opLength b0) = t := by simpa [decoded, hj] using h
    have hp := opLength_pos b0
    refine ⟨b0 :: cs, hi, ?_, hj, hjl ▸ hl, by rw [hjl]⟩
    rw [List.length_cons, hlen, hjl]
    omega
  · rintro ⟨bs, hi, hlen, hd, hl, rfl⟩
    cases bs with
    | nil => simp [decode] at hd
    | cons b0 cs =>
      have hb : cs.length = opLength b0 - 1 ∧ i.length = opLength b0 := by
        rw [List.length_cons] at hlen
        have h1 := opLength_eq b0
        unfold decode at hd
        cases ht : tagOf b0 <;> simp only [ht, Tag.length] at hd h1
        case index => cases hd; simp_all [decodeIndex, Instr.length]
        case diff => cases hd; simp_all [decodeDiff, Instr.length]
        case run => cases hd; simp_all [decodeRun, Instr.length]
        case luma =>
          split at hd
          · cases hd; simp_all [decodeLuma, Instr.length]
          · cases hd
        case rgb =>
          split at hd
          · cases hd; simp_all [Instr.length]
          · cases hd
        case rgba =>
          split at hd
          · cases hd; simp_all [Instr.length]
          · cases hd
      refine ⟨b0 :: cs, s.used (opLength b0), ⟨b0, cs, rfl, hb.1, hb.2 ▸ hl, hi, rfl⟩, ?_⟩
      simp [decoded, hd, hb.2]

/-- The decoder never rejects what the fetch has read (R78). -/
theorem fetch_ne_undecodable (s : State) (r : DecodeReject) : fetch s ≠ .stopped (.undecodable r) := by
  intro h
  rw [fetch, Attempt.andThen_eq_stopped] at h
  rcases h with h | ⟨bs, t, h, h'⟩
  · rw [fetchBytes, Attempt.andThen_eq_stopped] at h
    rcases h with h | ⟨b, u, -, h⟩
    · obtain ⟨-, -, h⟩ := inByte_eq_stopped h
      simp at h
    · rw [Attempt.andThen_eq_stopped] at h
      rcases h with h | ⟨_, _, -, h⟩
      · obtain ⟨j, -, -, h⟩ := inBytes_eq_stopped h
        simp at h
      · simp at h
  · obtain ⟨b0, cs, rfl, hlen, -⟩ := fetchBytes_eq_done.1 h
    obtain ⟨i, hi, -⟩ := decode_of_length hlen
    simp [decoded, hi] at h'

end Machine

end Sys2Proof
end

