-- ==== Sys2Proof/Laws/Steps.lean ====
section
/-! SUPPORT. What each step can do, said once: the completed case with its state, or the raised case.  Later proofs cite these
instead of unfolding a step. -/

namespace Sys2Proof.Machine

/-! ### The oracle's answers a raised step has used -/

/-- `e` was raised in `s` with the answers `o` left: some of the answers are used, and `IoFailure` comes from a failed one. -/
def State.raises (s : State) (e : ErrorKind) (o : List IoAnswer) : Prop :=
  (∃ n, o = s.oracle.drop n) ∧ (e = .ioFailure → IoAnswer.fail ∈ s.oracle)

theorem State.raises_of_used {s : State} {n : Nat} {e : ErrorKind} {o : List IoAnswer} (h : (s.used n).raises e o) :
    s.raises e o := by
  obtain ⟨⟨m, rfl⟩, h⟩ := h
  exact ⟨⟨n + m, by simp [State.used, List.drop_drop]⟩, fun he => List.mem_of_mem_drop (h he)⟩

theorem State.raises_of_oracle {s s' : State} (n : Nat) (hs : s'.oracle = s.oracle.drop n) {e : ErrorKind}
    {o : List IoAnswer} (h : s'.raises e o) : s.raises e o :=
  State.raises_of_used (n := n) (by simpa [State.raises, hs] using h)

theorem raises_of_askOracle {s : State} {e : ErrorKind} {o : List IoAnswer} (h : askOracle s = .raised e o) :
    s.raises e o := by
  obtain ⟨rfl, ho⟩ := askOracle_eq_raised.1 h
  exact ⟨⟨1, by simp [ho]⟩, fun _ => by simp [ho]⟩

theorem raises_of_inByte {k : Nat} {s : State} {e : ErrorKind} {o : List IoAnswer} (h : inByte k s = .raised e o) :
    s.raises e o := by
  rcases inByte_eq_raised.1 h with ⟨rfl, ho⟩ | ⟨rfl, -, -, rfl⟩
  · exact ⟨⟨1, by simp [ho]⟩, fun _ => by simp [ho]⟩
  · exact ⟨⟨1, rfl⟩, fun h => by simp at h⟩

theorem raises_of_inBytes {k n : Nat} {s : State} {e : ErrorKind} {o : List IoAnswer}
    (h : inBytes k n s = .raised e o) : s.raises e o := by
  induction n generalizing k s with
  | zero => simp [inBytes] at h
  | succ n ih =>
    rw [inBytes, Attempt.andThen_eq_raised] at h
    rcases h with h | ⟨b, s1, h1, h⟩
    · exact raises_of_inByte h
    · obtain ⟨-, -, -, rfl⟩ := inByte_eq_done.1 h1
      rw [Attempt.andThen_eq_raised] at h
      rcases h with h | ⟨bs, s2, -, h⟩
      · exact State.raises_of_used (ih h)
      · simp at h

theorem raises_of_outWrites {k : Nat} {vs : List Byte} {s : State} {e : ErrorKind} {o : List IoAnswer}
    (h : outWrites k vs s = .raised e o) : s.raises e o := by
  induction vs generalizing k s with
  | nil => simp [outWrites] at h
  | cons v vs ih =>
    rw [outWrites, Attempt.andThen_eq_raised] at h
    rcases h with h | ⟨u, s1, h1, h⟩
    · rw [outWrite, Attempt.andThen_eq_raised] at h
      rcases h with h | ⟨u, s1, -, h⟩
      · exact raises_of_askOracle h
      · split_ifs at h
    · obtain ⟨-, -, rfl⟩ := outWrite_eq_done.1 h1
      exact State.raises_of_oracle 1 rfl (ih h)

theorem raises_of_emits {vs : List Byte} {s : State} {e : ErrorKind} {o : List IoAnswer}
    (h : emits vs s = .raised e o) : s.raises e o := by
  induction vs generalizing s with
  | nil => simp [emits] at h
  | cons v vs ih =>
    rw [emits, Attempt.andThen_eq_raised] at h
    rcases h with h | ⟨u, s1, h1, h⟩
    · rw [emit, Attempt.andThen_eq_raised] at h
      rcases h with h | ⟨u, s1, -, h⟩
      · exact raises_of_askOracle h
      · simp at h
    · obtain ⟨-, rfl⟩ := emit_eq_done.1 h1
      exact State.raises_of_oracle 1 rfl (ih h)

theorem raises_of_producePixel {p : Pixel} {s : State} {e : ErrorKind} {o : List IoAnswer}
    (h : producePixel p s = .raised e o) : e = .ioFailure ∧ s.raises e o := by
  refine ⟨producePixel_eq_raised h, ?_⟩
  simp only [producePixel, emitPixel, Attempt.andThen_andThen, Attempt.andThen_done, Attempt.andThen_eq_raised,
    reduceCtorEq, and_false, exists_false, or_false] at h
  exact State.raises_of_oracle (s' := { s with px := p }) 0 rfl (raises_of_outWrites h)

/-! ### The host and the engine -/

@[simp] theorem State.afterWait_of_nil {s : State} (h : s.host = []) : s.afterWait = s := by
  obtain ⟨⟩ := s
  subst h
  rfl

/-- When the host waits, a step is an engine step. -/
theorem step_of_waits {s : State} (h : s.hostWaits) : step s = engineStep s.afterWait := by
  unfold step machineStep
  rcases h with h | ⟨rest, h⟩
  · simp [h]
  · simp [h, State.afterWait]

/-! ### Op-codes -/

/-- The pixel an op-code produces. -/
def opPixel (i : Instr) (s : State) : Pixel :=
  match i with
  | .index i => indexPixel s i
  | .diff dr dg db => diffPixel s.px dr dg db
  | .luma dg drDg dbDg => lumaPixel s.px dg drDg dbDg
  | .run _ => s.px
  | .rgb r g b => rgbPixel s.px r g b
  | .rgba r g b a => rgbaPixel r g b a

/-- What an op-code writes besides its pixel: `IP`, and the cache or `RUN`. -/
def opState (i : Instr) (s : State) : State :=
  match i with
  | .index _ => { s with ip := s.ip + 1 }
  | .run n => { s with run := runRepeats n, ip := s.ip + 1 }
  | .diff _ _ _ => { s with cache := cacheInsert s.cache (opPixel i s), ip := s.ip + 1 }
  | .luma _ _ _ => { s with cache := cacheInsert s.cache (opPixel i s), ip := s.ip + 2 }
  | .rgb _ _ _ => { s with cache := cacheInsert s.cache (opPixel i s), ip := s.ip + 4 }
  | .rgba _ _ _ _ => { s with cache := cacheInsert s.cache (opPixel i s), ip := s.ip + 5 }

theorem exec_eq (i : Instr) (s : State) : exec i s = commit s (producePixel (opPixel i s) (opState i s)) := by
  cases i <;> rfl

/-- What an op-code writes besides its pixel, in one form. -/
theorem opState_eq (i : Instr) (s : State) :
    ∃ c r, opState i s = { s with cache := c, run := r, ip := s.ip + i.length } ∧
      (c = s.cache ∨ c = cacheInsert s.cache (opPixel i s)) := by
  cases i
  all_goals first
    | exact ⟨s.cache, s.run, rfl, .inl rfl⟩
    | exact ⟨s.cache, _, rfl, .inl rfl⟩
    | exact ⟨_, s.run, rfl, .inr rfl⟩

/-- An op-code that ends in a next state has completed, or an output write has failed (R130, R139, R235). -/
theorem exec_eq_next {i : Instr} {s t : State} (h : exec i s = .next t) :
    (s.lets (pixelWidth s.hdrChannels) ∧ s.pix * s.channels + pixelWidth s.hdrChannels ≤ s.arraySize ∧
        t = (opState i s).pixelDone (opPixel i s) ∧ t.cursorsFit = true) ∨
      ∃ o, s.raises .ioFailure o ∧ t = errorEntry .ioFailure { s with oracle := o } := by
  rw [exec_eq, commit_eq_next] at h
  obtain ⟨c, r, hs, -⟩ := opState_eq i s
  rcases h with ⟨h, hf⟩ | ⟨e, o, h, rfl⟩
  · obtain ⟨hl, hk, rfl⟩ := producePixel_eq_done.1 h
    rw [hs] at hl hk
    exact .inl ⟨hl, hk, rfl, hf⟩
  · obtain ⟨rfl, h⟩ := raises_of_producePixel h
    rw [hs] at h
    exact .inr ⟨o, h, rfl⟩

/-- When an op-code completes, and in which state. -/
theorem exec_of_ready {i : Instr} {s : State} (h : s.pixelReady i.length) :
    exec i s = .next ((opState i s).pixelDone (opPixel i s)) := by
  obtain ⟨hc, hp, hl, hf⟩ := h
  obtain ⟨c, r, hs, -⟩ := opState_eq i s
  rw [exec_eq, commit_eq_next]
  refine .inl ⟨producePixel_eq_done.2 ⟨?_, ?_, rfl⟩, ?_⟩
  · rw [hs]; exact hl
  · rw [hs]; exact pixel_fits hc hp
  · rw [hs]; exact hf

/-- When the oracle first fails the write of index `j` of a produced pixel, producing it raises `IoFailure` (R139, R233). -/
theorem producePixel_of_fail {p : Pixel} {j : Nat} {s : State} (hc : supportedChannels s.hdrChannels) (hp : s.pix < s.npix)
    (hj : j < pixelWidth s.hdrChannels) (hl : s.lets j) (hf : s.oracle[j]? = some .fail) :
    producePixel p s = .raised .ioFailure (s.oracle.drop (j + 1)) := by
  have hk : s.pix * s.channels + (pixelBytes s.hdrChannels p).length ≤ s.arraySize := by
    rw [pixelBytes_length]
    exact pixel_fits hc hp
  have hw : outWrites (s.pix * s.channels) (pixelBytes s.hdrChannels p) { s with px := p } = .raised .ioFailure _ :=
    outWrites_of_fail (s := { s with px := p }) hk (by rw [pixelBytes_length]; exact hj) hl hf
  exact congrArg (fun x => (Attempt.andThen x _).andThen _) hw

theorem exec_ne_fault {i : Instr} {s : State} (hc : supportedChannels s.hdrChannels) (hp : s.pix < s.npix) (f : Fault) :
    exec i s ≠ .fault f := by
  rw [exec_eq, Ne, commit_eq_fault]
  obtain ⟨c, r, hs, -⟩ := opState_eq i s
  rw [hs]
  exact producePixel_ne_stopped (s := { s with cache := c, run := r, ip := s.ip + i.length }) hc hp f

/-! ### Decode pixel steps -/

/-- What a fetch that raised an error was. -/
theorem fetch_eq_raised {s : State} {e : ErrorKind} {o : List IoAnswer} (h : fetch s = .raised e o) :
    (e = .ioFailure ∨ e = .unexpectedEof) ∧ s.raises e o := by
  rw [fetch, Attempt.andThen_eq_raised] at h
  rcases h with h | ⟨bs, t, -, h⟩
  · rw [fetchBytes, Attempt.andThen_eq_raised] at h
    rcases h with h | ⟨b, t, h1, h⟩
    · refine ⟨?_, raises_of_inByte h⟩
      rcases inByte_eq_raised.1 h with h | h
      · exact .inl h.1
      · exact .inr h.1
    · obtain ⟨-, -, -, rfl⟩ := inByte_eq_done.1 h1
      rw [Attempt.andThen_eq_raised] at h
      rcases h with h | ⟨_, _, -, h⟩
      · refine ⟨?_, State.raises_of_used (raises_of_inBytes h)⟩
        rcases inBytes_eq_raised h with h | h
        · exact .inl h
        · exact .inr h.1
      · simp at h
  · unfold decoded at h
    split at h <;> simp at h

theorem fetch_ne_stopped {s : State} (h : ∀ j < s.inLen, Memory.lists s.input j) (f : Fault) : fetch s ≠ .stopped f := by
  intro hf
  have hu := fetch_ne_undecodable s
  rw [fetch, Attempt.andThen_eq_stopped] at hf
  rcases hf with hf | ⟨bs, t, h1, h2⟩
  · rw [fetchBytes, Attempt.andThen_eq_stopped] at hf
    rcases hf with hf | ⟨b, t, h1, hf⟩
    · obtain ⟨hk, hn, -⟩ := inByte_eq_stopped hf
      exact hn (h _ hk)
    · obtain ⟨-, -, -, rfl⟩ := inByte_eq_done.1 h1
      rw [Attempt.andThen_eq_stopped] at hf
      rcases hf with hf | ⟨_, _, -, hf⟩
      · exact inBytes_ne_stopped (s := s.used 1) h f hf
      · simp at hf
  · unfold decoded at h2
    split at h2
    · simp at h2
    · next r hr =>
      refine hu r ?_
      rw [fetch, h1, Attempt.andThen_done, decoded, hr]

/-- What a decode pixel step that ends in a next state was (R130): a completed repeat, a completed op-code, or an error. -/
theorem decodePixel_eq_next {s t : State} (h : decodePixel s = .next t) :
    (s.run ≠ 0 ∧ s.lets (pixelWidth s.hdrChannels) ∧
        s.pix * s.channels + pixelWidth s.hdrChannels ≤ s.arraySize ∧
        t = ({ s with run := s.run - 1 } : State).pixelDone s.px ∧ t.cursorsFit = true) ∨
      (s.run = 0 ∧ ∃ bs i, s.inputAt s.ip bs ∧ bs.length = i.length ∧ decode bs = .ok (i, []) ∧ s.lets i.length ∧
        (s.used i.length).lets (pixelWidth s.hdrChannels) ∧
        s.pix * s.channels + pixelWidth s.hdrChannels ≤ s.arraySize ∧
        t = (opState i (s.used i.length)).pixelDone (opPixel i (s.used i.length)) ∧ t.cursorsFit = true) ∨
      ∃ e o, (e = .ioFailure ∨ (e = .unexpectedEof ∧ s.run = 0)) ∧ s.raises e o ∧
        t = errorEntry e { s with oracle := o } := by
  unfold decodePixel at h
  split_ifs at h with hr
  · unfold fetchAndExec at h
    split at h
    · next i s' hf =>
      obtain ⟨bs, hi, hlen, hd, hl, rfl⟩ := fetch_eq_done.1 hf
      rcases exec_eq_next h with ⟨hl', hk, rfl, hfit⟩ | ⟨o, ho, rfl⟩
      · exact .inr (.inl ⟨hr, bs, i, hi, hlen, hd, hl, hl', hk, rfl, hfit⟩)
      · exact .inr (.inr ⟨_, o, .inl rfl, State.raises_of_used ho, rfl⟩)
    · next e o hf =>
      obtain ⟨he, ho⟩ := fetch_eq_raised hf
      obtain rfl : errorEntry e { s with oracle := o } = t := by simpa using h
      exact .inr (.inr ⟨e, o, he.imp id fun h => ⟨h, hr⟩, ho, rfl⟩)
    · simp at h
  · rcases commit_eq_next.1 h with ⟨h1, hf⟩ | ⟨e, o, h1, rfl⟩
    · obtain ⟨hl, hk, rfl⟩ := producePixel_eq_done.1 h1
      exact .inl ⟨hr, hl, hk, rfl, hf⟩
    · obtain ⟨rfl, ho⟩ := raises_of_producePixel h1
      exact .inr (.inr ⟨_, o, .inl rfl, ho, rfl⟩)

/-- With the input whole, a supported channel count and a pixel left, a decode pixel step does not stop. -/
theorem decodePixel_ne_fault {s : State} (hi : ∀ j < s.inLen, Memory.lists s.input j)
    (hc : supportedChannels s.hdrChannels) (hp : s.pix < s.npix) (f : Fault) : decodePixel s ≠ .fault f := by
  unfold decodePixel
  split_ifs
  · unfold fetchAndExec
    split
    · next i s' hf =>
      obtain ⟨bs, -, -, -, -, rfl⟩ := fetch_eq_done.1 hf
      exact exec_ne_fault (s := s.used i.length) hc hp f
    · simp
    · next g hf => exact absurd hf (fetch_ne_stopped hi g)
  · rw [runRepeat, Ne, commit_eq_fault]
    exact producePixel_ne_stopped (s := { s with run := s.run - 1 }) hc hp f

/-! ### Header steps -/

theorem Magic.bytes_length (m : Magic) : m.bytes.length = 4 := rfl

@[simp] theorem be32bytes_length (v : U32) : (be32bytes v).length = 4 := rfl

@[simp] theorem headerOf_length (s : State) : (headerOf s).length = 14 := rfl

theorem latchHeader_eq_done {h : List Byte} {s t : State} {u : Unit} :
    latchHeader h s = .done u t ↔
      supportedChannels (headerByte h 12) ∧
        t = { s with
          hdrWidth := be32 (headerByte h 4) (headerByte h 5) (headerByte h 6) (headerByte h 7)
          hdrHeight := be32 (headerByte h 8) (headerByte h 9) (headerByte h 10) (headerByte h 11)
          hdrChannels := headerByte h 12
          hdrColorspace := headerByte h 13
          ip := 14
          phase :=
            if (be32 (headerByte h 4) (headerByte h 5) (headerByte h 6) (headerByte h 7)).toNat *
                (be32 (headerByte h 8) (headerByte h 9) (headerByte h 10) (headerByte h 11)).toNat = 0 then .done
            else .decPixels } := by
  unfold latchHeader
  simp only
  by_cases hc : supportedChannels (headerByte h 12)
  · rw [if_pos hc]
    simp only [Attempt.done.injEq, hc, true_and]
    exact eq_comm
  · rw [if_neg hc]
    simp only [raise, reduceCtorEq, hc, false_and]

/-- What a header parse step that ends in a next state was (R93): a latched header, or an error. -/
theorem headerParse_eq_next {s t : State} (h : headerParse s = .next t) :
    (∃ bs, s.lets 14 ∧ s.inputAt 0 (s.config.magic.bytes ++ bs) ∧ bs.length = 10 ∧
        latchHeader bs (s.used 14) = .done () t ∧ t.cursorsFit = true) ∨
      ∃ e o, s.raises e o ∧ t = errorEntry e { s with oracle := o } := by
  replace h := commit_eq_next.1 h
  rcases h with ⟨h, hf⟩ | ⟨e, o, h, rfl⟩
  · left
    split_ifs at h with h4
    · simp [raise] at h
    · obtain ⟨m, s1, h1, h⟩ := Attempt.andThen_eq_done.1 h
      obtain ⟨hl, hk, hm, rfl⟩ := inBytes_eq_done.1 h1
      split_ifs at h with hmag
      · subst hmag
        obtain ⟨bs, s2, h2, h⟩ := Attempt.andThen_eq_done.1 h
        obtain ⟨hl', hk', hbs, rfl⟩ := inBytes_eq_done.1 h2
        rw [State.used_used] at h
        simp only [State.used_inLen, State.used_input, State.used_config] at hk' hbs hm
        have hlen : bs.length = 10 := (Memory.readRange_eq_some.1 hbs).1
        refine ⟨bs, State.lets_add.2 ⟨hl, hl'⟩, ⟨?_, ?_⟩, hlen, h, hf⟩
        · rw [List.length_append, hlen, Magic.bytes_length]
          omega
        · rw [List.length_append, hlen, Magic.bytes_length]
          exact Memory.readRange_append hm (by simpa using hbs)
      · simp [raise] at h
  · right
    refine ⟨e, o, ?_, rfl⟩
    split_ifs at h with h4
    · simp only [raise, Attempt.raised.injEq] at h
      exact ⟨⟨0, by simp [← h.2]⟩, fun he => by simp [← h.1] at he⟩
    · rcases Attempt.andThen_eq_raised.1 h with h | ⟨m, s1, h1, h⟩
      · exact raises_of_inBytes h
      · obtain ⟨-, -, -, rfl⟩ := inBytes_eq_done.1 h1
        refine State.raises_of_used (n := 4) ?_
        split_ifs at h with hmag
        · rcases Attempt.andThen_eq_raised.1 h with h | ⟨bs, s2, h2, h⟩
          · exact raises_of_inBytes h
          · obtain ⟨-, -, -, rfl⟩ := inBytes_eq_done.1 h2
            refine State.raises_of_used (n := 10) ?_
            unfold latchHeader at h
            simp only at h
            split_ifs at h
            simp only [raise, Attempt.raised.injEq] at h
            exact ⟨⟨0, by simp [← h.2]⟩, fun he => by simp [← h.1] at he⟩
        · simp only [raise, Attempt.raised.injEq] at h
          exact ⟨⟨0, by simp [← h.2]⟩, fun he => by simp [← h.1] at he⟩

/-- A header parse step that reads 14 bytes with the right `MAGIC` ends in the channel check and the latch (R93). -/
theorem headerParse_of_inputAt {s : State} {bs : List Byte} (hlen : bs.length = 10)
    (hi : s.inputAt 0 (s.config.magic.bytes ++ bs)) (hl : s.lets 14) :
    headerParse s = commit s (latchHeader bs (s.used 14)) := by
  obtain ⟨hk, hr⟩ := hi
  obtain ⟨hm, hb⟩ := Memory.readRange_split hr
  rw [List.length_append, hlen, Magic.bytes_length] at hk
  rw [Magic.bytes_length, hlen] at hb
  obtain ⟨hl1, hl2⟩ := State.lets_add (m := 4) (n := 10).1 hl
  rw [headerParse, if_neg (by omega), inBytes_eq_done.2 ⟨hl1, .inr (by omega), hm, rfl⟩, Attempt.andThen_done,
    if_pos (by rfl), inBytes_eq_done.2 ⟨hl2, .inr (by simp; omega), by simpa using hb, rfl⟩, Attempt.andThen_done,
    State.used_used]

theorem headerParse_ne_fault {s : State} (hi : ∀ j < s.inLen, Memory.lists s.input j) (f : Fault) :
    headerParse s ≠ .fault f := by
  rw [headerParse, Ne, commit_eq_fault]
  intro h
  split_ifs at h
  · simp [raise] at h
  · rcases Attempt.andThen_eq_stopped.1 h with h | ⟨m, s1, h1, h⟩
    · exact inBytes_ne_stopped hi f h
    · obtain ⟨-, -, -, rfl⟩ := inBytes_eq_done.1 h1
      split_ifs at h
      · rcases Attempt.andThen_eq_stopped.1 h with h | ⟨bs, s2, -, h⟩
        · exact inBytes_ne_stopped (s := s.used 4) hi f h
        · unfold latchHeader at h
          simp only at h
          split_ifs at h
          simp [raise] at h
      · simp [raise] at h

/-- What a header emit step that ends in a next state was (R96): the 14 bytes, or an error. -/
theorem headerEmit_eq_next {s t : State} (h : headerEmit s = .next t) :
    (supportedChannels s.hdrChannels ∧ s.lets 14 ∧
        t = { s.emitted (headerOf s) with phase := if s.npix = 0 then .encTail else .encPixels } ∧
        t.cursorsFit = true) ∨
      ∃ e o, (e = .ioFailure ∨ e = .unsupportedChannelCount) ∧ s.raises e o ∧
        t = errorEntry e { s with oracle := o } := by
  replace h := commit_eq_next.1 h
  rcases h with ⟨h, hf⟩ | ⟨e, o, h, rfl⟩
  · left
    split_ifs at h with hc
    · obtain ⟨u, s1, h1, h⟩ := Attempt.andThen_eq_done.1 h
      obtain ⟨hl, rfl⟩ := emits_eq_done.1 h1
      cases h
      exact ⟨hc, hl, rfl, hf⟩
    · simp [raise] at h
  · right
    split_ifs at h with hc
    · rcases Attempt.andThen_eq_raised.1 h with h | ⟨u, s1, -, h⟩
      · exact ⟨e, o, .inl (emits_eq_raised h), raises_of_emits h, rfl⟩
      · simp at h
    · simp only [raise, Attempt.raised.injEq] at h
      exact ⟨e, o, .inr h.1.symm, ⟨⟨0, by simp [← h.2]⟩, fun he => by simp [← h.1] at he⟩, rfl⟩

/-- When a header emit step completes. -/
theorem headerEmit_of_lets {s : State} (hc : supportedChannels s.hdrChannels) (hl : s.lets 14)
    (hf : ({ s with op := s.op + 14 } : State).cursorsFit = true) :
    headerEmit s = .next { s.emitted (headerOf s) with phase := if s.npix = 0 then .encTail else .encPixels } := by
  rw [headerEmit, if_pos hc, emits_eq_done (u := ()).2 ⟨hl, rfl⟩, Attempt.andThen_done]
  exact commit_done hf

theorem headerEmit_ne_fault (s : State) (f : Fault) : headerEmit s ≠ .fault f := by
  rw [headerEmit, Ne, commit_eq_fault]
  intro h
  split_ifs at h
  · rcases Attempt.andThen_eq_stopped.1 h with h | ⟨u, s1, -, h⟩
    · exact emits_ne_stopped _ _ _ h
    · simp at h
  · simp [raise] at h

/-! ### Encode steps -/

theorem pixIn_eq_done {i : Nat} {s t : State} {p : Pixel} :
    pixIn i s = .done p t ↔ s.lets 1 ∧ i < s.npix ∧ s.pixelAt i p ∧ t = s.used 1 := by
  have h43 : (4 : Byte) ≠ 3 := by decide
  unfold pixIn
  rw [Attempt.andThen_eq_done]
  constructor
  · rintro ⟨u, s1, h1, h⟩
    obtain ⟨hl, rfl⟩ := askOracle_eq_done.1 h1
    split_ifs at h with hi h4 h3
    · simp only [Attempt.andThen_eq_done, listed_eq_done] at h
      obtain ⟨r, _, ⟨hr, rfl⟩, g, _, ⟨hg, rfl⟩, b, _, ⟨hb, rfl⟩, a, _, ⟨ha, rfl⟩, h⟩ := h
      cases h
      refine ⟨hl, by simpa using hi, .inl ⟨h4, ?_⟩, rfl⟩
      simp only [State.used_pixin] at hr hg hb ha
      simp [Memory.readRange, hr, hg, hb, ha, Nat.add_assoc]
    · simp only [Attempt.andThen_eq_done, listed_eq_done] at h
      obtain ⟨r, _, ⟨hr, rfl⟩, g, _, ⟨hg, rfl⟩, b, _, ⟨hb, rfl⟩, h⟩ := h
      cases h
      refine ⟨hl, by simpa using hi, .inr ⟨h3, ?_, rfl⟩, rfl⟩
      simp only [State.used_pixin] at hr hg hb
      simp [Memory.readRange, hr, hg, hb, Nat.add_assoc]
  · rintro ⟨hl, hi, hp, rfl⟩
    refine ⟨(), s.used 1, askOracle_of_lets hl, ?_⟩
    rw [if_neg (by simpa using hi)]
    rcases hp with ⟨h4, hr⟩ | ⟨h3, hr, ha⟩
    · rw [if_pos (by exact h4)]
      obtain ⟨-, hr⟩ := Memory.readRange_eq_some.1 hr
      have r0 := hr 0 (by omega)
      have r1 := hr 1 (by omega)
      have r2 := hr 2 (by omega)
      have r3 := hr 3 (by omega)
      simp only [Nat.add_zero, List.getElem?_cons_zero, List.getElem?_cons_succ] at r0 r1 r2 r3
      simp [listed, r0, r1, r2, r3]
    · rw [if_neg (by simp [h3]), if_pos (by exact h3)]
      obtain ⟨-, hr⟩ := Memory.readRange_eq_some.1 hr
      have r0 := hr 0 (by omega)
      have r1 := hr 1 (by omega)
      have r2 := hr 2 (by omega)
      simp only [Nat.add_zero, List.getElem?_cons_zero, List.getElem?_cons_succ] at r0 r1 r2
      obtain ⟨r, g, b, a⟩ := p
      simp only at ha
      simp [listed, r0, r1, r2, ha]

theorem raises_of_pixIn {i : Nat} {s : State} {e : ErrorKind} {o : List IoAnswer} (h : pixIn i s = .raised e o) :
    e = .ioFailure ∧ s.raises e o := by
  unfold pixIn at h
  rcases Attempt.andThen_eq_raised.1 h with h | ⟨u, s1, -, h⟩
  · exact ⟨(askOracle_eq_raised.1 h).1, raises_of_askOracle h⟩
  · split_ifs at h
    all_goals simp [Attempt.andThen_eq_raised] at h

theorem pixIn_ne_stopped {i : Nat} {s : State} (hc : supportedChannels s.hdrChannels) (hi : i < s.npix)
    (hp : ∀ k < s.arraySize, Memory.lists s.pixin k) (f : Fault) : pixIn i s ≠ .stopped f := by
  intro h
  unfold pixIn at h
  have hsz : ∀ c : Nat, s.channels = c → ∀ j < c, c * i + j < s.arraySize := by
    intro c hcs j hj
    rw [State.arraySize, hcs, Nat.mul_comm s.npix]
    calc c * i + j < c * i + c := by omega
      _ = c * (i + 1) := by ring
      _ ≤ c * s.npix := Nat.mul_le_mul_left _ hi
  have hst : ∀ k g (s' : State), k < s.arraySize → listed .pixin s.pixin k s' ≠ .stopped g := by
    intro k g s' hk hg
    obtain ⟨hn, -⟩ := listed_eq_stopped.1 hg
    have := hp k hk
    simp [Memory.lists, hn] at this
  rcases Attempt.andThen_eq_stopped.1 h with h | ⟨u, s1, h1, h⟩
  · exact askOracle_ne_stopped _ _ h
  · obtain ⟨-, rfl⟩ := askOracle_eq_done.1 h1
    rw [if_neg (by simpa using hi)] at h
    rcases hc with hc | hc
    · have hs := hsz 3 (by simp [State.channels, hc])
      rw [if_neg (by simp [hc]), if_pos (by exact hc)] at h
      simp only [Attempt.andThen_eq_stopped, listed_eq_done, State.used_pixin] at h
      rcases h with h | ⟨_, _, ⟨-, rfl⟩, h | ⟨_, _, ⟨-, rfl⟩, h | ⟨_, _, ⟨-, rfl⟩, h⟩⟩⟩
      · exact hst _ _ _ (hs 0 (by omega)) h
      · exact hst _ _ _ (hs 1 (by omega)) h
      · exact hst _ _ _ (hs 2 (by omega)) h
      · simp at h
    · have hs := hsz 4 (by simp [State.channels, hc])
      rw [if_pos (by exact hc)] at h
      simp only [Attempt.andThen_eq_stopped, listed_eq_done, State.used_pixin] at h
      rcases h with h | ⟨_, _, ⟨-, rfl⟩, h | ⟨_, _, ⟨-, rfl⟩, h | ⟨_, _, ⟨-, rfl⟩, h | ⟨_, _, ⟨-, rfl⟩, h⟩⟩⟩⟩
      · exact hst _ _ _ (hs 0 (by omega)) h
      · exact hst _ _ _ (hs 1 (by omega)) h
      · exact hst _ _ _ (hs 2 (by omega)) h
      · exact hst _ _ _ (hs 3 (by omega)) h
      · simp at h

/-- The bytes a pixel that is no run pixel is emitted as: the pending run, then its op-code (R170). -/
def newPixelBytes (s : State) (p : Pixel) : List Byte := pendingRun s.run ++ encode (chooseOp s.cache p s.px)

theorem runFlush_eq_done {s t : State} {u : Unit} :
    runFlush s = .done u t ↔ s.lets (pendingRun s.run).length ∧ t = { s.emitted (pendingRun s.run) with run := 0 } := by
  unfold runFlush pendingRun
  split_ifs with h
  · rw [show ({ s.emitted [] with run := 0 } : State) = s by
      obtain ⟨⟩ := s
      simp only at h
      subst h
      rfl]
    simp [eq_comm]
  · simp only [emitRun, Attempt.andThen_eq_done, emits_eq_done]
    constructor
    · rintro ⟨-, s1, ⟨hl, rfl⟩, h⟩
      cases h
      exact ⟨hl, rfl⟩
    · rintro ⟨hl, rfl⟩
      exact ⟨(), _, ⟨hl, rfl⟩, rfl⟩

theorem raises_of_runFlush {s : State} {e : ErrorKind} {o : List IoAnswer} (h : runFlush s = .raised e o) :
    e = .ioFailure ∧ s.raises e o := by
  unfold runFlush at h
  split_ifs at h
  unfold emitRun at h
  rcases Attempt.andThen_eq_raised.1 h with h | ⟨u, s1, -, h⟩
  · exact ⟨emits_eq_raised h, raises_of_emits h⟩
  · simp at h

/-- When the oracle fails the byte of a pending run, the flush raises `IoFailure`. -/
theorem runFlush_of_fail {j : Nat} {s : State} (hj : j < (pendingRun s.run).length) (hl : s.lets j)
    (hf : s.oracle[j]? = some .fail) : runFlush s = .raised .ioFailure (s.oracle.drop (j + 1)) := by
  unfold pendingRun at hj
  unfold runFlush
  split_ifs at hj ⊢
  · simp at hj
  · rw [emitRun, emits_of_fail hj hl hf, Attempt.andThen_raised]

@[simp] theorem runFlush_ne_stopped (s : State) (f : Fault) : runFlush s ≠ .stopped f := by
  unfold runFlush
  split_ifs
  · simp
  · simp [emitRun, Attempt.andThen_eq_stopped]

/-- The three ways a pixel is classified (R172, R173, R174-R182). -/
theorem classify_eq_done {p : Pixel} {s t : State} {u : Unit} :
    classify p s = .done u t ↔
      (p = s.px ∧ (s.run + 1).toNat ≠ 62 ∧ t = { s with run := s.run + 1 }) ∨
        (p = s.px ∧ (s.run + 1).toNat = 62 ∧ s.lets 1 ∧ t = { s.emitted [0xFD] with run := 0 }) ∨
        (p ≠ s.px ∧ s.lets (newPixelBytes s p).length ∧
          t = { s.emitted (newPixelBytes s p) with run := 0, cache := cacheInsert s.cache p }) := by
  unfold classify
  split_ifs with hp
  · unfold runExtend
    simp only [hp, true_and, ne_eq, not_true, false_and, or_false]
    split_ifs with hr
    · have hr' : (s.run + 1).toNat = 62 := hr
      simp only [hr', not_true, false_and, false_or, true_and, emitRun, Attempt.andThen_eq_done, emits_eq_done]
      constructor
      · rintro ⟨-, s1, ⟨hl, rfl⟩, h⟩
        cases h
        exact ⟨hl, rfl⟩
      · rintro ⟨hl, rfl⟩
        exact ⟨(), _, ⟨hl, rfl⟩, rfl⟩
    · have hr' : ¬(s.run + 1).toNat = 62 := hr
      simp only [hr', not_false_eq_true, true_and, false_and, or_false, Attempt.done.injEq]
      exact eq_comm
  · simp only [hp, false_and, false_or, ne_eq, not_false_eq_true, true_and, Attempt.andThen_eq_done, runFlush_eq_done,
      emits_eq_done, cacheAfter_eq_cacheInsert, newPixelBytes, List.length_append]
    constructor
    · rintro ⟨-, s1, ⟨hl, rfl⟩, hl', rfl⟩
      refine ⟨State.lets_add.2 ⟨hl, hl'⟩, ?_⟩
      have := State.emitted_emitted s (pendingRun s.run) (encode (chooseOp s.cache p s.px))
      rw [← this]
      rfl
    · rintro ⟨hl, rfl⟩
      obtain ⟨hl1, hl2⟩ := State.lets_add.1 hl
      refine ⟨(), _, ⟨hl1, rfl⟩, hl2, ?_⟩
      have := State.emitted_emitted s (pendingRun s.run) (encode (chooseOp s.cache p s.px))
      rw [← this]
      rfl

theorem raises_of_classify {p : Pixel} {s : State} {e : ErrorKind} {o : List IoAnswer}
    (h : classify p s = .raised e o) : e = .ioFailure ∧ s.raises e o := by
  unfold classify at h
  split_ifs at h with hp
  · unfold runExtend at h
    simp only at h
    split_ifs at h
    unfold emitRun at h
    rcases Attempt.andThen_eq_raised.1 h with h | ⟨u, s1, -, h⟩
    · exact ⟨emits_eq_raised h, State.raises_of_oracle (s' := { s with run := s.run + 1 }) 0 rfl (raises_of_emits h)⟩
    · simp at h
  · rcases Attempt.andThen_eq_raised.1 h with h | ⟨u, s1, h1, h⟩
    · exact raises_of_runFlush h
    · obtain ⟨-, rfl⟩ := runFlush_eq_done.1 h1
      exact ⟨emits_eq_raised h, State.raises_of_oracle _ rfl (raises_of_emits h)⟩

@[simp] theorem classify_ne_stopped (p : Pixel) (s : State) (f : Fault) : classify p s ≠ .stopped f := by
  unfold classify
  split_ifs
  · unfold runExtend
    simp only
    split_ifs
    · simp [emitRun, Attempt.andThen_eq_stopped]
    · simp
  · simp [Attempt.andThen_eq_stopped]

/-- What an encode pixel step that ends in a next state was (R170): a pixel read, classified and passed, or an error. -/
theorem encodePixel_eq_next {s t : State} (h : encodePixel s = .next t) :
    (∃ p s', s.lets 1 ∧ s.pix < s.npix ∧ s.pixelAt s.pix p ∧ classify p (s.used 1) = .done () s' ∧
        t = advanceEncoder p s' ∧ t.cursorsFit = true) ∨
      ∃ o, s.raises .ioFailure o ∧ t = errorEntry .ioFailure { s with oracle := o } := by
  replace h := commit_eq_next.1 h
  rcases h with ⟨h, hf⟩ | ⟨e, o, h, rfl⟩
  · left
    obtain ⟨p, s1, h1, h⟩ := Attempt.andThen_eq_done.1 h
    obtain ⟨hl, hi, hp, rfl⟩ := pixIn_eq_done.1 h1
    obtain ⟨u, s2, h2, h⟩ := Attempt.andThen_eq_done.1 h
    cases h
    exact ⟨p, s2, hl, hi, hp, h2, rfl, hf⟩
  · right
    rcases Attempt.andThen_eq_raised.1 h with h | ⟨p, s1, h1, h⟩
    · obtain ⟨rfl, ho⟩ := raises_of_pixIn h
      exact ⟨o, ho, rfl⟩
    · obtain ⟨-, -, -, rfl⟩ := pixIn_eq_done.1 h1
      rcases Attempt.andThen_eq_raised.1 h with h | ⟨u, s2, -, h⟩
      · obtain ⟨rfl, ho⟩ := raises_of_classify h
        exact ⟨o, State.raises_of_used ho, rfl⟩
      · simp at h

theorem encodePixel_of_classify {s s' : State} {p : Pixel} (hl : s.lets 1) (hi : s.pix < s.npix)
    (hp : s.pixelAt s.pix p) (hc : classify p (s.used 1) = .done () s')
    (hf : (advanceEncoder p s').cursorsFit = true) : encodePixel s = .next (advanceEncoder p s') := by
  rw [encodePixel, pixIn_eq_done.2 ⟨hl, hi, hp, rfl⟩, Attempt.andThen_done, hc, Attempt.andThen_done]
  exact commit_done hf

theorem encodePixel_ne_fault {s : State} (hc : supportedChannels s.hdrChannels) (hi : s.pix < s.npix)
    (hp : ∀ k < s.arraySize, Memory.lists s.pixin k) (f : Fault) : encodePixel s ≠ .fault f := by
  rw [encodePixel, Ne, commit_eq_fault, Attempt.andThen_eq_stopped]
  rintro (h | ⟨p, s1, -, h⟩)
  · exact pixIn_ne_stopped hc hi hp f h
  · simp [Attempt.andThen_eq_stopped] at h

/-- What a tail step that ends in a next state was (R185). -/
theorem encodeTail_eq_next {s t : State} (h : encodeTail s = .next t) :
    (s.lets (pendingRun s.run ++ endMarker).length ∧
        t = { s.emitted (pendingRun s.run ++ endMarker) with run := 0, phase := .done } ∧ t.cursorsFit = true) ∨
      ∃ o, s.raises .ioFailure o ∧ t = errorEntry .ioFailure { s with oracle := o } := by
  replace h := commit_eq_next.1 h
  rcases h with ⟨h, hf⟩ | ⟨e, o, h, rfl⟩
  · left
    obtain ⟨u, s1, h1, h⟩ := Attempt.andThen_eq_done.1 h
    obtain ⟨hl, rfl⟩ := runFlush_eq_done.1 h1
    obtain ⟨u, s2, h2, h⟩ := Attempt.andThen_eq_done.1 h
    obtain ⟨hl', rfl⟩ := emits_eq_done.1 h2
    cases h
    refine ⟨by rw [List.length_append]; exact State.lets_add.2 ⟨hl, hl'⟩, ?_, hf⟩
    rw [← State.emitted_emitted]
    rfl
  · right
    rcases Attempt.andThen_eq_raised.1 h with h | ⟨u, s1, h1, h⟩
    · obtain ⟨rfl, ho⟩ := raises_of_runFlush h
      exact ⟨o, ho, rfl⟩
    · obtain ⟨-, rfl⟩ := runFlush_eq_done.1 h1
      rcases Attempt.andThen_eq_raised.1 h with h | ⟨u, s2, -, h⟩
      · obtain rfl := emits_eq_raised h
        exact ⟨o, State.raises_of_oracle _ rfl (raises_of_emits h), rfl⟩
      · simp at h

theorem encodeTail_of_lets {s : State} (hl : s.lets (pendingRun s.run ++ endMarker).length)
    (hf : ({ s with op := s.op + (pendingRun s.run ++ endMarker).length } : State).cursorsFit = true) :
    encodeTail s = .next { s.emitted (pendingRun s.run ++ endMarker) with run := 0, phase := .done } := by
  obtain ⟨hl1, hl2⟩ := State.lets_add.1 (List.length_append ▸ hl)
  rw [encodeTail, runFlush_eq_done (u := ()).2 ⟨hl1, rfl⟩, Attempt.andThen_done,
    emits_eq_done (u := ()) (s := { s.emitted (pendingRun s.run) with run := 0 }).2 ⟨hl2, rfl⟩, Attempt.andThen_done,
    ← State.emitted_emitted]
  refine commit_done ?_
  rw [List.length_append, ← Nat.add_assoc] at hf
  exact hf

theorem encodeTail_ne_fault (s : State) (f : Fault) : encodeTail s ≠ .fault f := by
  rw [encodeTail, Ne, commit_eq_fault]
  simp [Attempt.andThen_eq_stopped]

end Sys2Proof.Machine
end

