-- ==== Sys2Proof/Laws/Engine.lean ====
section
/-! SUPPORT. Which step the machine takes, said once: a host command, or the engine step of the phase.  With it the small
lemmas of what an op-code writes, and of the arithmetic of deltas. -/

namespace Sys2Proof.Machine

/-! ### What an op-code writes besides its pixel -/

@[simp] theorem opState_ip (i : Instr) (s : State) : (opState i s).ip = s.ip + i.length := by cases i <;> rfl
@[simp] theorem opState_phase (i : Instr) (s : State) : (opState i s).phase = s.phase := by cases i <;> rfl
@[simp] theorem opState_err (i : Instr) (s : State) : (opState i s).err = s.err := by cases i <;> rfl
@[simp] theorem opState_pix (i : Instr) (s : State) : (opState i s).pix = s.pix := by cases i <;> rfl
@[simp] theorem opState_npix (i : Instr) (s : State) : (opState i s).npix = s.npix := by cases i <;> rfl
@[simp] theorem opState_channels (i : Instr) (s : State) : (opState i s).channels = s.channels := by cases i <;> rfl
@[simp] theorem opState_config (i : Instr) (s : State) : (opState i s).config = s.config := by cases i <;> rfl
@[simp] theorem opState_host (i : Instr) (s : State) : (opState i s).host = s.host := by cases i <;> rfl

/-! ### The host and the engine -/

/-- Either the engine runs at the next step, or the host's next move is a command. -/
theorem waits_or_command (s : State) : s.hostWaits ∨ ∃ c rest, s.host = .command c :: rest := by
  rcases h : s.host with _ | ⟨_ | _, rest⟩
  · exact .inl (.inl h)
  · exact .inr ⟨_, _, rfl⟩
  · exact .inl (.inr ⟨_, h⟩)

/-- A step that takes a host command. -/
theorem step_of_command {s : State} {c : HostCommand} {rest : List HostMove} (h : s.host = .command c :: rest) :
    step s = hostCommand c { s with host := rest } := by
  unfold step machineStep
  rw [h]

theorem step_decHeader {s : State} (hw : s.hostWaits) (hp : s.phase = .decHeader) : step s = headerParse s.afterWait := by
  rw [step_of_waits hw, engineStep, State.afterWait_phase, hp]

theorem step_decPixels {s : State} (hw : s.hostWaits) (hp : s.phase = .decPixels) : step s = decodePixel s.afterWait := by
  rw [step_of_waits hw, engineStep, State.afterWait_phase, hp]

theorem step_encHeader {s : State} (hw : s.hostWaits) (hp : s.phase = .encHeader) : step s = headerEmit s.afterWait := by
  rw [step_of_waits hw, engineStep, State.afterWait_phase, hp]

theorem step_encPixels {s : State} (hw : s.hostWaits) (hp : s.phase = .encPixels) : step s = encodePixel s.afterWait := by
  rw [step_of_waits hw, engineStep, State.afterWait_phase, hp]

theorem step_encTail {s : State} (hw : s.hostWaits) (hp : s.phase = .encTail) : step s = encodeTail s.afterWait := by
  rw [step_of_waits hw, engineStep, State.afterWait_phase, hp]

/-- What an engine step that ends in a next state was, by phase. -/
theorem engineStep_cases {s t : State} (hw : s.hostWaits) (h : step s = .next t) :
    (s.phase = .decHeader ∧ headerParse s.afterWait = .next t) ∨
      (s.phase = .decPixels ∧ decodePixel s.afterWait = .next t) ∨
      (s.phase = .encHeader ∧ headerEmit s.afterWait = .next t) ∨
      (s.phase = .encPixels ∧ encodePixel s.afterWait = .next t) ∨
      (s.phase = .encTail ∧ encodeTail s.afterWait = .next t) ∨
      ((s.phase = .idle ∨ s.phase = .done ∨ s.phase = .error) ∧ t = s.afterWait) := by
  rw [step_of_waits hw, engineStep, State.afterWait_phase] at h
  revert h
  cases s.phase <;> simp <;> exact fun h => h.symm

/-! ### Small facts the statements rest on -/

theorem State.lets_of_oracle_nil {s : State} (h : s.oracle = []) (n : Nat) : s.lets n := by simp [State.lets, h]

theorem State.cursorsFit_of_unbounded {s : State} (h : s.config.cursorBits = none) : s.cursorsFit = true := by
  simp [State.cursorsFit, h]

theorem encode_length (i : Instr) : (encode i).length = i.length := by cases i <;> rfl

theorem pendingRun_length_le (r : BitVec 6) : (pendingRun r).length ≤ 1 := by
  unfold pendingRun
  split_ifs <;> simp [encode]

/-- The encoder's delta is the signed reading of the 8-bit difference (R179). -/
theorem delta_eq_toInt (x y : Byte) : delta x y = (x - y).toInt := by
  have h : BitVec.ofInt 8 ((x.toNat : Int) - y.toNat) = x - y := by
    apply BitVec.eq_of_toNat_eq
    rw [BitVec.toNat_ofInt, BitVec.toNat_sub]
    have := x.isLt
    have := y.isLt
    omega
  unfold delta s8 wrap8
  rw [h, BitVec.toInt_eq_toNat_cond]
  simp only [Nat.reducePow]
  split_ifs <;> omega

/-- Adding the encoder's delta to the previous channel gives the new channel back. -/
theorem addDelta_delta (x y : Byte) : addDelta y (delta x y) = x := by
  rw [delta_eq_toInt]
  unfold addDelta wrap8
  apply BitVec.eq_of_toNat_eq
  rw [BitVec.toNat_ofInt, BitVec.toInt_eq_toNat_cond, BitVec.toNat_sub]
  have := x.isLt
  have := y.isLt
  split_ifs <;> omega

end Sys2Proof.Machine
end

