-- ==== Sys2Proof/Laws/PerInstr.lean ====
section
/-! SUPPORT. Facts about every op-code as syntax, one lemma per constructor. -/

namespace Sys2Proof.Laws.EncodedLength

/-- The bytes of an op-code are as many as the table of R70 gives it, at least 1 and at most 5 (R79). -/
def Statement (i : Instr) : Prop := (encode i).length = i.length ∧ 1 ≤ i.length ∧ i.length ≤ longestOp

theorem index (i : Nat) : Statement (.index i) := by simp [Statement, encode, Instr.length, longestOp]

theorem diff (dr dg db : Int) : Statement (.diff dr dg db) := by simp [Statement, encode, Instr.length, longestOp]

theorem luma (dg drDg dbDg : Int) : Statement (.luma dg drDg dbDg) := by simp [Statement, encode, Instr.length, longestOp]

theorem run (n : Nat) : Statement (.run n) := by simp [Statement, encode, Instr.length, longestOp]

theorem rgb (r g b : Byte) : Statement (.rgb r g b) := by simp [Statement, encode, Instr.length, longestOp]

theorem rgba (r g b a : Byte) : Statement (.rgba r g b a) := by simp [Statement, encode, Instr.length, longestOp]

end Sys2Proof.Laws.EncodedLength
end

