-- ==== Sys2Proof/Tests/Slice0.lean ====
section
/-! SUPPORT. The model's own tests: one step each, with expected results from spec/95_test_vectors.md or written out by hand from
the rule a test names; and a witness for the hypotheses of every statement of Obligations.lean. -/

open Sys2Proof Sys2Proof.Machine

namespace Sys2Proof.Tests

/-! ### Helpers -/

/-- The state after one step, if it is a next state. -/
def after (s : State) : Option State :=
  match step s with
  | .next t => some t
  | _ => none

theorem step_of_after {s t : State} (h : after s = some t) : step s = .next t := by
  unfold after at h
  split at h
  · next u hu => rw [hu, Option.some.inj h]
  · simp at h

/-- A step that ends in a next state with this property. -/
def steps (s : State) (p : State → Bool) : Bool := (after s).any p

theorem next_of_steps {s : State} {p : State → Bool} (h : steps s p = true) : ∃ t, step s = .next t ∧ p t = true := by
  unfold steps at h
  obtain ⟨t, ht, hp⟩ := (Option.any_eq_true _ _).1 h
  exact ⟨t, step_of_after ht, hp⟩

/-- An op-code that ends in a next state with this property. -/
def runs (i : Instr) (s : State) (p : State → Bool) : Bool :=
  match exec i s with
  | .next t => p t
  | _ => false

theorem next_of_runs {i : Instr} {s : State} {p : State → Bool} (h : runs i s p = true) :
    ∃ t, exec i s = .next t ∧ p t = true := by
  unfold runs at h
  split at h
  · next t ht => exact ⟨t, ht, h⟩
  · simp at h

/-- A decoder at the first op-code of a `w` × 1 image, with these op-code bytes. -/
def decoderAt (w : U32) (channels : Byte) (ops : List Byte) : State :=
  { State.reset with
    phase := .decPixels
    hdrWidth := w
    hdrHeight := 1
    hdrChannels := channels
    ip := 14
    inLen := 14 + ops.length
    input := Memory.ofBytes (List.replicate 14 0 ++ ops) }

/-- An encoder at the first pixel of a `w` × 1 image, with these pixel bytes. -/
def encoderAt (w : U32) (channels : Byte) (pixels : List Byte) : State :=
  { State.reset with
    phase := .encPixels
    hdrWidth := w
    hdrHeight := 1
    hdrChannels := channels
    op := 14
    pixin := Memory.ofBytes pixels
    sink := Memory.ofBytes (List.replicate 14 0) }

/-- A decoder before the header parse step. -/
def parserOf (bytes : List Byte) : State :=
  { State.reset with phase := .decHeader, inLen := bytes.length, input := Memory.ofBytes bytes }

/-- An encoder before the header emit step. -/
def emitterOf (w h : U32) (channels colorspace : Byte) (pixels : List Byte) : State :=
  { State.reset with
    phase := .encHeader
    hdrWidth := w
    hdrHeight := h
    hdrChannels := channels
    hdrColorspace := colorspace
    pixin := Memory.ofBytes pixels }

/-- A block whose host issues one command next. -/
def commanded (c : HostCommand) : State := { State.reset with host := [.command c] }

/-- The bytes `SINK` gained. -/
def sinkFrom (t : State) (k : Nat) : Option (List Byte) := Memory.readRange t.sink k (t.op - k)

/-! ### Well-formedness: each check refuses an ill-formed term -/

theorem test_wellFormed_bounds :
    ([.index 0, .index 63, .diff (-2) (-2) (-2), .diff 1 1 1, .luma (-32) (-8) (-8), .luma 31 7 7, .run 1, .run 62,
      .rgb 0 0 255, .rgba 0 0 0 255] : List Instr).all wellFormed = true := by decide

theorem test_illFormed_index : wellFormed (.index 64) = false := by decide

theorem test_illFormed_diff :
    [wellFormed (.diff 2 0 0), wellFormed (.diff 0 2 0), wellFormed (.diff 0 0 2), wellFormed (.diff (-3) 0 0),
      wellFormed (.diff 0 (-3) 0), wellFormed (.diff 0 0 (-3))].any id = false := by decide

theorem test_illFormed_luma :
    [wellFormed (.luma 32 0 0), wellFormed (.luma (-33) 0 0), wellFormed (.luma 0 8 0), wellFormed (.luma 0 (-9) 0),
      wellFormed (.luma 0 0 8), wellFormed (.luma 0 0 (-9))].any id = false := by decide

theorem test_illFormed_run : [wellFormed (.run 0), wellFormed (.run 63)].any id = false := by decide

/-! ### Decoding: words written out from 30_encoding.md, and the table words -/

/-- R72: `00` and six bits of slot. -/
theorem test_decode_index : decode [0b00_110101, 0xAA] = .ok (.index 53, [0xAA]) := by decide

/-- R73: `01`, then dr, dg, db from the high bits down, each with a bias of 2 (95_test_vectors.md 2.4, `4B`). -/
theorem test_decode_diff : decode [0b01_00_10_11] = .ok (.diff (-2) 0 1, []) := by decide

/-- R74: `10` and dg with a bias of 32; then the relative deltas with a bias of 8 (P1, `9D A7`). -/
theorem test_decode_luma : decode [0b10_011101, 0b1010_0111] = .ok (.luma (-3) 2 (-1), []) := by decide

/-- R75, R71: `11` and the length minus one; `3D` is the longest, because FE and FF are other op-codes. -/
theorem test_decode_run : decode [0b11_111101] = .ok (.run 62, []) ∧ decode [0b11_000000] = .ok (.run 1, []) := by decide

/-- R76. -/
theorem test_decode_rgb : decode [0b11111110, 10, 20, 30] = .ok (.rgb 10 20 30, []) := by decide

/-- R77. -/
theorem test_decode_rgba : decode [0b11111111, 1, 2, 3, 4] = .ok (.rgba 1 2 3 4, []) := by decide

/-- R78: only missing bytes are refused, and by name. -/
theorem test_decode_rejects :
    decode [] = .error .noBytes ∧ decode [0x90] = .error (.truncated .luma) ∧
      decode [0xFE, 1, 2] = .error (.truncated .rgb) ∧ decode [0xFF, 1, 2, 3] = .error (.truncated .rgba) := by decide

/-- The first byte of an op-code is the lowest byte of its table word. -/
theorem test_decodeTableWord :
    decodeTableWord 8 0x09 = some (.index 9) ∧ decodeTableWord 8 0x4B = some (.diff (-2) 0 1) ∧
      decodeTableWord 16 0xA79D = some (.luma (-3) 2 (-1)) ∧ decodeTableWord 8 0xFD = some (.run 62) ∧
      decodeTableWord 32 0x1E140AFE = some (.rgb 10 20 30) ∧
      decodeTableWord 40 0x04030201FF = some (.rgba 1 2 3 4) := by decide

/-- With fewer table bits than the op-code has, the bits above are 0. -/
theorem test_decodeTableWord_short : decodeTableWord 8 0xFE = some (.rgb 0 0 0) := by decide

/-- After `withFetchWord` the first step after reset runs the op-code (P1: DIFF 1,1,1 of the start pixel). -/
theorem test_withFetchWord_diff :
    steps (State.reset.withFetchWord 8 0x7F) (fun t => t.px == ⟨1, 1, 1, 255⟩ && t.pix == 1) = true := by decide

theorem test_withFetchWord_rgba :
    steps (State.reset.withFetchWord 40 0x04030201FF) (fun t => t.px == ⟨1, 2, 3, 4⟩ && t.ip == 5) = true := by decide

/-! ### Op-codes, one step each (95_test_vectors.md 2.4, P1, P2) -/

/-- INDEX of an unwritten slot: {0,0,0,0}. -/
theorem test_index_unwritten :
    steps (decoderAt 1 4 [0x05]) (fun t => t.px == ⟨0, 0, 0, 0⟩ && t.ip == 15 && t.phase == .done) = true := by decide

/-- P1 step 2: INDEX 9 takes what RGB put there; the cache is as it was. -/
theorem test_index_takes_slot :
    let s := { decoderAt 4 4 [0x09] with cache := cacheInsert emptyCache ⟨10, 20, 30, 255⟩, px := ⟨11, 21, 31, 255⟩ }
    steps s (fun t => t.px == ⟨10, 20, 30, 255⟩ && t.cache == s.cache) = true := by decide

/-- DIFF −2,0,+1: the field order (D5). -/
theorem test_diff_field_order :
    steps (decoderAt 1 4 [0x4B]) (fun t => t.px == ⟨254, 0, 1, 255⟩ && cacheRead t.cache 54 == t.px) = true := by decide

/-- INDEX then DIFF: alpha 0 is kept, and −1 wraps. -/
theorem test_diff_keeps_alpha :
    steps { decoderAt 1 4 [0x55] with px := ⟨0, 0, 0, 0⟩ }
      (fun t => t.px == ⟨255, 255, 255, 0⟩ && cacheRead t.cache 49 == t.px) = true := by decide

/-- LUMA with wrap above 255. -/
theorem test_luma_wraps :
    steps { decoderAt 1 4 [0xBF, 0xFF] with px := ⟨250, 250, 250, 255⟩ }
      (fun t => t.px == ⟨32, 25, 32, 255⟩ && t.ip == 16 && cacheRead t.cache 50 == t.px) = true := by decide

/-- P1 step 3: dg −3, dr−dg +2, db−dg −1. -/
theorem test_luma_relative :
    steps { decoderAt 1 4 [0x9D, 0xA7] with px := ⟨10, 20, 30, 255⟩ } (fun t => t.px == ⟨9, 17, 26, 255⟩) = true := by
  decide

/-- RUN 62: 61 repeats are still to come, and nothing is inserted. -/
theorem test_run_62 :
    steps (decoderAt 62 4 [0xFD])
      (fun t => t.run == 61 && t.pix == 1 && t.ip == 15 && t.cache == emptyCache && t.phase == .decPixels) = true := by
  decide

/-- A repeat that ends the image with no byte left in `IN`; what is left of the run stays in `RUN` (D29: 60 at `DONE`). -/
theorem test_run_cut_short :
    steps { decoderAt 2 4 [] with run := 61, pix := 1, op := 4 } (fun t => t.run == 60 && t.phase == .done) = true := by
  decide

/-- RGB keeps the alpha that an RGBA set. -/
theorem test_rgb_keeps_alpha :
    steps { decoderAt 1 4 [0xFE, 9, 9, 9] with px := ⟨1, 2, 3, 128⟩ }
      (fun t => t.px == ⟨9, 9, 9, 128⟩ && t.ip == 18 && cacheRead t.cache 7 == t.px) = true := by decide

/-- P1 step 0. -/
theorem test_rgb_writes_out :
    steps (decoderAt 1 4 [0xFE, 10, 20, 30])
      (fun t => Memory.readRange t.out 0 4 == some [10, 20, 30, 255] && t.op == 4) = true := by decide

/-- 3 channels with RGBA: the alpha is in `PX` and in the cache, not in `OUT`. -/
theorem test_rgba_three_channels :
    steps (decoderAt 1 3 [0xFF, 1, 2, 3, 4])
      (fun t => t.px == ⟨1, 2, 3, 4⟩ && cacheRead t.cache 14 == t.px && t.out == [(0, 1), (1, 2), (2, 3)]) = true := by
  decide

/-- P3 step 1: a truncated LUMA; only `ERR` and `PHASE` change. -/
theorem test_truncated_luma :
    steps (decoderAt 1 4 [0x90])
      (fun t => t == { decoderAt 1 4 [0x90] with phase := .error, err := some .unexpectedEof }) = true := by decide

/-- R233, R235: a failing output write discards the whole step. -/
theorem test_failed_write :
    steps { decoderAt 1 4 [0xFE, 1, 2, 3] with oracle := List.replicate 7 .ok ++ [.fail] }
      (fun t => t == { decoderAt 1 4 [0xFE, 1, 2, 3] with phase := .error, err := some .ioFailure }) = true := by decide

/-! ### Header (95_test_vectors.md 2.2, 2.3) -/

theorem test_header_parse :
    steps (parserOf [0x71, 0x6F, 0x69, 0x66, 1, 2, 3, 4, 0xA0, 0xB0, 0xC0, 0xD0, 4, 0xFF])
      (fun t => t.hdrWidth == 0x01020304 && t.hdrHeight == 0xA0B0C0D0 && t.hdrChannels == 4 && t.hdrColorspace == 0xFF &&
        t.ip == 14 && t.phase == .decPixels) = true := by decide

/-- `H(0,5,4,0)`: an image of no pixels is done at once. -/
theorem test_header_empty_image :
    steps (parserOf [0x71, 0x6F, 0x69, 0x66, 0, 0, 0, 0, 0, 0, 0, 5, 4, 0])
      (fun t => t.hdrHeight == 5 && t.phase == .done && t.out == []) = true := by decide

theorem test_header_errors :
    steps (parserOf []) (fun t => t.err == some .invalidMagic) = true ∧
      steps (parserOf [0x71, 0x6F, 0x69]) (fun t => t.err == some .invalidMagic) = true ∧
      steps (parserOf ([0x71, 0x6F, 0x69, 0x46] ++ List.replicate 10 0)) (fun t => t.err == some .invalidMagic) = true ∧
      steps (parserOf ([0x71, 0x6F, 0x69, 0x66] ++ List.replicate 9 0))
        (fun t => t.err == some .unexpectedEof && t.ip == 0) = true ∧
      steps (parserOf [0x71, 0x6F, 0x69, 0x66, 0, 0, 0, 1, 0, 0, 0, 1, 5, 0])
        (fun t => t.err == some .unsupportedChannelCount && t.hdrWidth == 0) = true := by decide

theorem test_header_emit :
    steps (emitterOf 800 600 3 1 [])
      (fun t => sinkFrom t 0 == some [0x71, 0x6F, 0x69, 0x66, 0, 0, 3, 0x20, 0, 0, 2, 0x58, 3, 1] &&
        t.phase == .encPixels) = true := by decide

theorem test_header_emit_error :
    steps (emitterOf 1 1 5 0 []) (fun t => t.err == some .unsupportedChannelCount && t.sink == []) = true := by decide

/-! ### Cache (95_test_vectors.md 2.1) -/

theorem test_hash :
    ([⟨0, 0, 0, 255⟩, ⟨10, 20, 30, 255⟩, ⟨1, 0, 0, 255⟩, ⟨0, 39, 0, 255⟩, ⟨255, 255, 255, 255⟩, ⟨1, 2, 3, 4⟩,
      ⟨255, 0, 128, 7⟩] : List Pixel).map Machine.hash = [53, 9, 56, 56, 38, 14, 10] := by decide

/-! ### Encoder (95_test_vectors.md 2.5, 2.6, W4, P4, P5) -/

theorem test_run_starts :
    steps (encoderAt 2 4 [0, 0, 0, 255]) (fun t => t.run == 1 && t.op == 14 && t.ip == 4) = true := by decide

/-- P5 step 61: the cap emits `FD`. -/
theorem test_run_cap :
    steps { encoderAt 2 4 [0, 0, 0, 255] with run := 61 } (fun t => t.run == 0 && sinkFrom t 14 == some [0xFD]) = true := by
  decide

/-- P4 step 2: the run is flushed before the LUMA, and the pixel is put into slot 0. -/
theorem test_flush_then_luma :
    steps { encoderAt 2 3 [5, 5, 5] with run := 2 }
      (fun t => sinkFrom t 14 == some [0xC1, 0xA5, 0x88] && t.run == 0 && cacheRead t.cache 0 == ⟨5, 5, 5, 255⟩) = true := by
  decide

/-- 2.6: the boundaries of DIFF and LUMA, and the alpha. -/
theorem test_choice_boundaries :
    ([⟨254, 254, 254, 255⟩, ⟨1, 1, 1, 255⟩, ⟨2, 0, 0, 255⟩, ⟨38, 31, 38, 255⟩, ⟨216, 224, 216, 255⟩, ⟨32, 32, 32, 255⟩,
      ⟨8, 0, 0, 255⟩, ⟨248, 0, 0, 255⟩, ⟨247, 0, 0, 255⟩, ⟨10, 20, 30, 0⟩, ⟨0, 0, 0, 0⟩] : List Pixel).map
        (fun p => encode (chooseOp emptyCache p Pixel.start)) =
      [[0x40], [0x7F], [0xA0, 0xA8], [0xBF, 0xFF], [0x80, 0x00], [0xFE, 0x20, 0x20, 0x20], [0xFE, 8, 0, 0], [0xA0, 0x08],
        [0xFE, 0xF7, 0, 0], [0xFF, 10, 20, 30, 0], [0x00]] := by decide

/-- W4: the slot of (1,0,0,255) holds a pixel of the same hash, and no false INDEX is emitted. -/
theorem test_collision :
    encode (chooseOp (cacheInsert emptyCache ⟨0, 39, 0, 255⟩) ⟨1, 0, 0, 255⟩ ⟨0, 39, 0, 255⟩) = [0xFE, 1, 0, 0] := by decide

/-- 2.5: the tail flushes the run of one pixel, then the end marker. -/
theorem test_tail :
    steps { encoderAt 1 4 [] with phase := .encTail, run := 1, pix := 1 }
      (fun t => sinkFrom t 14 == some [0xC0, 0, 0, 0, 0, 0, 0, 0, 1] && t.phase == .done && t.run == 0) = true := by decide

/-! ### Commands -/

/-- R213: a `START_DECODE` while busy changes nothing but the host's plan. -/
theorem test_busy :
    let s := decoderAt 1 4 [0x05]
    steps { s with host := [.command (.startDecode [1, 2, 3])] } (fun t => t == s) = true := by decide

/-- R211: what `START_DECODE` leaves. -/
theorem test_start_decode :
    steps { decoderAt 1 4 [0xC0] with phase := .done, px := ⟨1, 2, 3, 4⟩, host := [.command (.startDecode [7, 8])] }
      (fun t => t == parserOf [7, 8]) = true := by decide

/-- R21, R22, R37: what the host reads. -/
theorem test_host_reads :
    (hostRead .phase { State.reset with phase := .error }, hostRead .err { State.reset with err := some .ioFailure },
      hostRead .pxA State.reset) = (7, 3, 255) := by decide

/-! ### Witnesses: states and operands that meet all the hypotheses of a statement together -/

/-- The pixel bytes `n` opaque black pixels take with 4 channels. -/
def blacks (n : Nat) : List Byte := (List.replicate n [0, 0, 0, 255]).flatten

theorem lets_of_ok {s : State} {n : Nat} (h : (s.oracle.take n).all (· == .ok) = true) : s.lets n := by
  simpa [State.lets] using h

/-- An oracle that fails the access of index `n` first. -/
def failing (n : Nat) : List IoAnswer := List.replicate n .ok ++ [.fail]

theorem failing_fails {s : State} {n : Nat} (h : s.oracle = failing n) : s.lets n ∧ s.oracle[n]? = some .fail := by
  rw [State.lets, h]
  simp [failing]

theorem ready_of {s : State} {n : Nat}
    (h : (decide (supportedChannels s.hdrChannels) && decide (s.pix < s.npix) &&
      (s.oracle.take (pixelWidth s.hdrChannels)).all (· == .ok) &&
      ({ s with ip := s.ip + n, pix := s.pix + 1, op := (s.pix + 1) * s.channels } : State).cursorsFit) = true) :
    s.pixelReady n := by
  simp only [Bool.and_eq_true, decide_eq_true_eq] at h
  exact ⟨h.1.1.1, h.1.1.2, lets_of_ok h.1.2, h.2⟩

theorem inputAt_of {s : State} {k : Nat} {bs : List Byte}
    (h : (decide (k + bs.length ≤ s.inLen) && Memory.readRange s.input k bs.length == some bs) = true) : s.inputAt k bs := by
  simpa [State.inputAt] using h

theorem pixelAt_of {s : State} {i : Nat} {p : Pixel}
    (h : (s.hdrChannels == 4 && Memory.readRange s.pixin (4 * i) 4 == some [p.r, p.g, p.b, p.a]) = true) :
    s.pixelAt i p := by
  simp only [Bool.and_eq_true, beq_iff_eq] at h
  exact .inl h

theorem invariant_at_decoder : (decoderAt 1 4 [0x05]).Inv := by
  constructor
  case decPixels => exact fun _ => ⟨by decide, by decide, by decide, fun k => by simp [decoderAt, State.reset, Memory.lists]⟩
  all_goals first | decide | simp [decoderAt]

theorem lists_header (k : Nat) : Memory.lists (encoderAt 1 3 [5, 5, 5]).sink k ↔ k < 14 := by
  rw [show (encoderAt 1 3 [5, 5, 5]).sink = Memory.ofBytes (List.replicate 14 0) from rfl, Memory.lists_ofBytes,
    List.length_replicate]

theorem invariant_at_encoder : (encoderAt 1 3 [5, 5, 5]).Inv := by
  constructor
  case encPixels => exact fun _ => ⟨by decide, by decide, lists_header⟩
  all_goals first | decide | simp [encoderAt]

theorem invariant_at_tail :
    ({ encoderAt 1 3 [5, 5, 5] with phase := .encTail, pix := 1, ip := 3, run := 1 } : State).Inv := by
  constructor
  case encPixels => exact fun _ => ⟨by decide, by decide, lists_header⟩
  all_goals first | decide | simp [encoderAt]

theorem invariant_at_parser : (parserOf [0x71, 0x6F]).Inv := by
  constructor <;> first | decide | simp [parserOf]

theorem invariant_at_error :
    ({ decoderAt 1 4 [0x05] with phase := .error, err := some .unsupportedChannelCount } : State).Inv := by
  constructor <;> first | decide | simp [decoderAt]

theorem invariant_at_emitter : (emitterOf 1 1 3 0 [5, 5, 5]).Inv := by
  constructor <;> first | decide | simp [emitterOf]

theorem witness_DecodeOfEncode : WellFormed (.luma (-32) 7 (-8)) := by decide

theorem witness_EncodeOfDecode : decode [0x80, 0xF0, 0xAA] = .ok (.luma (-32) 7 (-8), [0xAA]) := by decide

theorem witness_FirstByteSelectsOpcode :
    decode [0x3F] = .ok (.index 63, []) ∧ decode [0x40] = .ok (.diff (-2) (-2) (-2), []) ∧
      decode [0x7F] = .ok (.diff 1 1 1, []) ∧ decode [0x80, 0] = .ok (.luma (-32) (-8) (-8), []) ∧
      decode [0xBF, 0xFF] = .ok (.luma 31 7 7, []) ∧ decode [0xC0] = .ok (.run 1, []) ∧
      decode [0xFD] = .ok (.run 62, []) ∧ decode [0xFE, 0, 0, 0] = .ok (.rgb 0 0 0, []) ∧
      decode [0xFF, 0, 0, 0, 0] = .ok (.rgba 0 0 0 0, []) := by decide

theorem witness_LengthFromFirstByte : decode [0xFF, 1, 2, 3, 4, 5] = .ok (.rgba 1 2 3 4, [5]) := by decide

theorem witness_EveryCompleteOpcodeDecodes : opLength 0xFF ≤ [1, 2, 3, (4 : Byte)].length + 1 ∧
    [1, 2, (3 : Byte)].length + 1 < opLength 0xFF := by decide

theorem witness_ResetCommandInEveryPhase : (commanded .reset).host = .command .reset :: [] := rfl

theorem witness_StartDecodeResult :
    (commanded (.startDecode [1])).host = .command (.startDecode [1]) :: [] ∧
      (commanded (.startDecode [1])).phase = .idle := ⟨rfl, rfl⟩

/-- Both clauses: the right length, an unsupported channel count, and a length one short. -/
theorem witness_StartEncodeResult :
    ((commanded (.startEncode 1 1 3 0 [5, 5, 5])).host = .command (.startEncode 1 1 3 0 [5, 5, 5]) :: [] ∧
      [5, 5, (5 : Byte)].length = (1 : U32).toNat * (1 : U32).toNat * (3 : Byte).toNat) ∧
    ((2 : Byte) ≠ 3 ∧ (2 : Byte) ≠ 4) ∧
    (((3 : Byte) = 3 ∨ (3 : Byte) = 4) ∧ [5, (5 : Byte)].length ≠ (1 : U32).toNat * (1 : U32).toNat * (3 : Byte).toNat) := by
  refine ⟨⟨rfl, by decide⟩, by decide, by decide⟩

theorem witness_BusyStartHasNoEffect :
    let s := { decoderAt 1 4 [] with host := [.command (.startDecode [])] }
    s.host = .command (.startDecode []) :: [] ∧ HostCommand.startDecode [] ≠ .reset ∧
      s.phase ≠ .idle ∧ s.phase ≠ .done ∧ s.phase ≠ .error := by
  refine ⟨rfl, by decide, by decide, by decide, by decide⟩

theorem witness_QuiescentEngineStays :
    ({ State.reset with phase := .done, host := [.wait] } : State).hostWaits := .inr ⟨[], rfl⟩

theorem witness_OnlyCommandsLeaveDoneAndError :
    let s := { commanded (.startDecode []) with phase := .error, err := some .ioFailure }
    s.phase = .error ∧ ∃ t, step s = .next t ∧ (t.phase != s.phase) = true :=
  ⟨rfl, next_of_steps (by decide)⟩

theorem witness_PhaseTransitions :
    (decoderAt 1 4 [0x05]).hostWaits ∧ ∃ t, step (decoderAt 1 4 [0x05]) = .next t ∧ (t.phase == .done) = true :=
  ⟨.inl rfl, next_of_steps (by decide)⟩

theorem witness_ErrorKindsByPhase :
    (decoderAt 1 4 [0x90]).hostWaits ∧ (decoderAt 1 4 [0x90]).phase ≠ .error ∧
      ∃ t, step (decoderAt 1 4 [0x90]) = .next t ∧ (t.phase == .error && t.err == some .unexpectedEof) = true :=
  ⟨.inl rfl, by decide, next_of_steps (by decide)⟩

theorem witness_EveryStepKeepsInvariant :
    (decoderAt 1 4 [0x05]).Inv ∧ ∃ t, step (decoderAt 1 4 [0x05]) = .next t ∧ (t.pix == 1) = true :=
  ⟨invariant_at_decoder, next_of_steps (by decide)⟩

theorem witness_InvariantExcludesFaults : (decoderAt 1 4 [0x05]).Inv := invariant_at_decoder

theorem witness_OnlyTwoRefusals :
    step { decoderAt 3 4 [0xC0, 0xC0] with ip := 15, config := ⟨Magic.default, some 4⟩ } = .refused .cursorOverflow ∧
      step (commanded (.startEncode 1 1 3 0 [5, 5])) = .refused .wrongPixinLength := ⟨rfl, rfl⟩

theorem witness_ErrorsArePrecise :
    (decoderAt 1 4 [0x90]).hostWaits ∧ (decoderAt 1 4 [0x90]).phase ≠ .error ∧
      ∃ t, step (decoderAt 1 4 [0x90]) = .next t ∧ (t.phase == .error) = true :=
  ⟨.inl rfl, by decide, next_of_steps (by decide)⟩

theorem witness_IndexResult : (decoderAt 1 4 [0x3F]).pixelReady 1 := ready_of (by decide)

theorem witness_DiffResult : (decoderAt 1 3 [0x40]).pixelReady 1 := ready_of (by decide)

theorem witness_LumaResult : (decoderAt 1 4 [0x80, 0]).pixelReady 2 := ready_of (by decide)

theorem witness_RunResult : (1 ≤ 62 ∧ 62 ≤ 62) ∧ (decoderAt 1 4 [0xFD]).pixelReady 1 := ⟨by decide, ready_of (by decide)⟩

theorem witness_RgbResult : (decoderAt 1 4 [0xFE, 1, 2, 3]).pixelReady 4 := ready_of (by decide)

theorem witness_RgbaResult : (decoderAt 1 3 [0xFF, 1, 2, 3, 4]).pixelReady 5 := ready_of (by decide)

/-- An op-code with `IP` at the top of 4-bit cursors, and a repeat with `OP` there. -/
theorem witness_CursorOverflowIsRefused :
    (let s := { decoderAt 3 4 [0xC0, 0xC0] with ip := 15, config := ⟨Magic.default, some 4⟩ };
      supportedChannels s.hdrChannels ∧ s.pix < s.npix ∧ s.lets (pixelWidth s.hdrChannels) ∧
        ({ s with ip := s.ip + (Instr.run 1).length, pix := s.pix + 1, op := (s.pix + 1) * s.channels } : State).cursorsFit =
          false) ∧
      let s := { decoderAt 4 4 [] with pix := 3, op := 12, run := 1, config := ⟨Magic.default, some 4⟩ };
      s.hostWaits ∧ s.phase = .decPixels ∧ s.run ≠ 0 ∧ supportedChannels s.hdrChannels ∧ s.pix < s.npix ∧
        s.lets (pixelWidth s.hdrChannels) ∧
        ({ s with pix := s.pix + 1, op := (s.pix + 1) * s.channels } : State).cursorsFit = false :=
  ⟨⟨by decide, by decide, lets_of_ok (by decide), by decide⟩, .inl rfl, rfl, by decide, by decide, by decide,
    lets_of_ok (by decide), by decide⟩

/-- The header parse step, the header emit step and the tail step, with cursors of 3 bits and of 4. -/
theorem witness_CursorOverflowIsRefused_header_tail :
    (let s := { parserOf (Magic.default.bytes ++ be32bytes 1 ++ be32bytes 1 ++ [3, 9]) with
        config := ⟨Magic.default, some 3⟩ };
      s.hostWaits ∧ s.phase = .decHeader ∧
        s.inputAt 0 (s.config.magic.bytes ++ be32bytes 1 ++ be32bytes 1 ++ [3, 9]) ∧ s.lets 14 ∧
        ({ s with ip := 14 } : State).cursorsFit = false) ∧
      (let s := { emitterOf 1 1 3 0 [5, 5, 5] with config := ⟨Magic.default, some 3⟩ };
        s.hostWaits ∧ s.phase = .encHeader ∧ supportedChannels s.hdrChannels ∧ s.lets 14 ∧
          ({ s with op := s.op + 14 } : State).cursorsFit = false) ∧
      let s := { encoderAt 1 4 [] with phase := .encTail, op := 8, config := ⟨Magic.default, some 4⟩ };
      s.hostWaits ∧ s.phase = .encTail ∧ s.lets (pendingRun s.run ++ endMarker).length ∧
        ({ s with op := s.op + (pendingRun s.run ++ endMarker).length } : State).cursorsFit = false :=
  ⟨⟨.inl rfl, rfl, inputAt_of (by decide), lets_of_ok (by decide), by decide⟩,
    ⟨.inl rfl, rfl, by decide, lets_of_ok (by decide), by decide⟩, .inl rfl, rfl, lets_of_ok (by decide), by decide⟩

/-- The encode pixel step: a run pixel below the cap with `IP` at the top, one at the cap with `OP` there, and a LUMA of which
the second byte goes past it. -/
theorem witness_CursorOverflowIsRefused_encode :
    (let s := { encoderAt 2 4 (blacks 2) with run := 60, ip := 12, config := ⟨Magic.default, some 4⟩ };
      s.hostWaits ∧ s.phase = .encPixels ∧ s.pix < s.npix ∧ s.pixelAt s.pix s.px ∧ s.run.toNat ≠ 61 ∧ s.lets 1 ∧
        ({ s with pix := s.pix + 1, ip := s.ip + s.channels } : State).cursorsFit = false) ∧
      (let s := { encoderAt 2 4 (blacks 2) with run := 61, op := 15, config := ⟨Magic.default, some 4⟩ };
        s.pixelAt s.pix s.px ∧ s.run.toNat = 61 ∧ s.lets 2 ∧
          ({ s with pix := s.pix + 1, ip := s.ip + s.channels, op := s.op + 1 } : State).cursorsFit = false) ∧
      let s := { encoderAt 2 4 [9, 9, 9, 255, 0, 0, 0, 255] with config := ⟨Magic.default, some 4⟩ };
      let emitted := pendingRun s.run ++ encode (chooseOp s.cache ⟨9, 9, 9, 255⟩ s.px);
      s.pixelAt s.pix ⟨9, 9, 9, 255⟩ ∧ (⟨9, 9, 9, 255⟩ : Pixel) ≠ s.px ∧ s.lets (1 + emitted.length) ∧
        ({ s with pix := s.pix + 1, ip := s.ip + s.channels, op := s.op + emitted.length } : State).cursorsFit = false :=
  ⟨⟨.inl rfl, rfl, by decide, pixelAt_of (by decide), by decide, lets_of_ok (by decide), by decide⟩,
    ⟨pixelAt_of (by decide), rfl, lets_of_ok (by decide), by decide⟩, pixelAt_of (by decide), by decide,
    lets_of_ok (by decide), by decide⟩

theorem witness_RunRepeatResult :
    let s := { decoderAt 2 4 [] with run := 1, pix := 1 }
    s.hostWaits ∧ s.phase = .decPixels ∧ s.run ≠ 0 ∧ s.pixelReady 0 := ⟨.inl rfl, rfl, by decide, ready_of (by decide)⟩

theorem witness_StepRunsOpcodeAtIp :
    let s := decoderAt 1 4 [0xFF, 1, 2, 3, 4]
    s.hostWaits ∧ s.phase = .decPixels ∧ s.run = 0 ∧ s.inputAt s.ip [0xFF, 1, 2, 3, 4] ∧
      decode [0xFF, 1, 2, 3, 4] = .ok (.rgba 1 2 3 4, []) ∧ s.lets 5 :=
  ⟨.inl rfl, rfl, rfl, inputAt_of (by decide), by decide, lets_of_ok (by decide)⟩

theorem witness_InsertingOpcodesFrame :
    (∃ t, exec (.diff 1 1 1) (decoderAt 1 4 []) = .next t ∧ (t.pix == 1) = true) ∧
      (∃ t, exec (.luma 1 1 1) (decoderAt 1 4 []) = .next t ∧ (t.pix == 1) = true) ∧
      (∃ t, exec (.rgb 1 1 1) (decoderAt 1 4 []) = .next t ∧ (t.pix == 1) = true) ∧
      ∃ t, exec (.rgba 1 1 1 1) (decoderAt 1 4 []) = .next t ∧ (t.pix == 1) = true :=
  ⟨next_of_runs (by decide), next_of_runs (by decide), next_of_runs (by decide), next_of_runs (by decide)⟩

theorem witness_IndexAndRunFrame :
    (∃ t, exec (.index 63) (decoderAt 1 4 []) = .next t ∧ (t.pix == 1) = true) ∧
      ∃ t, exec (.run 62) (decoderAt 1 4 []) = .next t ∧ (t.run == 61) = true :=
  ⟨next_of_runs (by decide), next_of_runs (by decide)⟩

/-- Both clauses: an op-code, and a repeat. -/
theorem witness_DecodeStepCursors :
    (∃ t, step (decoderAt 1 4 [0x05]) = .next t ∧ (t.phase != .error) = true) ∧
      ∃ t, step { decoderAt 2 4 [] with run := 1 } = .next t ∧ (t.phase != .error) = true :=
  ⟨next_of_steps (by decide), next_of_steps (by decide)⟩

/-- Both clauses: no byte at all, and the last byte of an RGBA missing. -/
theorem witness_TruncatedOpcodeRaisesEof :
    ((decoderAt 1 4 []).hostWaits ∧ (decoderAt 1 4 []).inLen ≤ (decoderAt 1 4 []).ip ∧ (decoderAt 1 4 []).lets 1) ∧
      (decoderAt 1 4 [0xFF, 1, 2, 3]).inputAt 14 [0xFF, 1, 2, 3] ∧ (decoderAt 1 4 [0xFF, 1, 2, 3]).inLen = 14 + 4 ∧
      (decoderAt 1 4 [0xFF, 1, 2, 3]).inLen < 14 + opLength 0xFF ∧ (decoderAt 1 4 [0xFF, 1, 2, 3]).lets 5 :=
  ⟨⟨.inl rfl, by decide, lets_of_ok (by decide)⟩, inputAt_of (by decide), rfl, by decide, lets_of_ok (by decide)⟩

/-- The reads of an op-code: its first, and the last of an RGBA of which only four bytes are there; and the last write of a RUN
and of a repeat. -/
theorem witness_FailedAccessRaisesIoFailure :
    (let s := { decoderAt 1 4 [] with oracle := failing 0 };
      s.hostWaits ∧ s.phase = .decPixels ∧ s.run = 0 ∧ s.lets 0 ∧ s.oracle[0]? = some .fail) ∧
      (let s := { decoderAt 1 4 [0xFF, 1, 2, 3] with oracle := failing 4 };
        4 < opLength 0xFF ∧ s.inputAt s.ip [0xFF, 1, 2, 3] ∧ s.lets 4 ∧ s.oracle[4]? = some .fail) ∧
      (let s := { decoderAt 1 4 [0xC0] with oracle := failing 4 };
        s.inputAt s.ip [0xC0] ∧ decode [0xC0] = .ok (.run 1, []) ∧ supportedChannels s.hdrChannels ∧ s.pix < s.npix ∧
          4 < [(0xC0 : Byte)].length + pixelWidth s.hdrChannels ∧ s.lets 4 ∧ s.oracle[4]? = some .fail) ∧
      let s := { decoderAt 2 4 [] with run := 1, oracle := failing 3 };
      s.run ≠ 0 ∧ supportedChannels s.hdrChannels ∧ s.pix < s.npix ∧ 3 < pixelWidth s.hdrChannels ∧ s.lets 3 ∧
        s.oracle[3]? = some .fail :=
  ⟨⟨.inl rfl, rfl, rfl, failing_fails rfl⟩, ⟨by decide, inputAt_of (by decide), failing_fails rfl⟩,
    ⟨inputAt_of (by decide), by decide, by decide, by decide, by decide, failing_fails rfl⟩, by decide, by decide, by decide,
    by decide, failing_fails rfl⟩

/-- The last read of the header parse step, and the last `Emit` of the header emit step. -/
theorem witness_FailedAccessRaisesIoFailure_header :
    (let bs := Magic.default.bytes ++ List.replicate 9 0;
      let s := { parserOf bs with oracle := failing 13 };
      s.hostWaits ∧ s.phase = .decHeader ∧ 4 ≤ s.inLen ∧ bs.length = 13 ∧ s.inputAt 0 bs ∧
        bs.take 4 = s.config.magic.bytes ∧ s.lets 13 ∧ s.oracle[13]? = some .fail) ∧
      let s := { emitterOf 1 1 3 0 [5, 5, 5] with oracle := failing 13 };
      s.hostWaits ∧ s.phase = .encHeader ∧ supportedChannels s.hdrChannels ∧ s.lets 13 ∧ s.oracle[13]? = some .fail :=
  ⟨⟨.inl rfl, rfl, by decide, rfl, inputAt_of (by decide), by decide, failing_fails rfl⟩, .inl rfl, rfl, by decide,
    failing_fails rfl⟩

/-- The encode pixel step: its `PixIn`, the `FD` at the cap, and the last `Emit` of a flush and a LUMA; and the last `Emit` of the
tail step. -/
theorem witness_FailedAccessRaisesIoFailure_encode :
    (let s := { encoderAt 2 4 (blacks 2) with oracle := failing 0 };
      s.hostWaits ∧ s.phase = .encPixels ∧ s.lets 0 ∧ s.oracle[0]? = some .fail) ∧
      (let s := { encoderAt 2 4 (blacks 2) with run := 61, oracle := failing 1 };
        s.pix < s.npix ∧ s.pixelAt s.pix s.px ∧ s.run.toNat = 61 ∧ s.lets 1 ∧ s.oracle[1]? = some .fail) ∧
      (let s := { encoderAt 2 4 [9, 9, 9, 255, 0, 0, 0, 255] with run := 61, oracle := failing 3 };
        s.pixelAt s.pix ⟨9, 9, 9, 255⟩ ∧ (⟨9, 9, 9, 255⟩ : Pixel) ≠ s.px ∧
          3 < 1 + (pendingRun s.run ++ encode (chooseOp s.cache ⟨9, 9, 9, 255⟩ s.px)).length ∧ s.lets 3 ∧
          s.oracle[3]? = some .fail) ∧
      let s := { encoderAt 1 4 [] with phase := .encTail, run := 1, oracle := failing 8 };
      s.hostWaits ∧ s.phase = .encTail ∧ 8 < (pendingRun s.run ++ endMarker).length ∧ s.lets 8 ∧ s.oracle[8]? = some .fail :=
  ⟨⟨.inl rfl, rfl, failing_fails rfl⟩, ⟨by decide, pixelAt_of (by decide), rfl, failing_fails rfl⟩,
    ⟨pixelAt_of (by decide), by decide, by decide, failing_fails rfl⟩, .inl rfl, rfl, by decide, failing_fails rfl⟩

theorem witness_IoFailureOnlyFromOracle :
    let s := { decoderAt 1 4 [0xC0] with oracle := [.ok, .fail] }
    s.err ≠ some .ioFailure ∧ ∃ t, step s = .next t ∧ (t.err == some .ioFailure) = true :=
  ⟨by decide, next_of_steps (by decide)⟩

/-- The three clauses, on a decoder with 3 channels: the alpha of `PX`, of a slot that an INDEX takes, and of an RGBA. -/
theorem witness_HiddenAlphaNeverReachesOut :
    (decoderAt 1 3 []).hdrChannels = 3 ∧
      (∃ t, exec (.diff 1 1 1) (decoderAt 1 3 []) = .next t ∧ (t.pix == 1) = true) ∧
      (∃ t, exec (.diff 1 1 1) { decoderAt 1 3 [] with px := ⟨0, 0, 0, 7⟩ } = .next t ∧ (t.pix == 1) = true) ∧
      (let c := Vector.replicate 64 (⟨0, 0, 0, 7⟩ : Pixel);
        (∀ h : Slot, (cacheRead c h).r = (cacheRead (decoderAt 1 3 []).cache h).r ∧
          (cacheRead c h).g = (cacheRead (decoderAt 1 3 []).cache h).g ∧
          (cacheRead c h).b = (cacheRead (decoderAt 1 3 []).cache h).b) ∧
        (∃ t, exec (.index 5) (decoderAt 1 3 []) = .next t ∧ (t.px == ⟨0, 0, 0, 0⟩) = true) ∧
        ∃ t, exec (.index 5) { decoderAt 1 3 [] with cache := c } = .next t ∧ (t.px == ⟨0, 0, 0, 7⟩) = true) ∧
      (∃ t, exec (.rgba 1 2 3 0) (decoderAt 1 3 []) = .next t ∧ (t.pix == 1) = true) ∧
      ∃ t, exec (.rgba 1 2 3 9) (decoderAt 1 3 []) = .next t ∧ (t.pix == 1) = true :=
  ⟨rfl, next_of_runs (by decide), next_of_runs (by decide),
    ⟨by decide, next_of_runs (by decide), next_of_runs (by decide)⟩, next_of_runs (by decide), next_of_runs (by decide)⟩

theorem witness_TrailingBytesAreIgnored :
    let s := decoderAt 1 4 [0xC0]
    s.hostWaits ∧ s.phase = .decPixels ∧ (∃ t, step s = .next t ∧ (t.phase != .error) = true) ∧
      ∀ k < s.inLen, Memory.read (decoderAt 1 4 [0xC0, 0xAA]).input k = Memory.read s.input k :=
  ⟨.inl rfl, rfl, next_of_steps (by decide), by decide⟩

theorem witness_BigEndianRoundTrip : be32bytes 0x01020304 = [1, 2, 3, 4] := by decide

theorem witness_HeaderParseResult :
    let s := parserOf [0x71, 0x6F, 0x69, 0x66, 0, 0, 0, 1, 0, 0, 0, 0, 3, 9]
    s.hostWaits ∧ s.phase = .decHeader ∧
      s.inputAt 0 (s.config.magic.bytes ++ be32bytes 1 ++ be32bytes 0 ++ [3, 9]) ∧ s.lets 14 ∧
      ({ s with ip := 14 } : State).cursorsFit = true :=
  ⟨.inl rfl, rfl, inputAt_of (by decide), lets_of_ok (by decide), rfl⟩

/-- The four clauses, each at its boundary. -/
theorem witness_HeaderParseErrors :
    (parserOf [0x71, 0x6F, 0x69]).inLen < 4 ∧
      ((parserOf [0x71, 0x6F, 0x69, 0x46]).inputAt 0 [0x71, 0x6F, 0x69, 0x46] ∧
        [0x71, 0x6F, 0x69, 0x46] ≠ Config.default.magic.bytes ∧ (parserOf [0x71, 0x6F, 0x69, 0x46]).lets 4) ∧
      (let s := parserOf (Magic.default.bytes ++ List.replicate 9 0);
        s.inputAt 0 (s.config.magic.bytes ++ List.replicate 9 0) ∧ s.inLen = 4 + (List.replicate 9 (0 : Byte)).length ∧
          (List.replicate 9 (0 : Byte)).length < 10 ∧ s.lets (s.inLen + 1)) ∧
      let s := parserOf (Magic.default.bytes ++ List.replicate 8 0 ++ [2, 0]);
      s.inputAt 0 (s.config.magic.bytes ++ List.replicate 8 0 ++ [2, 0]) ∧ (2 : Byte) ≠ 3 ∧ (2 : Byte) ≠ 4 ∧ s.lets 14 :=
  ⟨by decide, ⟨inputAt_of (by decide), by decide, lets_of_ok (by decide)⟩,
    ⟨inputAt_of (by decide), rfl, by decide, lets_of_ok (by decide)⟩, inputAt_of (by decide), by decide, by decide,
    lets_of_ok (by decide)⟩

theorem witness_HeaderEmitResult :
    ((emitterOf 1 1 3 0 []).hostWaits ∧ (emitterOf 1 1 3 0 []).phase = .encHeader ∧ (emitterOf 1 1 3 0 []).lets 14 ∧
        ({ emitterOf 1 1 3 0 [] with op := (emitterOf 1 1 3 0 []).op + 14 } : State).cursorsFit = true) ∧
      (emitterOf 1 1 5 0 []).hdrChannels ≠ 3 ∧ (emitterOf 1 1 5 0 []).hdrChannels ≠ 4 :=
  ⟨⟨.inl rfl, rfl, lets_of_ok (by decide), rfl⟩, by decide, by decide⟩

theorem witness_HeaderRoundTrip :
    (let e := emitterOf 1 2 4 9 [];
      e.hostWaits ∧ e.phase = .encHeader ∧ e.hdrChannels = 4 ∧ e.op = 0 ∧ e.sink = [] ∧ e.oracle = [] ∧
        e.config.cursorBits = none) ∧
      let d := parserOf [0x71, 0x6F, 0x69, 0x66, 0, 0, 0, 1, 0, 0, 0, 2, 4, 9];
      d.hostWaits ∧ d.phase = .decHeader ∧ d.config = (emitterOf 1 2 4 9 []).config ∧ d.oracle = [] ∧ d.ip = 0 ∧
        d.inLen = 14 ∧ d.input = Memory.ofBytes [0x71, 0x6F, 0x69, 0x66, 0, 0, 0, 1, 0, 0, 0, 2, 4, 9] :=
  ⟨⟨.inl rfl, rfl, rfl, rfl, rfl, rfl, rfl⟩, .inl rfl, rfl, rfl, rfl, rfl, rfl, rfl⟩

theorem witness_HashInAnyWidth : 6 ≤ 6 := by decide

theorem witness_CacheWritesOnlyCurrentPixel :
    (decoderAt 1 4 [0x7F]).hostWaits ∧
      ∃ t, step (decoderAt 1 4 [0x7F]) = .next t ∧ (cacheRead t.cache 4 != cacheRead emptyCache 4) = true :=
  ⟨.inl rfl, next_of_steps (by decide)⟩

/-- Both clauses: one pixel below the cap, and the pixel that reaches it. -/
theorem witness_RunPixelResult :
    (let s := { encoderAt 2 4 (blacks 2) with run := 60 };
      s.hostWaits ∧ s.phase = .encPixels ∧ s.pix < s.npix ∧ s.pixelAt s.pix s.px ∧ s.run.toNat < 61 ∧ s.lets 1) ∧
      let s := { encoderAt 2 4 (blacks 2) with run := 61 };
      s.pixelAt s.pix s.px ∧ s.run.toNat = 61 ∧ s.lets 2 :=
  ⟨⟨.inl rfl, rfl, by decide, pixelAt_of (by decide), by decide, lets_of_ok (by decide)⟩, pixelAt_of (by decide), rfl,
    lets_of_ok (by decide)⟩

theorem witness_NewPixelResult :
    let s := { encoderAt 2 4 [9, 9, 9, 255, 0, 0, 0, 255] with run := 61 }
    s.hostWaits ∧ s.phase = .encPixels ∧ s.pix < s.npix ∧ s.pixelAt s.pix ⟨9, 9, 9, 255⟩ ∧ (⟨9, 9, 9, 255⟩ : Pixel) ≠ s.px ∧
      s.lets (1 + (pendingRun s.run ++ encode (chooseOp s.cache ⟨9, 9, 9, 255⟩ s.px)).length) :=
  ⟨.inl rfl, rfl, by decide, pixelAt_of (by decide), by decide, lets_of_ok (by decide)⟩

/-- Whether `p` hits an empty cache, has the alpha of the start pixel, and has deltas to it for DIFF and for LUMA, in the terms
of the statement. -/
def choiceHypotheses (p : Pixel) : List Bool :=
  let dr := (p.r - Pixel.start.r).toInt
  let dg := (p.g - Pixel.start.g).toInt
  let db := (p.b - Pixel.start.b).toInt
  [cacheRead emptyCache (Machine.hash p) = p, p.a = Pixel.start.a,
    (-2 ≤ dr ∧ dr ≤ 1) ∧ (-2 ≤ dg ∧ dg ≤ 1) ∧ (-2 ≤ db ∧ db ≤ 1),
    (-32 ≤ dg ∧ dg ≤ 31) ∧ (-8 ≤ dr - dg ∧ dr - dg ≤ 7) ∧ (-8 ≤ db - dg ∧ db - dg ≤ 7)]

/-- The five clauses: a hit, a miss with another alpha, and the three kinds of deltas, each at a bound. -/
theorem witness_OpcodeChoicePriority :
    (choiceHypotheses ⟨0, 0, 0, 0⟩).head? = some true ∧ (choiceHypotheses ⟨10, 20, 30, 0⟩).take 2 = [false, false] ∧
      (choiceHypotheses ⟨254, 1, 254, 255⟩).take 3 = [false, true, true] ∧
      choiceHypotheses ⟨38, 31, 38, 255⟩ = [false, true, false, true] ∧
      choiceHypotheses ⟨32, 32, 32, 255⟩ = [false, true, false, false] := by decide

theorem witness_EmittedOpcodesAreWellFormed : (1 ≤ 1 ∧ 1 ≤ 62) ∧ (1 ≤ 62 ∧ 62 ≤ 62) := by decide

/-- The clauses for LUMA, RGB, RGBA and INDEX each have a pixel for which the encoder chooses that op-code. -/
theorem witness_EncodingsNeverProduced :
    chooseOp emptyCache ⟨2, 0, 0, 255⟩ Pixel.start = .luma 0 2 0 ∧
      chooseOp emptyCache ⟨8, 0, 0, 255⟩ Pixel.start = .rgb 8 0 0 ∧
      (∃ t, exec (.diff 1 1 1) (decoderAt 1 4 []) = .next t ∧ (t.phase != .error) = true) ∧
      chooseOp emptyCache ⟨1, 0, 0, 0⟩ Pixel.start = .rgba 1 0 0 0 ∧
      chooseOp emptyCache ⟨0, 0, 0, 0⟩ Pixel.start = .index 0 :=
  ⟨by decide, by decide, next_of_runs (by decide), by decide, by decide⟩

theorem witness_ChosenOpcodeReproducesPixel :
    (decoderAt 1 4 []).pixelReady (chooseOp (decoderAt 1 4 []).cache ⟨8, 0, 0, 255⟩ (decoderAt 1 4 []).px).length :=
  ready_of (by decide)

theorem witness_ThreeChannelEncodeNeverRgba :
    let s := encoderAt 1 3 [5, 5, 5]
    s.Inv ∧ s.phase = .encPixels ∧ s.hdrChannels = 3 ∧ s.pixelAt s.pix ⟨5, 5, 5, 255⟩ :=
  ⟨invariant_at_encoder, rfl, rfl, .inr ⟨rfl, by decide, rfl⟩⟩

theorem witness_TailResult :
    let s := { encoderAt 1 4 [] with phase := .encTail, run := 61 }
    s.hostWaits ∧ s.phase = .encTail ∧ s.lets (pendingRun s.run ++ [0, 0, 0, 0, 0, 0, 0, 1]).length ∧
      ({ s with op := s.op + (pendingRun s.run ++ [0, 0, 0, 0, 0, 0, 0, 1]).length } : State).cursorsFit = true :=
  ⟨.inl rfl, rfl, lets_of_ok (by decide), rfl⟩

/-- Both clauses, the first with the bound met exactly. -/
theorem witness_EncoderOutputBound :
    (let s := encoderAt 1 4 [9, 9, 9, 0];
      s.hostWaits ∧ s.run.toNat ≤ 61 ∧ s.op + (pendingRun s.run).length ≤ 14 + 5 * s.pix ∧ s.phase = .encPixels ∧
        ∃ t, step s = .next t ∧ (t.op == 14 + 5) = true) ∧
      let s := { encoderAt 1 4 [] with phase := .encTail, run := 1, pix := 1 };
      s.op + (pendingRun s.run).length ≤ 14 + 5 * s.pix ∧ ∃ t, step s = .next t ∧ (t.op == 14 + 1 + 8) = true :=
  ⟨⟨.inl rfl, by decide, by decide, rfl, next_of_steps (by decide)⟩, by decide, next_of_steps (by decide)⟩

theorem witness_EncoderStepsFrame :
    (∃ t, step (emitterOf 1 1 3 0 [5, 5, 5]) = .next t ∧ (t.op == 14) = true) ∧
      (∃ t, step (encoderAt 1 3 [5, 5, 5]) = .next t ∧ (t.op == 16) = true) ∧
      ∃ t, step { encoderAt 1 3 [] with phase := .encTail } = .next t ∧ (t.op == 22) = true :=
  ⟨next_of_steps (by decide), next_of_steps (by decide), next_of_steps (by decide)⟩

set_option maxRecDepth 4000 in
theorem witness_RunCapOverManyPixels :
    let s := encoderAt 63 4 (blacks 63)
    s.phase = .encPixels ∧ s.host = [] ∧ s.oracle = [] ∧ s.config.cursorBits = none ∧ s.run = 0 ∧ s.pix + 63 ≤ s.npix ∧
      ∀ j < 63, s.pixelAt (s.pix + j) s.px := by
  refine ⟨rfl, rfl, rfl, rfl, rfl, by decide, fun j hj => pixelAt_of ?_⟩
  revert j
  decide

theorem witness_EveryRunEnds :
    ((parserOf [0x71, 0x6F]).Inv ∧ (parserOf [0x71, 0x6F]).host = [] ∧ (parserOf [0x71, 0x6F]).phase = .decHeader) ∧
      (emitterOf 1 1 3 0 [5, 5, 5]).Inv ∧ (emitterOf 1 1 3 0 [5, 5, 5]).host = [] ∧
      (emitterOf 1 1 3 0 [5, 5, 5]).config.cursorBits = none ∧ (emitterOf 1 1 3 0 [5, 5, 5]).phase = .encHeader :=
  ⟨⟨invariant_at_parser, rfl, rfl⟩, invariant_at_emitter, rfl, rfl, rfl⟩

/-- The clauses: a decode run that reaches `DONE`, an encode run that does, an error, and a run that goes on. -/
theorem witness_ResultsAreWhole :
    ((decoderAt 1 4 [0x05]).Inv ∧ (decoderAt 1 4 [0x05]).hostWaits ∧
        ∃ t, step (decoderAt 1 4 [0x05]) = .next t ∧ (t.phase == .done) = true) ∧
      (∃ t, step { encoderAt 1 3 [5, 5, 5] with phase := .encTail, pix := 1, ip := 3, run := 1 } = .next t ∧
        (t.phase == .done) = true) ∧
      ((parserOf [0x71, 0x6F]).Inv ∧ ∃ t, step (parserOf [0x71, 0x6F]) = .next t ∧ (t.phase == .error) = true) ∧
      (emitterOf 1 1 3 0 [5, 5, 5]).Inv ∧ ∃ t, step (emitterOf 1 1 3 0 [5, 5, 5]) = .next t ∧ (t.phase == .encPixels) = true :=
  ⟨⟨invariant_at_decoder, .inl rfl, next_of_steps (by decide)⟩, next_of_steps (by decide),
    ⟨invariant_at_parser, next_of_steps (by decide)⟩, invariant_at_emitter, next_of_steps (by decide)⟩

/-- Both clauses: a decode run and an encode run of two blocks with different pasts. -/
theorem witness_RunsAreIndependent :
    (let s := commanded (.startDecode [1]);
      let s' := { commanded (.startDecode [1]) with phase := .error, err := some .ioFailure, px := ⟨1, 2, 3, 4⟩ };
      busy s.phase = false ∧ busy s'.phase = false ∧ s'.config = s.config ∧ s'.oracle = s.oracle ∧
        s.host = [.command (.startDecode [1])] ∧ s'.host = s.host ∧ ∃ t, core.run 2 s = .next t) ∧
      let s := commanded (.startEncode 1 1 3 0 [5, 5, 5]);
      let s' := { commanded (.startEncode 1 1 3 0 [5, 5, 5]) with phase := .done, input := [(0, 1)], inLen := 1 };
      busy s'.phase = false ∧ s'.host = s.host ∧ ∃ t, core.run 4 s = .next t :=
  ⟨⟨rfl, rfl, rfl, rfl, rfl, rfl, _, rfl⟩, rfl, rfl, _, rfl⟩

theorem witness_DecodeOfEncodeRun :
    let s := commanded (.startEncode 1 1 3 0 [5, 5, 5])
    busy s.phase = false ∧ s.oracle = [] ∧ s.config.cursorBits = none ∧
      s.host = [.command (.startEncode 1 1 3 0 [5, 5, 5])] ∧ ((3 : Byte) = 3 ∨ (3 : Byte) = 4) ∧
      [5, 5, (5 : Byte)].length = (1 : U32).toNat * (1 : U32).toNat * (3 : Byte).toNat ∧
      busy (commanded (.startDecode [1])).phase = false ∧ (commanded (.startDecode [1])).oracle = [] ∧
      (commanded (.startDecode [1])).config = s.config :=
  ⟨rfl, rfl, rfl, rfl, .inl rfl, by decide, rfl, rfl, rfl⟩

/-- The clause with the invariant, on both sides of its equivalence. -/
theorem witness_HostReadsRegisters :
    ((decoderAt 1 4 [0x05]).Inv ∧ hostRead .err (decoderAt 1 4 [0x05]) = 0 ∧ hostRead .phase (decoderAt 1 4 [0x05]) = 2) ∧
      let s := { decoderAt 1 4 [0x05] with phase := .error, err := some .unsupportedChannelCount };
      s.Inv ∧ hostRead .err s = 4 ∧ hostRead .phase s = 7 :=
  ⟨⟨invariant_at_decoder, rfl, rfl⟩, invariant_at_error, rfl, rfl⟩

end Sys2Proof.Tests
end

section
/-! PROOFS. The invariant of the block: what builds it in each phase, which operations keep it, and that every step does (R22,
R25, R28-R31, R50, R56, R118, R187, R190); with it the phases a step can lead to (R20) and what the host reads (R37). -/

namespace Sys2Proof.Machine

/-! ### The slots of the cache -/

/-- Every slot holds {0,0,0,0} or a pixel whose hash is its number: the clause `State.Inv.slots`, said of a cache (R118). -/
def slotsHashed (c : Vector Pixel 64) : Prop := ∀ h : Slot, cacheRead c h = Pixel.zero ∨ hash (cacheRead c h) = h

theorem slotsHashed_emptyCache : slotsHashed emptyCache := fun h => .inl (cacheRead_emptyCache h)

theorem slotsHashed_cacheInsert {c : Vector Pixel 64} (h : slotsHashed c) (p : Pixel) : slotsHashed (cacheInsert c p) := by
  intro i
  rw [cacheRead_cacheInsert]
  split_ifs with hi
  · exact .inr hi.symm
  · exact h i

/-! ### The invariant in each phase -/

/-- The clauses of `State.Inv` that hold in every phase alike. -/
structure State.InvCommon (s : State) : Prop where
  wfInput : Memory.wf s.input
  wfPixin : Memory.wf s.pixin
  wfOut : Memory.wf s.out
  wfSink : Memory.wf s.sink
  run : s.run.toNat ≤ 61
  slots : slotsHashed s.cache

theorem State.Inv.common {s : State} (h : s.Inv) : s.InvCommon := { h with }

theorem State.Inv.err_eq_none {s : State} (h : s.Inv) (hp : s.phase ≠ .error) : s.err = none :=
  not_not.1 (mt h.err.1 hp)

/-- What the invariant asks of a decode run between two pixels (R25, R29, R30, R31, R50, R56). -/
theorem State.InvCommon.inv_of_decPixels {s : State} (h : s.InvCommon) (hp : s.phase = .decPixels) (he : s.err = none)
    (hc : supportedChannels s.hdrChannels) (hlt : s.pix < s.npix) (hin : ∀ k < s.inLen, Memory.lists s.input k)
    (hdec : s.op = s.pix * s.channels ∧ headerBytes ≤ s.ip ∧ s.ip ≤ s.inLen ∧ ∀ k, Memory.lists s.out k ↔ k < s.op) :
    s.Inv :=
  { h with
    err := by simp [he, hp], channels := fun _ => hc, pixLe := hlt.le, pixLt := fun _ => hlt, input := fun _ => hin
    decPixels := fun _ => hdec, pixEq := by simp [hp], pixin := by simp [hp], decHeader := by simp [hp]
    encHeader := by simp [hp], encPixels := by simp [hp], alpha := by simp [hp], done := by simp [hp] }

/-- What the invariant asks of an encode run past its header (R25, R29, R30, R31, R50, R190). -/
theorem State.InvCommon.inv_of_encoding {s : State} (h : s.InvCommon)
    (hp : (s.phase = .encPixels ∧ s.pix < s.npix) ∨ (s.phase = .encTail ∧ s.pix = s.npix)) (he : s.err = none)
    (hc : supportedChannels s.hdrChannels) (hpixin : ∀ k < s.arraySize, Memory.lists s.pixin k)
    (henc : s.ip = s.pix * s.channels ∧ headerBytes ≤ s.op ∧ ∀ k, Memory.lists s.sink k ↔ k < s.op)
    (ha : s.hdrChannels = 3 → s.px.a = 255) : s.Inv := by
  have hle : s.pix ≤ s.npix := by omega
  refine
    { h with
      channels := fun _ => hc, pixLe := hle, pixin := fun _ _ => hpixin, encPixels := fun _ => henc, alpha := fun _ => ha
      err := ?_, pixLt := ?_, pixEq := ?_, input := ?_, decHeader := ?_, encHeader := ?_, decPixels := ?_, done := ?_ }
  all_goals obtain ⟨hp, hpix⟩ | ⟨hp, hpix⟩ := hp <;> simp [hp, he, hpix]

/-- What the invariant asks of a run that is over (R25, R29, R56, R187). -/
theorem State.InvCommon.inv_of_done {s : State} (h : s.InvCommon) (hp : s.phase = .done) (he : s.err = none)
    (hc : supportedChannels s.hdrChannels) (heq : s.pix = s.npix)
    (hres : (s.op = s.arraySize ∧ ∀ k, Memory.lists s.out k ↔ k < s.op) ∨
      (22 ≤ s.op ∧ ∀ k, Memory.lists s.sink k ↔ k < s.op)) : s.Inv :=
  { h with
    err := by simp [he, hp], channels := fun _ => hc, pixLe := heq.le, pixEq := fun _ => heq, done := fun _ => hres
    pixLt := by simp [hp], input := by simp [hp], pixin := by simp [hp], decHeader := by simp [hp]
    encHeader := by simp [hp], decPixels := by simp [hp], encPixels := by simp [hp], alpha := by simp [hp] }

/-! ### What keeps the invariant -/

/-- The invariant says nothing of the oracle's answers or of the host's moves. -/
theorem State.Inv.withPlans {s : State} (h : s.Inv) (o : List IoAnswer) (m : List HostMove) :
    ({ s with oracle := o, host := m } : State).Inv := { h with }

theorem State.Inv.used {s : State} (h : s.Inv) (n : Nat) : (s.used n).Inv := h.withPlans _ _

theorem State.Inv.afterWait {s : State} (h : s.Inv) : s.afterWait.Inv := h.withPlans _ _

/-- Error entry keeps the invariant in every phase (R235). -/
theorem State.Inv.raised {s : State} (h : s.Inv) (e : ErrorKind) (o : List IoAnswer) :
    (errorEntry e { s with oracle := o }).Inv :=
  { h with
    err := by simp, channels := by simp, pixLt := by simp, pixEq := by simp, input := by simp, pixin := by simp
    decHeader := by simp, encHeader := by simp, decPixels := by simp, encPixels := by simp, alpha := by simp
    done := by simp }

/-- Past the header a step may write `RUN` and the cache, within R28 and R118. -/
theorem State.Inv.withRunCache {s : State} {r : BitVec 6} {c : Vector Pixel 64} (h : s.Inv)
    (hp : s.phase ≠ .decHeader ∧ s.phase ≠ .encHeader) (hr : r.toNat ≤ 61) (hc : slotsHashed c) :
    ({ s with run := r, cache := c } : State).Inv :=
  { h with run := hr, slots := hc, decHeader := fun h' => absurd h' hp.1, encHeader := fun h' => absurd h' hp.2 }

theorem State.Inv.withRun {s : State} {r : BitVec 6} (h : s.Inv) (hp : s.phase ≠ .decHeader ∧ s.phase ≠ .encHeader)
    (hr : r.toNat ≤ 61) : ({ s with run := r } : State).Inv := h.withRunCache hp hr h.slots

/-! ### Host commands -/

theorem inv_resetCommand (s : State) : (resetCommand s).Inv := by
  constructor
  case slots => exact slotsHashed_emptyCache
  all_goals simp [Memory.wf]

theorem State.Inv.startDecode {s : State} (h : s.Inv) (bs : List Byte) : (startDecode bs s).Inv := by
  constructor
  case wfInput => exact Memory.ofBytes_wf bs
  case wfPixin => exact h.wfPixin
  case input => exact fun _ _ => Memory.lists_ofBytes.2
  case slots => exact slotsHashed_emptyCache
  all_goals simp [Memory.wf]

/-- `START_ENCODE` with a `PIXIN` of the length R212 asks for. -/
theorem State.Inv.startEncode {s : State} {w ht : U32} {ch cs : Byte} {bs : List Byte} (h : s.Inv)
    (hlen : pixinLengthOk w ht ch bs = true) : (startEncode w ht ch cs bs s).Inv := by
  constructor
  case wfInput => exact h.wfInput
  case wfPixin => exact Memory.ofBytes_wf bs
  case wfOut => exact h.wfOut
  case pixin => exact fun _ hc _ hk => Memory.lists_ofBytes.2 (lt_of_lt_of_eq hk (of_decide_eq_true hlen hc).symm)
  case slots => exact slotsHashed_emptyCache
  all_goals simp [Memory.wf]

/-- What a host command that ends in a next state was: no effect while busy, or one of the three commands (R210-R213). -/
theorem hostCommand_eq_next {c : HostCommand} {s t : State} (h : hostCommand c s = .next t) :
    (busy s.phase = true ∧ t = s) ∨ (c = .reset ∧ t = resetCommand s) ∨
      (∃ bs, c = .startDecode bs ∧ busy s.phase = false ∧ t = startDecode bs s) ∨
      ∃ w ht ch cs bs, c = .startEncode w ht ch cs bs ∧ busy s.phase = false ∧ pixinLengthOk w ht ch bs = true ∧
        t = startEncode w ht ch cs bs s := by
  cases c with
  | reset =>
    cases h
    exact .inr (.inl ⟨rfl, rfl⟩)
  | startDecode bs =>
    simp only [hostCommand] at h
    split_ifs at h with hb <;> cases h
    · exact .inl ⟨hb, rfl⟩
    · exact .inr (.inr (.inl ⟨bs, rfl, by simpa using hb, rfl⟩))
  | startEncode w ht ch cs bs =>
    simp only [hostCommand] at h
    split_ifs at h with hb hlen <;> cases h
    · exact .inl ⟨hb, rfl⟩
    · exact .inr (.inr (.inr ⟨w, ht, ch, cs, bs, rfl, by simpa using hb, hlen, rfl⟩))

theorem State.Inv.hostCommand {s t : State} {c : HostCommand} (h : s.Inv) (hs : hostCommand c s = .next t) : t.Inv := by
  rcases hostCommand_eq_next hs with
    ⟨-, rfl⟩ | ⟨-, rfl⟩ | ⟨bs, -, -, rfl⟩ | ⟨w, ht, ch, cs, bs, -, -, hlen, rfl⟩
  · exact h
  · exact inv_resetCommand s
  · exact h.startDecode bs
  · exact h.startEncode hlen

/-! ### The decoder -/

/-- A latched header begins a pixel phase, or ends the run of an image with no pixels (R93). -/
theorem State.Inv.headerParse {s t : State} (h : s.Inv) (hp : s.phase = .decHeader) (hs : headerParse s = .next t) :
    t.Inv := by
  rcases headerParse_eq_next hs with ⟨bs, -, ⟨hin, -⟩, hlen, hl, -⟩ | ⟨e, o, -, rfl⟩
  · obtain ⟨hc, rfl⟩ := latchHeader_eq_done.1 hl
    obtain ⟨hpix, -, hop, -, -, -, hout, -⟩ := h.decHeader hp
    have herr := h.err_eq_none (by simp [hp])
    rw [List.length_append, hlen, Magic.bytes_length] at hin
    by_cases hz : (be32 (headerByte bs 4) (headerByte bs 5) (headerByte bs 6) (headerByte bs 7)).toNat *
        (be32 (headerByte bs 8) (headerByte bs 9) (headerByte bs 10) (headerByte bs 11)).toNat = 0
    · refine State.InvCommon.inv_of_done { h.common with } (if_pos hz) herr hc ?_ (.inl ⟨?_, ?_⟩)
      · exact hpix.trans hz.symm
      · simp [hop, State.arraySize, State.npix, hz]
      · simp [hop, hout]
    · refine State.InvCommon.inv_of_decPixels { h.common with } (if_neg hz) herr hc ?_ (h.input (.inl hp)) ⟨?_, ?_, ?_, ?_⟩
      · exact lt_of_eq_of_lt hpix (Nat.pos_of_ne_zero hz)
      · simp [hop, hpix]
      · simp [headerBytes]
      · simpa using hin
      · simp [hop, hout]
  · exact h.raised e o

/-- A pixel produced where the invariant holds: `OUT` is written exactly below the new `OP` (R31, R56, R139, R140, R141). -/
theorem State.Inv.pixelDone {s : State} (h : s.Inv) (hp : s.phase = .decPixels) (p : Pixel) : (s.pixelDone p).Inv := by
  have hc := h.channels (.inl hp)
  have hlt := h.pixLt (.inl hp)
  have herr := h.err_eq_none (by simp [hp])
  obtain ⟨hop, hlo, hhi, hout⟩ := h.decPixels hp
  have hcommon : (s.pixelDone p).InvCommon := { h.common with wfOut := Memory.writeRange_wf h.wfOut _ _ }
  have hlists : ∀ k, Memory.lists (s.pixelDone p).out k ↔ k < (s.pixelDone p).op := by
    intro k
    have hend : (s.pix + 1) * s.channels = s.pix * s.channels + s.channels := Nat.succ_mul _ _
    rw [State.pixelDone_out, State.pixelDone_op, Memory.lists_writeRange, pixelBytes_length, pixelWidth_of_supported hc, hout]
    omega
  by_cases hend : s.pix + 1 = s.npix
  · exact hcommon.inv_of_done (if_pos hend) herr hc hend (.inl ⟨by simp [State.arraySize, hend], hlists⟩)
  · exact hcommon.inv_of_decPixels ((if_neg hend).trans hp) herr hc (by simp; omega) (h.input (.inr hp))
      ⟨rfl, hlo, hhi, hlists⟩

/-- A RUN byte is below FE, so it encodes at most 62 repeats (R71, R75). -/
theorem bits_le_of_tagOf_run : ∀ b0 : Byte, tagOf b0 = .run → bits b0 5 0 ≤ 61 := by decide

theorem run_le_of_decode {bs rest : List Byte} {n : Nat} (h : decode bs = .ok (.run n, rest)) : n ≤ 62 := by
  cases bs with
  | nil => simp [decode] at h
  | cons b0 bs =>
    unfold decode at h
    cases ht : tagOf b0 <;> simp only [ht] at h
    case run =>
      obtain ⟨rfl, -⟩ : bits b0 5 0 + 1 = n ∧ bs = rest := by simpa [decodeRun] using h
      have := bits_le_of_tagOf_run b0 ht
      omega
    case index => simp [decodeIndex] at h
    case diff => simp [decodeDiff] at h
    all_goals split at h <;> simp [decodeLuma] at h

theorem opState_run_le {i : Instr} {s : State} {bs rest : List Byte} (hd : decode bs = .ok (i, rest))
    (hr : s.run.toNat ≤ 61) : (opState i s).run.toNat ≤ 61 := by
  cases i with
  | run n =>
    have hn := run_le_of_decode hd
    simp only [opState, runRepeats, BitVec.toNat_ofNat]
    omega
  | _ => exact hr

/-- What a decoded op-code that lies in `IN` writes besides its pixel keeps the invariant. -/
theorem State.Inv.opState {s : State} {i : Instr} {bs rest : List Byte} (h : s.Inv) (hp : s.phase = .decPixels)
    (hd : decode bs = .ok (i, rest)) (hip : s.ip + i.length ≤ s.inLen) : (opState i s).Inv := by
  have hrun := opState_run_le hd h.run
  obtain ⟨c, r, hs, hc⟩ := opState_eq i s
  rw [hs] at hrun ⊢
  have hslots : slotsHashed c := by
    rcases hc with rfl | rfl
    · exact h.slots
    · exact slotsHashed_cacheInsert h.slots _
  obtain ⟨hop, hlo, -, hout⟩ := h.decPixels hp
  exact
    { h.withRunCache (by simp [hp]) hrun hslots with
      decHeader := by simp [hp], encHeader := by simp [hp], encPixels := by simp [hp]
      decPixels := fun _ => ⟨hop, Nat.le_add_right_of_le hlo, hip, hout⟩ }

theorem State.Inv.decodePixel {s t : State} (h : s.Inv) (hp : s.phase = .decPixels) (hs : decodePixel s = .next t) :
    t.Inv := by
  rcases decodePixel_eq_next hs with ⟨hr, -, -, rfl, -⟩ | ⟨-, bs, i, ⟨hin, -⟩, hlen, hd, -, -, -, rfl, -⟩ | ⟨e, o, -, -, rfl⟩
  · have hrun : (s.run - 1).toNat ≤ 61 := by
      have := h.run
      bv_omega
    exact (h.withRun (by simp [hp]) hrun).pixelDone hp _
  · exact ((h.used _).opState hp hd (by simpa [hlen] using hin)).pixelDone (by simpa using hp) _
  · exact h.raised e o

/-! ### The encoder -/

/-- Appending keeps `SINK` written exactly below `OP` (R31, R67). -/
theorem lists_emitted {s : State} (h : ∀ k, Memory.lists s.sink k ↔ k < s.op) (bs : List Byte) (k : Nat) :
    Memory.lists (s.emitted bs).sink k ↔ k < (s.emitted bs).op := by
  rw [State.emitted_sink, State.emitted_op, Memory.lists_writeRange, h]
  omega

theorem State.InvCommon.emitted {s : State} (h : s.InvCommon) (bs : List Byte) : (s.emitted bs).InvCommon :=
  { h with wfSink := Memory.writeRange_wf h.wfSink _ _ }

/-- Past the header, bytes appended to `SINK` keep the invariant. -/
theorem State.Inv.emitted {s : State} (h : s.Inv) (hp : s.phase = .encPixels) (bs : List Byte) : (s.emitted bs).Inv := by
  obtain ⟨hip, hlo, hsink⟩ := h.encPixels (.inl hp)
  exact
    { h with
      wfSink := (h.common.emitted bs).wfSink
      encPixels := fun _ => ⟨hip, Nat.le_add_right_of_le hlo, lists_emitted hsink bs⟩
      decHeader := by simp [hp], encHeader := by simp [hp], decPixels := by simp [hp], done := by simp [hp] }

/-- The header bytes begin a pixel phase, or the tail of an image with no pixels (R96). -/
theorem State.Inv.headerEmit {s t : State} (h : s.Inv) (hp : s.phase = .encHeader) (hs : headerEmit s = .next t) :
    t.Inv := by
  rcases headerEmit_eq_next hs with ⟨hc, -, rfl, -⟩ | ⟨e, o, -, -, rfl⟩
  · obtain ⟨hpix, hip, hop, -, hpx, -, hsink⟩ := h.encHeader hp
    refine State.InvCommon.inv_of_encoding { h.common.emitted (headerOf s) with } ?_ (h.err_eq_none (by simp [hp])) hc
      (h.pixin (.inl hp) hc) ⟨?_, ?_, ?_⟩ ?_
    · by_cases hz : s.npix = 0
      · exact .inr ⟨if_pos hz, hpix.trans hz.symm⟩
      · exact .inl ⟨if_neg hz, lt_of_eq_of_lt hpix (Nat.pos_of_ne_zero hz)⟩
    · simp [hip, hpix]
    · simp [headerBytes]
    · exact lists_emitted (by simp [hsink, hop]) _
    · simp [hpx, Pixel.start]
  · exact h.raised e o

/-- Classification writes neither `PHASE` nor `HDR_CHANNELS`. -/
theorem classify_frame {p : Pixel} {s t : State} {u : Unit} (h : classify p s = .done u t) :
    t.phase = s.phase ∧ t.hdrChannels = s.hdrChannels := by
  rcases classify_eq_done.1 h with ⟨-, -, rfl⟩ | ⟨-, -, -, rfl⟩ | ⟨-, -, rfl⟩ <;> exact ⟨rfl, rfl⟩

/-- Run extension, the RUN of 62 at the cap, and a new op-code keep the invariant (R172, R173, R177). -/
theorem State.Inv.classify {p : Pixel} {s t : State} {u : Unit} (h : s.Inv) (hp : s.phase = .encPixels)
    (hs : classify p s = .done u t) : t.Inv := by
  have hph : s.phase ≠ .decHeader ∧ s.phase ≠ .encHeader := by simp [hp]
  rcases classify_eq_done.1 hs with ⟨-, hr, rfl⟩ | ⟨-, -, -, rfl⟩ | ⟨-, -, rfl⟩
  · have hrun : (s.run + 1).toNat ≤ 61 := by
      have := h.run
      bv_omega
    exact h.withRun hph hrun
  · exact (h.emitted hp _).withRun hph (by simp)
  · exact (h.emitted hp _).withRunCache hph (by simp) (slotsHashed_cacheInsert h.slots p)

theorem State.pixelAt_alpha {s : State} {i : Nat} {p : Pixel} (h : s.pixelAt i p) (h3 : s.hdrChannels = 3) :
    p.a = 255 := by
  rcases h with ⟨h4, -⟩ | ⟨-, -, ha⟩
  · rw [h3] at h4
    exact absurd h4 (by decide)
  · exact ha

/-- The end of an encode pixel step: the next pixel, or the tail (R183, R184). -/
theorem State.Inv.advanceEncoder {s : State} {p : Pixel} (h : s.Inv) (hp : s.phase = .encPixels)
    (ha : s.hdrChannels = 3 → p.a = 255) : (advanceEncoder p s).Inv := by
  have hc := h.channels (.inr (.inl hp))
  have hlt := h.pixLt (.inr hp)
  obtain ⟨hip, hlo, hsink⟩ := h.encPixels (.inl hp)
  refine State.InvCommon.inv_of_encoding { h.common with } ?_ (h.err_eq_none (by simp [hp])) hc (h.pixin (.inr hp) hc)
    ⟨?_, hlo, hsink⟩ ha
  · by_cases hend : s.pix + 1 = s.npix
    · exact .inr ⟨if_pos hend, hend⟩
    · exact .inl ⟨(if_neg hend).trans hp, by simp; omega⟩
  · simp [hip, Nat.succ_mul]

theorem State.Inv.encodePixel {s t : State} (h : s.Inv) (hp : s.phase = .encPixels) (hs : encodePixel s = .next t) :
    t.Inv := by
  rcases encodePixel_eq_next hs with ⟨p, s', -, -, hat, hcl, rfl, -⟩ | ⟨o, -, rfl⟩
  · obtain ⟨hphase, hch⟩ := classify_frame hcl
    refine ((h.used 1).classify hp hcl).advanceEncoder (hphase.trans hp) fun h3 => ?_
    exact State.pixelAt_alpha hat (hch.symm.trans h3)
  · exact h.raised _ o

/-- The tail ends the run with `SINK` whole: at least the header and the end marker (R185, R187). -/
theorem State.Inv.encodeTail {s t : State} (h : s.Inv) (hp : s.phase = .encTail) (hs : encodeTail s = .next t) : t.Inv := by
  rcases encodeTail_eq_next hs with ⟨-, rfl, -⟩ | ⟨o, -, rfl⟩
  · obtain ⟨-, hlo, hsink⟩ := h.encPixels (.inr hp)
    refine State.InvCommon.inv_of_done { h.common.emitted (pendingRun s.run ++ endMarker) with run := by simp } rfl
      (h.err_eq_none (by simp [hp])) (h.channels (.inr (.inr (.inl hp)))) (h.pixEq (.inl hp))
      (.inr ⟨?_, lists_emitted hsink _⟩)
    simp only [headerBytes] at hlo
    simp [endMarker]
    omega
  · exact h.raised _ o

/-! ### Every step -/

theorem State.Inv.engineStep {s t : State} (h : s.Inv) (hw : s.hostWaits) (hs : step s = .next t) : t.Inv := by
  rcases engineStep_cases hw hs with ⟨hp, hs⟩ | ⟨hp, hs⟩ | ⟨hp, hs⟩ | ⟨hp, hs⟩ | ⟨hp, hs⟩ | ⟨-, rfl⟩
  · exact h.afterWait.headerParse hp hs
  · exact h.afterWait.decodePixel hp hs
  · exact h.afterWait.headerEmit hp hs
  · exact h.afterWait.encodePixel hp hs
  · exact h.afterWait.encodeTail hp hs
  · exact h.afterWait

/-- Settles O17: a host command begins anew or changes nothing, and each engine step keeps the invariant of its phase. -/
theorem everyStepKeepsInvariant : Obligations.EveryStepKeepsInvariant := by
  unfold Obligations.EveryStepKeepsInvariant
  intro s t h hs
  rcases waits_or_command s with hw | ⟨c, rest, hc⟩
  · exact h.engineStep hw hs
  · rw [step_of_command hc] at hs
    exact (h.withPlans s.oracle rest).hostCommand hs

/-! ### The phases a step can lead to -/

theorem headerParse_phase {s t : State} (h : headerParse s = .next t) : t.phase ∈ phaseSuccessors .decHeader := by
  rcases headerParse_eq_next h with ⟨bs, -, -, -, hl, -⟩ | ⟨e, o, -, rfl⟩
  · obtain ⟨-, rfl⟩ := latchHeader_eq_done.1 hl
    simp only [phaseSuccessors]
    split_ifs <;> simp
  · simp [phaseSuccessors]

theorem pixelDone_phase_mem {s : State} (hp : s.phase = .decPixels) (p : Pixel) :
    (s.pixelDone p).phase ∈ phaseSuccessors .decPixels := by
  rw [State.pixelDone_phase, hp]
  split_ifs <;> simp [phaseSuccessors]

theorem decodePixel_phase {s t : State} (hp : s.phase = .decPixels) (h : decodePixel s = .next t) :
    t.phase ∈ phaseSuccessors .decPixels := by
  rcases decodePixel_eq_next h with ⟨-, -, -, rfl, -⟩ | ⟨-, bs, i, -, -, -, -, -, -, rfl, -⟩ | ⟨e, o, -, -, rfl⟩
  · exact pixelDone_phase_mem (s := { s with run := s.run - 1 }) hp _
  · exact pixelDone_phase_mem (by simpa using hp) _
  · simp [phaseSuccessors]

theorem headerEmit_phase {s t : State} (h : headerEmit s = .next t) : t.phase ∈ phaseSuccessors .encHeader := by
  rcases headerEmit_eq_next h with ⟨-, -, rfl, -⟩ | ⟨e, o, -, -, rfl⟩
  · simp only [phaseSuccessors]
    split_ifs <;> simp
  · simp [phaseSuccessors]

theorem encodePixel_phase {s t : State} (hp : s.phase = .encPixels) (h : encodePixel s = .next t) :
    t.phase ∈ phaseSuccessors .encPixels := by
  rcases encodePixel_eq_next h with ⟨p, s', -, -, -, hcl, rfl, -⟩ | ⟨o, -, rfl⟩
  · have hphase : s'.phase = .encPixels := (classify_frame hcl).1.trans hp
    rw [advanceEncoder_phase, hphase]
    split_ifs <;> simp [phaseSuccessors]
  · simp [phaseSuccessors]

theorem encodeTail_phase {s t : State} (h : encodeTail s = .next t) : t.phase ∈ phaseSuccessors .encTail := by
  rcases encodeTail_eq_next h with ⟨-, rfl, -⟩ | ⟨o, -, rfl⟩ <;> simp [phaseSuccessors]

/-- Settles O14, by the engine step of each phase. -/
theorem phaseTransitions : Obligations.PhaseTransitions := by
  unfold Obligations.PhaseTransitions
  intro s t hw hs
  rcases engineStep_cases hw hs with ⟨hp, hs⟩ | ⟨hp, hs⟩ | ⟨hp, hs⟩ | ⟨hp, hs⟩ | ⟨hp, hs⟩ | ⟨hp, rfl⟩
  · rw [hp]
    exact headerParse_phase hs
  · rw [hp]
    exact decodePixel_phase (s := s.afterWait) hp hs
  · rw [hp]
    exact headerEmit_phase hs
  · rw [hp]
    exact encodePixel_phase (s := s.afterWait) hp hs
  · rw [hp]
    exact encodeTail_phase hs
  · rw [State.afterWait_phase]
    rcases hp with hp | hp | hp <;> simp [hp, phaseSuccessors]

/-! ### What the host reads -/

@[simp] theorem hostRead_phase (s : State) : hostRead .phase s = (phaseCode s.phase).toNat := rfl
@[simp] theorem hostRead_err (s : State) : hostRead .err s = (errCode s.err).toNat := rfl

theorem errCode_eq_zero_iff (e : Option ErrorKind) : (errCode e).toNat = 0 ↔ e = none := by
  rcases e with _ | (_ | _ | _ | _) <;> decide

theorem phaseCode_eq_seven_iff (p : Phase) : (phaseCode p).toNat = 7 ↔ p = .error := by
  cases p <;> decide

/-- Settles O60: the two numberings case by case, and R22 by the invariant. -/
theorem hostReadsRegisters : Obligations.HostReadsRegisters := by
  unfold Obligations.HostReadsRegisters
  intro s
  refine ⟨?_, ?_, rfl, rfl, rfl, rfl, rfl, rfl, rfl, rfl, rfl, rfl, rfl, rfl, rfl, fun h => ?_⟩
  · rw [hostRead_phase]
    cases s.phase <;> rfl
  · rw [hostRead_err]
    rcases s.err with _ | (_ | _ | _ | _) <;> rfl
  · rw [hostRead_err, hostRead_phase, Ne, errCode_eq_zero_iff, phaseCode_eq_seven_iff]
    exact h.err

end Sys2Proof.Machine
end

section
/-! PROOFS. The memory of the block: no access of a state that meets the invariant is without meaning (R50, R65, R66, R78), and
the encoder writes no array but `SINK`, and that only from `OP` up (R56, R67). -/

namespace Sys2Proof.Machine

/-! ### No fault where the invariant holds -/

theorem hostCommand_ne_fault (c : HostCommand) (s : State) (f : Fault) : hostCommand c s ≠ .fault f := by
  cases c with
  | reset => simp [hostCommand]
  | startDecode bs =>
    simp only [hostCommand]
    split_ifs <;> simp
  | startEncode w ht ch cs bs =>
    simp only [hostCommand]
    split_ifs <;> simp

/-- In each phase the invariant lists the bytes, and bounds the pixel, that the engine step of the phase asks for. -/
theorem engineStep_ne_fault {s : State} (h : s.Inv) (f : Fault) : engineStep s ≠ .fault f := by
  unfold engineStep
  cases hp : s.phase with
  | decHeader => exact headerParse_ne_fault (h.input (.inl hp)) f
  | decPixels => exact decodePixel_ne_fault (h.input (.inr hp)) (h.channels (.inl hp)) (h.pixLt (.inl hp)) f
  | encHeader => exact headerEmit_ne_fault s f
  | encPixels =>
    have hc := h.channels (.inr (.inl hp))
    exact encodePixel_ne_fault hc (h.pixLt (.inr hp)) (h.pixin (.inr hp) hc) f
  | encTail => exact encodeTail_ne_fault s f
  | idle | done | error => simp

/-- Settles O18: a host command never faults, and an engine step does not where the invariant holds. -/
theorem invariantExcludesFaults : Obligations.InvariantExcludesFaults := by
  unfold Obligations.InvariantExcludesFaults
  intro s f h
  rcases waits_or_command s with hw | ⟨c, rest, hc⟩
  · rw [step_of_waits hw]
    exact engineStep_ne_fault h.afterWait f
  · rw [step_of_command hc]
    exact hostCommand_ne_fault c _ f

/-! ### The frame of the encoder -/

/-- `t` is `s` but for what the encoder's steps may write: `PHASE`, `ERR`, `PX`, `RUN`, `PIX`, `IP`, `OP`, the cache, the plans of
oracle and host, and in `SINK` only bytes from the old `OP` up to the new one.  The counterpart of `State.decodeFrame`. -/
def State.encodeFrame (s t : State) : Prop :=
  t.hdrWidth = s.hdrWidth ∧ t.hdrHeight = s.hdrHeight ∧ t.hdrChannels = s.hdrChannels ∧
    t.hdrColorspace = s.hdrColorspace ∧ t.inLen = s.inLen ∧ t.input = s.input ∧ t.pixin = s.pixin ∧ t.out = s.out ∧
    t.config = s.config ∧ s.op ≤ t.op ∧
    ∀ k, k < s.op ∨ t.op ≤ k → Memory.read t.sink k = Memory.read s.sink k

theorem State.encodeFrame_refl (s : State) : s.encodeFrame s :=
  ⟨rfl, rfl, rfl, rfl, rfl, rfl, rfl, rfl, rfl, le_rfl, fun _ _ => rfl⟩

/-- Appending to `SINK` stays within the frame (R67). -/
theorem State.encodeFrame_emitted (s : State) (bs : List Byte) : s.encodeFrame (s.emitted bs) :=
  ⟨rfl, rfl, rfl, rfl, rfl, rfl, rfl, rfl, rfl, Nat.le_add_right _ _, fun _ => Memory.read_writeRange_outside s.sink⟩

/-- Error entry discards what the step has written (R235). -/
theorem State.encodeFrame_raised (s : State) (e : ErrorKind) (o : List IoAnswer) :
    s.encodeFrame (errorEntry e { s with oracle := o }) := s.encodeFrame_refl

theorem headerEmit_encodeFrame {s t : State} (h : headerEmit s = .next t) : s.encodeFrame t := by
  rcases headerEmit_eq_next h with ⟨-, -, rfl, -⟩ | ⟨e, o, -, -, rfl⟩
  · exact s.encodeFrame_emitted (headerOf s)
  · exact s.encodeFrame_raised e o

theorem classify_encodeFrame {p : Pixel} {s t : State} {u : Unit} (h : classify p s = .done u t) : s.encodeFrame t := by
  rcases classify_eq_done.1 h with ⟨-, -, rfl⟩ | ⟨-, -, -, rfl⟩ | ⟨-, -, rfl⟩
  · exact s.encodeFrame_refl
  · exact s.encodeFrame_emitted [0xFD]
  · exact s.encodeFrame_emitted (newPixelBytes s p)

/-- Reading the pixel and advancing past it write nothing the frame speaks of, so the step has the frame of its
classification. -/
theorem encodePixel_encodeFrame {s t : State} (h : encodePixel s = .next t) : s.encodeFrame t := by
  rcases encodePixel_eq_next h with ⟨p, s', -, -, -, hcl, rfl, -⟩ | ⟨o, -, rfl⟩
  · have hframe : (s.used 1).encodeFrame s' := classify_encodeFrame hcl
    exact hframe
  · exact s.encodeFrame_raised _ o

theorem encodeTail_encodeFrame {s t : State} (h : encodeTail s = .next t) : s.encodeFrame t := by
  rcases encodeTail_eq_next h with ⟨-, rfl, -⟩ | ⟨o, -, rfl⟩
  · exact s.encodeFrame_emitted (pendingRun s.run ++ endMarker)
  · exact s.encodeFrame_raised _ o

/-- Settles O54, by the frame of each of the encoder's three steps. -/
theorem encoderStepsFrame : Obligations.EncoderStepsFrame := by
  unfold Obligations.EncoderStepsFrame
  intro s t hw hp hs
  show s.afterWait.encodeFrame t
  rcases hp with hp | hp | hp
  · exact headerEmit_encodeFrame (step_encHeader hw hp ▸ hs)
  · exact encodePixel_encodeFrame (step_encPixels hw hp ▸ hs)
  · exact encodeTail_encodeFrame (step_encTail hw hp ▸ hs)

end Sys2Proof.Machine
end

section
/-! PROOFS. The op-code encoding (30_encoding.md): a byte string decodes to an op-code exactly when it begins with the bytes of that
op-code and the op-code is well-formed (R70-R78, R81, R83); with it the tag and the length by the first byte (R71, R79). -/

namespace Sys2Proof

/-! ### Fields and tags as numbers -/

theorem bits_eq (v : Byte) (hi lo : Nat) : bits v hi lo = v.toNat / 2 ^ lo % 2 ^ (hi - lo + 1) := by
  simp [bits, Nat.shiftRight_eq_div_pow]

/-- The least first byte of a tag (R71). -/
def Tag.firstByte : Tag → Nat
  | .index => 0x00
  | .diff => 0x40
  | .luma => 0x80
  | .run => 0xC0
  | .rgb => 0xFE
  | .rgba => 0xFF

/-- The greatest first byte of a tag (R71). -/
def Tag.lastByte : Tag → Nat
  | .index => 0x3F
  | .diff => 0x7F
  | .luma => 0xBF
  | .run => 0xFD
  | .rgb => 0xFE
  | .rgba => 0xFF

theorem tagOf_eq_iff {b0 : Byte} {t : Tag} : tagOf b0 = t ↔ t.firstByte ≤ b0.toNat ∧ b0.toNat ≤ t.lastByte := by
  revert b0
  cases t <;> decide

theorem toNat_toByte {x : Int} (h0 : 0 ≤ x) (h1 : x < 256) : ((toByte x).toNat : Int) = x := by
  rw [toByte, BitVec.toNat_ofInt]
  omega

/-- A field placed below the lowest bit the other byte uses: the two are packed as their sum. -/
theorem toNat_or_of_lt {k : Nat} {x y : Byte} (hx : 2 ^ k ∣ x.toNat) (hy : y.toNat < 2 ^ k) :
    (x ||| y).toNat = x.toNat + y.toNat := by
  obtain ⟨q, hq⟩ := hx
  rw [BitVec.toNat_or, hq, Nat.two_pow_add_eq_or_of_lt hy]

theorem toNat_shiftLeft_of_lt {k : Nat} {x : Byte} (h : x.toNat * 2 ^ k < 256) : (x <<< k).toNat = x.toNat * 2 ^ k := by
  rw [BitVec.toNat_shiftLeft, Nat.shiftLeft_eq, Nat.mod_eq_of_lt h]

/-! ### The packed bytes of well-formed op-codes as numbers -/

/-- The byte of DIFF (R73). -/
theorem toNat_packDiff {dr dg db : Int} (hwf : WellFormed (.diff dr dg db)) :
    ((0x40 ||| toByte (dr + 2) <<< 4 ||| toByte (dg + 2) <<< 2 ||| toByte (db + 2)).toNat : Int) =
      0x40 + (dr + 2) * 16 + (dg + 2) * 4 + (db + 2) := by
  obtain ⟨hr, hg, hb⟩ := hwf
  have hr := toNat_toByte (x := dr + 2) (by omega) (by omega)
  have hg := toNat_toByte (x := dg + 2) (by omega) (by omega)
  have hb := toNat_toByte (x := db + 2) (by omega) (by omega)
  have hr4 := toNat_shiftLeft_of_lt (k := 4) (x := toByte (dr + 2)) (by omega)
  have hg2 := toNat_shiftLeft_of_lt (k := 2) (x := toByte (dg + 2)) (by omega)
  have htag : (0x40 ||| toByte (dr + 2) <<< 4).toNat = 0x40 + (toByte (dr + 2) <<< 4).toNat :=
    toNat_or_of_lt (k := 6) (by decide) (by omega)
  have hrg : (0x40 ||| toByte (dr + 2) <<< 4 ||| toByte (dg + 2) <<< 2).toNat =
      (0x40 ||| toByte (dr + 2) <<< 4).toNat + (toByte (dg + 2) <<< 2).toNat :=
    toNat_or_of_lt (k := 4) (by omega) (by omega)
  rw [toNat_or_of_lt (k := 2) (by omega) (by omega)]
  omega

/-- The first byte of LUMA (R74). -/
theorem toNat_packLuma {dg : Int} (hg : inRange (-32) dg 31) :
    ((0x80 ||| toByte (dg + 32)).toNat : Int) = 0x80 + (dg + 32) := by
  have hx := toNat_toByte (x := dg + 32) (by omega) (by omega)
  have hsum : (0x80 ||| toByte (dg + 32)).toNat = 0x80 + (toByte (dg + 32)).toNat :=
    toNat_or_of_lt (k := 6) (by decide) (by omega)
  omega

/-- The second byte of LUMA (R74). -/
theorem toNat_packNibbles {drDg dbDg : Int} (hr : inRange (-8) drDg 7) (hb : inRange (-8) dbDg 7) :
    ((toByte (drDg + 8) <<< 4 ||| toByte (dbDg + 8)).toNat : Int) = (drDg + 8) * 16 + (dbDg + 8) := by
  have hx := toNat_toByte (x := drDg + 8) (by omega) (by omega)
  have hy := toNat_toByte (x := dbDg + 8) (by omega) (by omega)
  have hx4 := toNat_shiftLeft_of_lt (k := 4) (x := toByte (drDg + 8)) (by omega)
  rw [toNat_or_of_lt (k := 4) (by omega) (by omega)]
  omega

/-- The byte of RUN (R75). -/
theorem toNat_packRun {n : Nat} (hwf : WellFormed (.run n)) :
    ((0xC0 ||| toByte ((n : Int) - 1)).toNat : Int) = 0xC0 + ((n : Int) - 1) := by
  obtain ⟨hlo, hhi⟩ := hwf
  have hx := toNat_toByte (x := (n : Int) - 1) (by omega) (by omega)
  have hsum : (0xC0 ||| toByte ((n : Int) - 1)).toNat = 0xC0 + (toByte ((n : Int) - 1)).toNat :=
    toNat_or_of_lt (k := 6) (by decide) (by omega)
  omega

/-! ### Each family: its bytes decode to the op-code exactly when the op-code is well-formed and encodes to them -/

theorem decodeIndex_iff {b0 : Byte} {n : Nat} :
    (tagOf b0 = .index ∧ decodeIndex b0 = .index n) ↔ WellFormed (.index n) ∧ encode (.index n) = [b0] := by
  simp only [tagOf_eq_iff, Tag.firstByte, Tag.lastByte, decodeIndex, bits_eq, Instr.index.injEq, encode,
    List.cons.injEq, and_true, ← BitVec.toNat_inj, BitVec.toNat_ofNat]
  omega

theorem decodeDiff_iff {b0 : Byte} {dr dg db : Int} :
    (tagOf b0 = .diff ∧ decodeDiff b0 = .diff dr dg db) ↔
      WellFormed (.diff dr dg db) ∧ encode (.diff dr dg db) = [b0] := by
  have hbyte := toNat_packDiff (dr := dr) (dg := dg) (db := db)
  simp only [tagOf_eq_iff, Tag.firstByte, Tag.lastByte, decodeDiff, biased, bits_eq, Instr.diff.injEq, encode,
    List.cons.injEq, and_true, ← BitVec.toNat_inj]
  omega

theorem decodeLuma_iff {b0 b1 : Byte} {dg drDg dbDg : Int} :
    (tagOf b0 = .luma ∧ decodeLuma b0 b1 = .luma dg drDg dbDg) ↔
      WellFormed (.luma dg drDg dbDg) ∧ encode (.luma dg drDg dbDg) = [b0, b1] := by
  have hbyte := toNat_packLuma (dg := dg)
  have hnibbles := toNat_packNibbles (drDg := drDg) (dbDg := dbDg)
  simp only [tagOf_eq_iff, Tag.firstByte, Tag.lastByte, decodeLuma, biased, bits_eq, Instr.luma.injEq, encode,
    List.cons.injEq, and_true, ← BitVec.toNat_inj]
  omega

theorem decodeRun_iff {b0 : Byte} {n : Nat} :
    (tagOf b0 = .run ∧ decodeRun b0 = .run n) ↔ WellFormed (.run n) ∧ encode (.run n) = [b0] := by
  have hbyte := toNat_packRun (n := n)
  simp only [tagOf_eq_iff, Tag.firstByte, Tag.lastByte, decodeRun, bits_eq, Instr.run.injEq, encode,
    List.cons.injEq, and_true, ← BitVec.toNat_inj]
  omega

theorem tagOf_eq_rgb_iff {b0 : Byte} : tagOf b0 = .rgb ↔ 0xFE = b0 := by
  rw [tagOf_eq_iff, Tag.firstByte, Tag.lastByte]
  bv_omega

theorem tagOf_eq_rgba_iff {b0 : Byte} : tagOf b0 = .rgba ↔ 0xFF = b0 := by
  rw [tagOf_eq_iff, Tag.firstByte, Tag.lastByte]
  bv_omega

/-! ### The decoder -/

/-- The byte strings that are one op-code, family by family: the tag of the first byte selects the family (R71), and the bytes
after it are as many as the family has (R70). -/
inductive Spells : List Byte → Instr → Prop
  | index {b0 : Byte} {n : Nat} (h : tagOf b0 = .index ∧ decodeIndex b0 = .index n) : Spells [b0] (.index n)
  | diff {b0 : Byte} {dr dg db : Int} (h : tagOf b0 = .diff ∧ decodeDiff b0 = .diff dr dg db) :
    Spells [b0] (.diff dr dg db)
  | luma {b0 b1 : Byte} {dg drDg dbDg : Int} (h : tagOf b0 = .luma ∧ decodeLuma b0 b1 = .luma dg drDg dbDg) :
    Spells [b0, b1] (.luma dg drDg dbDg)
  | run {b0 : Byte} {n : Nat} (h : tagOf b0 = .run ∧ decodeRun b0 = .run n) : Spells [b0] (.run n)
  | rgb {b0 r g b : Byte} (h : tagOf b0 = .rgb) : Spells [b0, r, g, b] (.rgb r g b)
  | rgba {b0 r g b a : Byte} (h : tagOf b0 = .rgba) : Spells [b0, r, g, b, a] (.rgba r g b a)

/-- The decoder takes the op-code at the head of the bytes, and no byte after it. -/
theorem decode_eq_ok {bs rest : List Byte} {i : Instr} :
    decode bs = .ok (i, rest) ↔ ∃ w, Spells w i ∧ w ++ rest = bs := by
  constructor
  · intro h
    cases bs with
    | nil => cases h
    | cons b0 cs =>
      simp only [decode] at h
      cases ht : tagOf b0 <;> simp only [ht] at h
      case index => cases h; exact ⟨_, .index ⟨ht, rfl⟩, rfl⟩
      case diff => cases h; exact ⟨_, .diff ⟨ht, rfl⟩, rfl⟩
      case run => cases h; exact ⟨_, .run ⟨ht, rfl⟩, rfl⟩
      case luma => split at h <;> cases h; exact ⟨_, .luma ⟨ht, rfl⟩, rfl⟩
      case rgb => split at h <;> cases h; exact ⟨_, .rgb ht, rfl⟩
      case rgba => split at h <;> cases h; exact ⟨_, .rgba ht, rfl⟩
  · rintro ⟨w, hw, rfl⟩
    cases hw with
    | rgb h | rgba h => simp [decode, h]
    | index h | diff h | luma h | run h => simp [decode, h]

/-- An op-code is spelled by its own bytes, and only if it is well-formed (R81). -/
theorem spells_iff {w : List Byte} {i : Instr} : Spells w i ↔ WellFormed i ∧ encode i = w := by
  constructor
  · intro h
    cases h with
    | index h => exact decodeIndex_iff.1 h
    | diff h => exact decodeDiff_iff.1 h
    | luma h => exact decodeLuma_iff.1 h
    | run h => exact decodeRun_iff.1 h
    | rgb h => exact ⟨trivial, congrArg (· :: _) (tagOf_eq_rgb_iff.1 h)⟩
    | rgba h => exact ⟨trivial, congrArg (· :: _) (tagOf_eq_rgba_iff.1 h)⟩
  · rintro ⟨hwf, rfl⟩
    cases i with
    | index n => exact .index (decodeIndex_iff.2 ⟨hwf, rfl⟩)
    | diff dr dg db => exact .diff (decodeDiff_iff.2 ⟨hwf, rfl⟩)
    | luma dg drDg dbDg => exact .luma (decodeLuma_iff.2 ⟨hwf, rfl⟩)
    | run n => exact .run (decodeRun_iff.2 ⟨hwf, rfl⟩)
    | rgb r g b => exact .rgb rfl
    | rgba r g b a => exact .rgba rfl

/-- Decoding is the inverse of encoding on the well-formed op-codes. -/
theorem decode_eq_ok_iff {bs rest : List Byte} {i : Instr} :
    decode bs = .ok (i, rest) ↔ WellFormed i ∧ encode i ++ rest = bs := by
  simp only [decode_eq_ok, spells_iff]
  exact ⟨fun ⟨_, ⟨hwf, hw⟩, hbs⟩ => ⟨hwf, hw ▸ hbs⟩, fun ⟨hwf, hbs⟩ => ⟨_, ⟨hwf, rfl⟩, hbs⟩⟩

/-- Settles O1, which is one direction of `decode_eq_ok_iff`. -/
theorem decodeOfEncode : Obligations.DecodeOfEncode := fun _ _ hwf => decode_eq_ok_iff.2 ⟨hwf, rfl⟩

/-- Settles O2, which is the other direction. -/
theorem encodeOfDecode : Obligations.EncodeOfDecode := fun _ _ _ => decode_eq_ok_iff.1

/-! ### What the first byte selects -/

/-- The tag of an op-code's first byte. -/
def Instr.tag : Instr → Tag
  | .index _ => .index
  | .diff _ _ _ => .diff
  | .luma _ _ _ => .luma
  | .run _ => .run
  | .rgb _ _ _ => .rgb
  | .rgba _ _ _ _ => .rgba

theorem tagOf_of_decode {b0 : Byte} {cs rest : List Byte} {i : Instr} (h : decode (b0 :: cs) = .ok (i, rest)) :
    tagOf b0 = i.tag := by
  obtain ⟨w, hw, hbs⟩ := decode_eq_ok.1 h
  cases hw with
  | index ht | diff ht | luma ht | run ht =>
    cases hbs
    exact ht.1
  | rgb ht | rgba ht =>
    cases hbs
    exact ht

/-- Settles O3: an op-code's tag gives the range of its first byte (R71). -/
theorem firstByteSelectsOpcode : Obligations.FirstByteSelectsOpcode := by
  unfold Obligations.FirstByteSelectsOpcode
  refine fun b0 => ⟨?_, fun cs i rest h => ?_⟩
  · obtain ⟨i, hi, -⟩ := decode_of_length (List.length_replicate (n := opLength b0 - 1) (a := (0 : Byte)))
    exact ⟨_, i, hi⟩
  · have ht := tagOf_of_decode h
    cases i with
    | rgb r g b => exact (tagOf_eq_rgb_iff.1 ht).symm
    | rgba r g b a => exact (tagOf_eq_rgba_iff.1 ht).symm
    | index n => exact Nat.lt_succ_of_le (tagOf_eq_iff.1 ht).2
    | diff dr dg db => exact (tagOf_eq_iff.1 ht).imp_right Nat.lt_succ_of_le
    | luma dg drDg dbDg => exact (tagOf_eq_iff.1 ht).imp_right Nat.lt_succ_of_le
    | run n => exact tagOf_eq_iff.1 ht

theorem opLength_of_decode {b0 : Byte} {cs rest : List Byte} {i : Instr} (h : decode (b0 :: cs) = .ok (i, rest)) :
    opLength b0 = i.length := by
  rw [opLength_eq, tagOf_of_decode h]
  cases i <;> rfl

/-- R79 in numbers. -/
theorem opLength_eq_ite (b0 : Byte) :
    opLength b0 =
      if 0x80 ≤ b0.toNat ∧ b0.toNat < 0xC0 then 2 else if b0 = 0xFE then 4 else if b0 = 0xFF then 5 else 1 := by
  have htop : bits b0 7 6 = 0b10 ↔ 0x80 ≤ b0.toNat ∧ b0.toNat < 0xC0 := by
    rw [bits_eq]
    omega
  simp only [opLength, htop]

/-- Settles O4: the bytes read are the op-code's own (O2), and their number is that of the first byte's tag (R79). -/
theorem lengthFromFirstByte : Obligations.LengthFromFirstByte := by
  unfold Obligations.LengthFromFirstByte
  intro b0 cs i rest h
  have hlen : (encode i).length = opLength b0 := (Machine.encode_length i).trans (opLength_of_decode h).symm
  obtain ⟨-, hbs⟩ := decode_eq_ok_iff.1 h
  rw [← opLength_eq_ite, ← hbs, List.length_append, hlen]
  exact ⟨rfl, rfl⟩

/-! ### What is refused -/

/-- Bytes after those of the op-code change nothing but the rest. -/
theorem decode_append {bs rest : List Byte} {i : Instr} (h : decode bs = .ok (i, rest)) (more : List Byte) :
    decode (bs ++ more) = .ok (i, rest ++ more) := by
  obtain ⟨hwf, rfl⟩ := decode_eq_ok_iff.1 h
  exact decode_eq_ok_iff.2 ⟨hwf, (List.append_assoc ..).symm⟩

theorem decode_of_length_le {b0 : Byte} {cs : List Byte} (h : opLength b0 ≤ cs.length + 1) :
    ∃ i rest, decode (b0 :: cs) = .ok (i, rest) := by
  have hlen : (cs.take (opLength b0 - 1)).length = opLength b0 - 1 := List.length_take_of_le (by omega)
  obtain ⟨i, hi, -⟩ := decode_of_length hlen
  refine ⟨i, cs.drop (opLength b0 - 1), ?_⟩
  simpa using decode_append hi (cs.drop (opLength b0 - 1))

theorem decode_of_length_lt {b0 : Byte} {cs : List Byte} (h : cs.length + 1 < opLength b0) :
    decode (b0 :: cs) = .error (.truncated (tagOf b0)) := by
  rw [opLength_eq] at h
  simp only [decode]
  cases ht : tagOf b0 <;> simp only [ht, Tag.length] at h ⊢
  case luma =>
    obtain rfl : cs = [] := List.length_eq_zero_iff.1 (by omega)
    rfl
  case rgb | rgba =>
    split
    · simp only [List.length_cons] at h
      omega
    · rfl
  all_goals omega

/-- Settles O5: the op-code is decoded from its own bytes, and the bytes after it change nothing (R78). -/
theorem everyCompleteOpcodeDecodes : Obligations.EveryCompleteOpcodeDecodes :=
  fun _ _ => ⟨decode_of_length_le, decode_of_length_lt⟩

/-- Settles O6: six closed words, evaluated. -/
theorem specWordsDecode : Obligations.SpecWordsDecode := by
  unfold Obligations.SpecWordsDecode
  decide

end Sys2Proof
end

section
/-! PROOFS. The header codec (40_header.md): the big-endian integers undo each other (R91, R92), what the header parse step does
with each kind of input (R93-R95, R237), what the header emit step appends (R96), and the round trip of the two (R97). -/

namespace Sys2Proof.Machine

/-! ### Big-endian integers -/

theorem toNat_be32 (b0 b1 b2 b3 : Byte) :
    (be32 b0 b1 b2 b3).toNat = b0.toNat * 2 ^ 24 + b1.toNat * 2 ^ 16 + b2.toNat * 2 ^ 8 + b3.toNat := by
  rw [be32, BitVec.toNat_ofNat]
  exact Nat.mod_eq_of_lt (by omega)

/-- The bytes of a word are its digits to the base 256, the highest first. -/
theorem be32bytes_eq_iff {v : U32} {b0 b1 b2 b3 : Byte} :
    be32bytes v = [b0, b1, b2, b3] ↔
      v.toNat = b0.toNat * 2 ^ 24 + b1.toNat * 2 ^ 16 + b2.toNat * 2 ^ 8 + b3.toNat := by
  simp only [be32bytes, List.cons.injEq, and_true, ← BitVec.toNat_inj, BitVec.extractLsb'_toNat,
    Nat.shiftRight_eq_div_pow]
  omega

theorem be32bytes_be32 (b0 b1 b2 b3 : Byte) : be32bytes (be32 b0 b1 b2 b3) = [b0, b1, b2, b3] :=
  be32bytes_eq_iff.2 (toNat_be32 b0 b1 b2 b3)

theorem be32_of_be32bytes {v : U32} {b0 b1 b2 b3 : Byte} (h : be32bytes v = [b0, b1, b2, b3]) : be32 b0 b1 b2 b3 = v :=
  BitVec.eq_of_toNat_eq ((toNat_be32 b0 b1 b2 b3).trans (be32bytes_eq_iff.1 h).symm)

/-- `be32` of the four bytes that `be32bytes` lists. -/
@[simp] theorem be32_extractLsb' (v : U32) :
    be32 (v.extractLsb' 24 8) (v.extractLsb' 16 8) (v.extractLsb' 8 8) (v.extractLsb' 0 8) = v :=
  be32_of_be32bytes rfl

/-- Settles O38: both inverses say that the four bytes are the digits of the word. -/
theorem bigEndianRoundTrip : Obligations.BigEndianRoundTrip :=
  ⟨fun _ _ _ _ _ => be32_of_be32bytes, be32bytes_be32, toNat_be32⟩

/-! ### The header parse step on a good header -/

/-- The latch of the ten bytes after `MAGIC` sets the header registers to what was written there (R93). -/
theorem latchHeader_of_supported {w h : U32} {ch : Byte} (hc : supportedChannels ch) (cs : Byte) (s : State) :
    latchHeader (be32bytes w ++ be32bytes h ++ [ch, cs]) s = .done ()
      { s with
        hdrWidth := w, hdrHeight := h, hdrChannels := ch, hdrColorspace := cs, ip := 14
        phase := if w.toNat * h.toNat = 0 then .done else .decPixels } := by
  refine latchHeader_eq_done.2 ⟨hc, ?_⟩
  simp [headerByte, be32bytes]

/-- Settles O39: 14 readable bytes with the right `MAGIC` are latched, and the latch gives the four fields back. -/
theorem headerParseResult : Obligations.HeaderParseResult := by
  unfold Obligations.HeaderParseResult
  intro s w h ch cs hw hp hc hi hl hf
  rw [List.append_assoc, List.append_assoc, ← List.append_assoc (be32bytes w)] at hi
  rw [step_decHeader hw hp, headerParse_of_inputAt (s := s.afterWait) rfl hi hl, latchHeader_of_supported hc]
  exact commit_done hf

/-! ### The errors of the header parse step -/

/-- Where `IN` ends after `j` of the bytes asked for, reading them raises `UnexpectedEof` (R64, R232). -/
theorem inBytes_of_eof {k n j : Nat} {s : State} {bs : List Byte} (hr : Memory.readRange s.input k j = some bs)
    (hk : s.inLen = k + j) (hj : j < n) (hl : s.lets (j + 1)) :
    inBytes k n s = .raised .unexpectedEof (s.oracle.drop (j + 1)) := by
  induction j generalizing k n s bs with
  | zero =>
    obtain ⟨n, rfl⟩ := Nat.exists_eq_succ_of_ne_zero (by omega : n ≠ 0)
    rw [inBytes, inByte_eq_raised.2 (.inr ⟨rfl, hl, by omega, rfl⟩), Attempt.andThen_raised]
  | succ j ih =>
    obtain ⟨n, rfl⟩ := Nat.exists_eq_succ_of_ne_zero (by omega : n ≠ 0)
    rw [Nat.add_comm] at hl
    obtain ⟨hl1, hl2⟩ := State.lets_add.1 hl
    rw [Memory.readRange] at hr
    split at hr
    · next b cs hb hcs =>
      rw [inBytes, inByte_eq_done.2 ⟨hl1, by omega, hb, rfl⟩, Attempt.andThen_done,
        ih (s := s.used 1) hcs (by simp; omega) (by omega) hl2]
      simp [Nat.add_comm, Nat.add_left_comm]
    · simp at hr

/-- Fewer than four bytes of input (R231). -/
theorem headerParse_of_inLen_lt {s : State} (h : s.inLen < 4) :
    headerParse s = .next (errorEntry .invalidMagic s) := by
  rw [headerParse, if_pos h]
  rfl

/-- Four bytes other than `MAGIC` (R231). -/
theorem headerParse_of_wrongMagic {s : State} {m : List Byte} (hlen : m.length = 4) (hi : s.inputAt 0 m)
    (hm : m ≠ s.config.magic.bytes) (hl : s.lets 4) :
    headerParse s = .next (errorEntry .invalidMagic (s.used 4)) := by
  obtain ⟨hk, hr⟩ := hi
  rw [hlen] at hk hr
  rw [headerParse, if_neg (by omega), inBytes_eq_done.2 ⟨hl, .inr hk, hr, rfl⟩, Attempt.andThen_done,
    if_neg (by exact hm)]
  rfl

/-- `MAGIC` and then an end of the input before 14 bytes (R232). -/
theorem headerParse_of_truncated {s : State} {h : List Byte} (hi : s.inputAt 0 (s.config.magic.bytes ++ h))
    (hk : s.inLen = 4 + h.length) (hlen : h.length < 10) (hl : s.lets (s.inLen + 1)) :
    headerParse s = .next (errorEntry .unexpectedEof (s.used (s.inLen + 1))) := by
  obtain ⟨-, hr⟩ := hi
  obtain ⟨hm, hb⟩ := Memory.readRange_split hr
  rw [hk, Nat.add_assoc] at hl
  obtain ⟨hl1, hl2⟩ := State.lets_add.1 hl
  have heof : inBytes 4 10 (s.used 4) = .raised .unexpectedEof (s.oracle.drop (s.inLen + 1)) := by
    rw [inBytes_of_eof (s := s.used 4) (by simpa [Magic.bytes_length] using hb) hk hlen hl2, State.used_oracle,
      List.drop_drop, hk, Nat.add_assoc]
  rw [headerParse, if_neg (by omega), inBytes_eq_done.2 ⟨hl1, .inr (by omega), hm, rfl⟩, Attempt.andThen_done,
    if_pos (by rfl), heof]
  rfl

theorem latchHeader_of_unsupported {h : List Byte} (hc : ¬supportedChannels (headerByte h 12)) (s : State) :
    latchHeader h s = .raised .unsupportedChannelCount s.oracle := by
  rw [latchHeader, if_neg hc]
  rfl

/-- 14 bytes with a channel count other than 3 and 4 (R234). -/
theorem headerParse_of_unsupported {s : State} {bs : List Byte} (hlen : bs.length = 10)
    (hi : s.inputAt 0 (s.config.magic.bytes ++ bs)) (hc : ¬supportedChannels (headerByte bs 12)) (hl : s.lets 14) :
    headerParse s = .next (errorEntry .unsupportedChannelCount (s.used 14)) := by
  rw [headerParse_of_inputAt hlen hi hl, latchHeader_of_unsupported hc]
  rfl

/-- Settles O40, a lemma for each of the four errors. -/
theorem headerParseErrors : Obligations.HeaderParseErrors := by
  unfold Obligations.HeaderParseErrors
  intro s hw hp
  rw [step_decHeader hw hp]
  refine ⟨fun h => ?short, fun m hlen hi hm hl => ?magic, fun h hi hk hlen hl => ?eof,
    fun h ch cs hlen hi h3 h4 hl => ?channels⟩
  case short => exact headerParse_of_inLen_lt (s := s.afterWait) h
  case magic => exact headerParse_of_wrongMagic (s := s.afterWait) hlen hi hm hl
  case eof => exact headerParse_of_truncated (s := s.afterWait) hi hk hlen hl
  case channels =>
    rw [List.append_assoc] at hi
    have hch : headerByte (h ++ [ch, cs]) 12 = ch := by simp [headerByte, hlen]
    exact headerParse_of_unsupported (s := s.afterWait) (by simp [hlen]) hi
      (by rw [hch]; exact not_or.2 ⟨h3, h4⟩) hl

/-! ### The header emit step -/

/-- The channel check comes before any byte (R96, R234). -/
theorem headerEmit_of_unsupported {s : State} (hc : ¬supportedChannels s.hdrChannels) :
    headerEmit s = .next (errorEntry .unsupportedChannelCount s) := by
  rw [headerEmit, if_neg hc]
  rfl

/-- Settles O41, by the two outcomes of the channel check. -/
theorem headerEmitResult : Obligations.HeaderEmitResult := by
  unfold Obligations.HeaderEmitResult
  intro s hw hp
  rw [step_encHeader hw hp]
  refine ⟨fun hc hl hf => ?supported, fun h3 h4 => ?unsupported⟩
  case supported => exact headerEmit_of_lets (s := s.afterWait) hc hl hf
  case unsupported => exact headerEmit_of_unsupported (s := s.afterWait) (not_or.2 ⟨h3, h4⟩)

/-! ### The round trip -/

theorem Memory.readRange_ofBytes (bs : List Byte) : Memory.readRange (Memory.ofBytes bs) 0 bs.length = some bs :=
  Memory.readRange_eq_some.2 ⟨rfl, fun j _ => by simp⟩

theorem State.inputAt_of_ofBytes {s : State} {bs : List Byte} (hk : s.inLen = bs.length)
    (hi : s.input = Memory.ofBytes bs) : s.inputAt 0 bs :=
  ⟨by omega, hi ▸ Memory.readRange_ofBytes bs⟩

/-- Settles O42: the 14 bytes emitted are a good header (O41), and parsing a good header sets its fields (O39). -/
theorem headerRoundTrip : Obligations.HeaderRoundTrip := by
  unfold Obligations.HeaderRoundTrip
  intro e hw hp hc hop _ ho hcb
  have hemit := (headerEmitResult e hw hp).1 hc (State.lets_of_oracle_nil ho 14) (State.cursorsFit_of_unbounded hcb)
  refine ⟨_, headerOf e, hemit, ?_, ?_, ?_⟩
  · show e.op + 14 = 14
    rw [hop]
  · show Memory.readRange (Memory.writeRange e.sink e.op (headerOf e)) 0 (headerOf e).length = some (headerOf e)
    rw [hop, Memory.readRange_writeRange]
  · intro d hdw hdp hconf hdo _ hlen hin
    have hi : d.inputAt 0 (d.config.magic.bytes ++ be32bytes e.hdrWidth ++ be32bytes e.hdrHeight ++
        [e.hdrChannels, e.hdrColorspace]) := by
      rw [hconf]
      exact State.inputAt_of_ofBytes hlen hin
    exact ⟨_, headerParseResult d _ _ _ _ hdw hdp hc hi (State.lets_of_oracle_nil hdo 14)
      (State.cursorsFit_of_unbounded (hconf ▸ hcb)), rfl, rfl, rfl, rfl, rfl⟩

end Sys2Proof.Machine
end

section
/-! PROOFS. The pixel cache (41_pixel_cache.md): the hash in any width of arithmetic (R111, R112), the one slot an engine step may
write (R115, R116), and the op-code the encoder chooses, which makes the decoder produce the pixel and write the same slot (R119,
R189). -/

namespace Sys2Proof.Machine

/-! ### The hash -/

theorem hash_val (p : Pixel) :
    (hash p).val = (p.r.toNat * 3 + p.g.toNat * 5 + p.b.toNat * 7 + p.a.toNat * 11) % 64 := rfl

/-- The sum of R111 formed in a width `w` is the exact sum, brought to that width once. -/
theorem hashSum_eq_ofNat (p : Pixel) (w : Nat) :
    p.r.setWidth w * BitVec.ofNat w 3 + p.g.setWidth w * BitVec.ofNat w 5 + p.b.setWidth w * BitVec.ofNat w 7 +
        p.a.setWidth w * BitVec.ofNat w 11 =
      BitVec.ofNat w (p.r.toNat * 3 + p.g.toNat * 5 + p.b.toNat * 7 + p.a.toNat * 11) := by
  simp only [BitVec.ofNat_add, BitVec.ofNat_mul, BitVec.ofNat_toNat]

/-- Settles O43: a width of 6 bits or more loses only multiples of 64 (R112). -/
theorem hashInAnyWidth : Obligations.HashInAnyWidth := by
  unfold Obligations.HashInAnyWidth
  refine fun p => ⟨hash_val p, fun w hw => ?_, ?_, ?_⟩
  · have hdvd : 64 ∣ 2 ^ w := Nat.pow_dvd_pow 2 hw
    rw [hashSum_eq_ofNat, BitVec.toNat_ofNat, Nat.mod_mod_of_dvd _ hdvd, hash_val]
  · simp only [hash_val, BitVec.toNat_mul, BitVec.ofNat_eq_ofNat, BitVec.toNat_ofNat]
    omega
  · rw [hash_val]
    omega

/-! ### What an op-code writes to the cache -/

@[simp] theorem opState_hdrChannels (i : Instr) (s : State) : (opState i s).hdrChannels = s.hdrChannels := by
  cases i <;> rfl

/-- The op-codes that insert the pixel they produce: all but INDEX and RUN (R116, R132-R137). -/
def inserts : Instr → Bool
  | .index _ | .run _ => false
  | .diff _ _ _ | .luma _ _ _ | .rgb _ _ _ | .rgba _ _ _ _ => true

theorem opState_cache (i : Instr) (s : State) :
    (opState i s).cache = if inserts i then cacheInsert s.cache (opPixel i s) else s.cache := by
  cases i <;> rfl

theorem opState_run_of_inserts {i : Instr} (h : inserts i = true) (s : State) : (opState i s).run = s.run := by
  cases i with
  | index | run => cases h
  | diff | luma | rgb | rgba => rfl

/-! ### What a step writes to the cache -/

/-- A decode pixel step inserts the pixel it produces, or nothing (R116, R138, R235). -/
theorem decodePixel_cache {s t : State} (h : decodePixel s = .next t) :
    t.cache = s.cache ∨ t.cache = cacheInsert s.cache t.px := by
  rcases decodePixel_eq_next h with ⟨-, -, -, rfl, -⟩ | ⟨-, bs, i, -, -, -, -, -, -, rfl, -⟩ | ⟨e, o, -, -, rfl⟩
  · exact .inl rfl
  · rw [State.pixelDone_cache, State.pixelDone_px, opState_cache]
    split_ifs
    · exact .inr rfl
    · exact .inl rfl
  · exact .inl rfl

/-- Classification inserts its pixel, or nothing (R172, R173, R177). -/
theorem classify_cache {p : Pixel} {s t : State} {u : Unit} (h : classify p s = .done u t) :
    t.cache = s.cache ∨ t.cache = cacheInsert s.cache p := by
  rcases classify_eq_done.1 h with ⟨-, -, rfl⟩ | ⟨-, -, -, rfl⟩ | ⟨-, -, rfl⟩
  · exact .inl rfl
  · exact .inl rfl
  · exact .inr rfl

/-- An encode pixel step inserts the pixel it passes on as `PX`, or nothing (R177, R183, R235). -/
theorem encodePixel_cache {s t : State} (h : encodePixel s = .next t) :
    t.cache = s.cache ∨ t.cache = cacheInsert s.cache t.px := by
  rcases encodePixel_eq_next h with ⟨p, s', -, -, -, hcl, rfl, -⟩ | ⟨o, -, rfl⟩
  · have hc := classify_cache hcl
    exact hc
  · exact .inl rfl

theorem headerParse_cache {s t : State} (h : headerParse s = .next t) : t.cache = s.cache := by
  rcases headerParse_eq_next h with ⟨bs, -, -, -, hl, -⟩ | ⟨e, o, -, rfl⟩
  · obtain ⟨-, rfl⟩ := latchHeader_eq_done.1 hl
    rfl
  · rfl

theorem headerEmit_cache {s t : State} (h : headerEmit s = .next t) : t.cache = s.cache := by
  rcases headerEmit_eq_next h with ⟨-, -, rfl, -⟩ | ⟨e, o, -, -, rfl⟩ <;> rfl

theorem encodeTail_cache {s t : State} (h : encodeTail s = .next t) : t.cache = s.cache := by
  rcases encodeTail_eq_next h with ⟨-, rfl, -⟩ | ⟨o, -, rfl⟩ <;> rfl

/-- The two things an engine step can do to the cache: nothing, or, in a pixel step, the insert of the new `PX` (R115, R116). -/
theorem engineStep_cache {s t : State} (hw : s.hostWaits) (h : step s = .next t) :
    t.cache = s.cache ∨ ((s.phase = .decPixels ∨ s.phase = .encPixels) ∧ t.cache = cacheInsert s.cache t.px) := by
  rcases engineStep_cases hw h with ⟨-, h⟩ | ⟨hp, h⟩ | ⟨-, h⟩ | ⟨hp, h⟩ | ⟨-, h⟩ | ⟨-, rfl⟩
  · exact .inl (headerParse_cache (s := s.afterWait) h)
  · exact (decodePixel_cache (s := s.afterWait) h).imp_right fun hc => ⟨.inl hp, hc⟩
  · exact .inl (headerEmit_cache (s := s.afterWait) h)
  · exact (encodePixel_cache (s := s.afterWait) h).imp_right fun hc => ⟨.inr hp, hc⟩
  · exact .inl (encodeTail_cache (s := s.afterWait) h)
  · exact .inl rfl

/-- Settles O44: the only write of an engine step is an insert of the new `PX`, which changes no slot but its own. -/
theorem cacheWritesOnlyCurrentPixel : Obligations.CacheWritesOnlyCurrentPixel := by
  unfold Obligations.CacheWritesOnlyCurrentPixel
  intro s t h hw hs hne
  rcases engineStep_cache hw hs with hc | ⟨hp, hc⟩
  · exact absurd (by rw [hc]) hne
  · rw [hc, cacheRead_cacheInsert] at hne ⊢
    split_ifs at hne ⊢ with hh
    · exact ⟨hp, hh, rfl⟩
    · exact absurd rfl hne

/-! ### The op-code the encoder chooses, run by the decoder -/

/-- The encoder's three deltas lead back to the pixel where the alpha is unchanged (R133, R179). -/
theorem addDeltas_delta {p px : Pixel} (ha : p.a = px.a) :
    addDeltas px (delta p.r px.r) (delta p.g px.g) (delta p.b px.b) = p := by
  simp only [addDeltas, addDelta_delta, ← ha]

/-- An op-code chosen on a miss produces the pixel it was chosen for (R178-R182 against R133-R136). -/
theorem opPixel_chooseLiteral (s : State) (p : Pixel) : opPixel (chooseLiteral p s.px) s = p := by
  simp only [chooseLiteral]
  split_ifs with ha hd hl
  · rfl
  · exact addDeltas_delta (not_not.1 ha)
  · simp only [opPixel, lumaPixel, add_sub_cancel]
    exact addDeltas_delta (not_not.1 ha)
  · simp only [opPixel, rgbPixel, ← not_not.1 ha]

theorem inserts_chooseLiteral (p px : Pixel) : inserts (chooseLiteral p px) = true := by
  simp only [chooseLiteral]
  split_ifs <;> rfl

theorem slotOf_hash (p : Pixel) : slotOf (hash p).val = hash p :=
  Fin.ext (Nat.mod_eq_of_lt (hash p).isLt)

/-- The choice on a hit is INDEX of the pixel's own slot, and on a miss `chooseLiteral` (R176). -/
theorem chooseOp_cases (c : Vector Pixel 64) (p px : Pixel) :
    (cacheRead c (hash p) = p ∧ chooseOp c p px = .index (hash p).val) ∨ chooseOp c p px = chooseLiteral p px := by
  unfold chooseOp cacheHit
  by_cases h : cacheRead c (hash p) = p
  · exact .inl ⟨h, by simp [h]⟩
  · exact .inr (by simp [h])

/-- What the chosen op-code does in a decoder with the encoder's `PX` and cache: it produces the pixel and writes the encoder's
cache, and leaves `RUN` (R119, R189). -/
theorem chooseOp_writes (s : State) (p : Pixel) :
    opPixel (chooseOp s.cache p s.px) s = p ∧ (opState (chooseOp s.cache p s.px) s).cache = cacheAfter s.cache p ∧
      (opState (chooseOp s.cache p s.px) s).run = s.run := by
  rw [cacheAfter_eq_cacheInsert]
  rcases chooseOp_cases s.cache p s.px with ⟨hhit, h⟩ | h <;> rw [h]
  · refine ⟨?_, (cacheInsert_of_hit hhit).symm, rfl⟩
    simp only [opPixel, indexPixel, slotOf_hash, hhit]
  · have hins := inserts_chooseLiteral p s.px
    refine ⟨opPixel_chooseLiteral s p, ?_, opState_run_of_inserts hins s⟩
    rw [opState_cache, if_pos hins, opPixel_chooseLiteral]

/-- What a completed op-code leaves in `OUT` at `PIX × C` is its pixel (R139). -/
theorem readRange_pixelDone (s : State) (p : Pixel) :
    Memory.readRange (s.pixelDone p).out (s.pix * s.channels) (pixelWidth s.hdrChannels) =
      some (pixelBytes s.hdrChannels p) := by
  rw [State.pixelDone_out, ← pixelBytes_length s.hdrChannels p, Memory.readRange_writeRange]

/-- Settles O50: the decoder completes the chosen op-code with its pixel, and that pixel is the encoder's. -/
theorem chosenOpcodeReproducesPixel : Obligations.ChosenOpcodeReproducesPixel := by
  unfold Obligations.ChosenOpcodeReproducesPixel
  intro s p hready
  obtain ⟨hpx, hcache, hrun⟩ := chooseOp_writes s p
  have hout := readRange_pixelDone (opState (chooseOp s.cache p s.px) s) p
  rw [opState_pix, opState_channels, opState_hdrChannels] at hout
  refine ⟨_, exec_of_ready hready, ?_⟩
  rw [hpx]
  refine ⟨rfl, hcache, hrun, ?_, hout⟩
  rw [State.pixelDone_ip, opState_ip, encode_length]

end Sys2Proof.Machine
end

section
/-! PROOFS. The decode pixel step (42_decode_ops.md): the result of each op-code and of the run repeat (R132-R138), what they leave
unchanged (R139, R235), the op-code at `IP` and the cursors (R130, R141), and what a step does not depend on: the bytes of `IN`
beyond its op-code (R142, R148) and, with 3 channels, every alpha (R144). -/

namespace Sys2Proof.Machine

/-! ### The result of each op-code -/

theorem slotOf_val (i : Slot) : slotOf i.val = i := Fin.ext (Nat.mod_eq_of_lt i.isLt)

/-- Settles O21: `exec_of_ready` for INDEX, whose operand names the slot itself. -/
theorem indexResult : Obligations.IndexResult := by
  unfold Obligations.IndexResult
  intro i s hready
  have hpx : opPixel (.index i.val) s = cacheRead s.cache i := by simp only [opPixel, indexPixel, slotOf_val]
  have hexec := exec_of_ready (i := .index i.val) hready
  rw [hpx] at hexec
  exact hexec

/-- Settles O22: `exec_of_ready` for DIFF. -/
theorem diffResult : Obligations.DiffResult := by
  unfold Obligations.DiffResult
  exact fun dr dg db s hready => exec_of_ready (i := .diff dr dg db) hready

/-- Settles O23: `exec_of_ready` for LUMA. -/
theorem lumaResult : Obligations.LumaResult := by
  unfold Obligations.LumaResult
  exact fun dg drDg dbDg s hready => exec_of_ready (i := .luma dg drDg dbDg) hready

/-- Settles O24: `exec_of_ready` for RUN. -/
theorem runResult : Obligations.RunResult := by
  unfold Obligations.RunResult
  exact fun n s _ _ hready => exec_of_ready (i := .run n) hready

/-- Settles O25: `exec_of_ready` for RGB. -/
theorem rgbResult : Obligations.RgbResult := by
  unfold Obligations.RgbResult
  exact fun r g b s hready => exec_of_ready (i := .rgb r g b) hready

/-- Settles O26: `exec_of_ready` for RGBA, whose conditions hold for 3 channels and for 4. -/
theorem rgbaResult : Obligations.RgbaResult := by
  unfold Obligations.RgbaResult
  exact fun r g b a s hready => exec_of_ready (i := .rgba r g b a) hready

/-! ### Completed decode steps, by their conditions -/

/-- The oracle lets the writes of a pixel through, and they lie inside `OUT`. -/
def State.canWritePixel (s : State) : Prop :=
  s.lets (pixelWidth s.hdrChannels) ∧ s.pix * s.channels + pixelWidth s.hdrChannels ≤ s.arraySize

theorem producePixel_of_canWrite {s : State} (h : s.canWritePixel) (p : Pixel) :
    producePixel p s = .done () (s.pixelDone p) := producePixel_eq_done.2 ⟨h.1, h.2, rfl⟩

/-- What an op-code writes besides its pixel has no bearing on whether the pixel can be written. -/
theorem canWritePixel_opState (i : Instr) (s : State) : (opState i s).canWritePixel ↔ s.canWritePixel := by
  cases i <;> exact Iff.rfl

@[simp] theorem opState_out (i : Instr) (s : State) : (opState i s).out = s.out := by cases i <;> rfl

/-- A step that began in `s` and produces `p` in `u` completes when the pixel can be written and the cursors then fit (R10,
R139). -/
theorem commit_producePixel {s u : State} {p : Pixel} (hw : u.canWritePixel) (hf : (u.pixelDone p).cursorsFit = true) :
    commit s (producePixel p u) = .next (u.pixelDone p) := by
  rw [producePixel_of_canWrite hw]
  exact commit_done hf

theorem decodePixel_of_run {s : State} (hr : s.run ≠ 0) : decodePixel s = runRepeat s := if_neg hr

/-- With `RUN = 0`, a decode pixel step is the op-code that lies at `IP` (R130). -/
theorem decodePixel_of_opcode {s : State} {bs : List Byte} {i : Instr} (hr : s.run = 0) (hi : s.inputAt s.ip bs)
    (hd : decode bs = .ok (i, [])) (hl : s.lets bs.length) : decodePixel s = exec i (s.used bs.length) := by
  have hlen : bs.length = i.length := by
    obtain ⟨-, hbs⟩ := decode_eq_ok_iff.1 hd
    rw [← hbs, List.append_nil, encode_length]
  have hf : fetch s = .done i (s.used bs.length) :=
    fetch_eq_done.2 ⟨bs, hi, hlen, hd, hlen ▸ hl, by rw [hlen]⟩
  rw [decodePixel, if_pos hr, fetchAndExec, hf]

/-- Settles O29. -/
theorem stepRunsOpcodeAtIp : Obligations.StepRunsOpcodeAtIp := by
  unfold Obligations.StepRunsOpcodeAtIp
  intro s bs i hw hp hr hi hd hl
  rw [step_decPixels hw hp]
  exact decodePixel_of_opcode (s := s.afterWait) hr hi hd hl

theorem sub_one_eq_ofNat {r : BitVec 6} (h : r ≠ 0) : r - 1 = BitVec.ofNat 6 (r.toNat - 1) := by bv_omega

/-- Settles O28: the repeat completes as an op-code does, and `RUN` does not wrap. -/
theorem runRepeatResult : Obligations.RunRepeatResult := by
  unfold Obligations.RunRepeatResult
  rintro s hw hp hr ⟨hc, hpix, hl, hf⟩
  rw [step_decPixels hw hp, decodePixel_of_run (s := s.afterWait) hr, runRepeat, State.afterWait_run, sub_one_eq_ofNat hr]
  exact commit_producePixel ⟨hl, pixel_fits (s := s.afterWait) hc hpix⟩ hf

/-! ### The frame of an op-code -/

/-- Error entry changes nothing of the decode frame, `OUT` included (R235). -/
theorem State.decodeFrame_raised (s : State) (e : ErrorKind) (o : List IoAnswer) :
    s.decodeFrame (errorEntry e { s with oracle := o }) :=
  ⟨rfl, rfl, rfl, rfl, rfl, rfl, rfl, rfl, rfl, fun hne => absurd rfl hne, fun _ _ => rfl⟩

/-- Producing a pixel writes, in `OUT`, the pixel's own bytes only (R139). -/
theorem State.decodeFrame_pixelDone (s : State) (p : Pixel) : s.decodeFrame (s.pixelDone p) :=
  ⟨rfl, rfl, rfl, rfl, rfl, rfl, rfl, rfl, rfl, fun _ => rfl, fun k hk => by
    rw [State.pixelDone_out, Memory.read_writeRange_outside]
    rwa [pixelBytes_length]⟩

/-- The frame all six op-codes share. -/
theorem exec_decodeFrame {i : Instr} {s t : State} (h : exec i s = .next t) : s.decodeFrame t ∧ t.host = s.host := by
  rcases exec_eq_next h with ⟨-, -, rfl, -⟩ | ⟨o, -, rfl⟩
  · obtain ⟨c, r, hs, -⟩ := opState_eq i s
    rw [hs]
    exact ⟨State.decodeFrame_pixelDone { s with cache := c, run := r, ip := s.ip + i.length } _, rfl⟩
  · exact ⟨s.decodeFrame_raised _ o, rfl⟩

/-- An op-code that inserts writes no slot but that of the new `PX`, and not `RUN` (R116). -/
theorem exec_frame_of_inserts {i : Instr} {s t : State} (hins : inserts i = true) (h : exec i s = .next t) :
    t.run = s.run ∧ ∀ k : Slot, k ≠ hash t.px → cacheRead t.cache k = cacheRead s.cache k := by
  rcases exec_eq_next h with ⟨-, -, rfl, -⟩ | ⟨o, -, rfl⟩
  · refine ⟨opState_run_of_inserts hins s, fun k hk => ?_⟩
    rw [State.pixelDone_px] at hk
    rw [State.pixelDone_cache, opState_cache, if_pos hins, cacheRead_cacheInsert, if_neg hk]
  · exact ⟨rfl, fun _ _ => rfl⟩

/-- An op-code that does not insert leaves the cache as it is (R116). -/
theorem exec_cache_of_not_inserts {i : Instr} {s t : State} (hins : inserts i = false) (h : exec i s = .next t) :
    t.cache = s.cache := by
  rcases exec_eq_next h with ⟨-, -, rfl, -⟩ | ⟨o, -, rfl⟩
  · rw [State.pixelDone_cache, opState_cache, hins]
    rfl
  · rfl

theorem exec_index_run {n : Nat} {s t : State} (h : exec (.index n) s = .next t) : t.run = s.run := by
  rcases exec_eq_next h with ⟨-, -, rfl, -⟩ | ⟨o, -, rfl⟩ <;> rfl

theorem exec_run_px {n : Nat} {s t : State} (h : exec (.run n) s = .next t) : t.px = s.px := by
  rcases exec_eq_next h with ⟨-, -, rfl, -⟩ | ⟨o, -, rfl⟩ <;> rfl

/-- Settles O30: the shared frame, and that of the op-codes that insert. -/
theorem insertingOpcodesFrame : Obligations.InsertingOpcodesFrame := by
  unfold Obligations.InsertingOpcodesFrame
  intro i s t hi h
  have hins : inserts i = true := by
    rcases hi with ⟨_, _, _, rfl⟩ | ⟨_, _, _, rfl⟩ | ⟨_, _, _, rfl⟩ | ⟨_, _, _, _, rfl⟩ <;> rfl
  obtain ⟨hframe, hhost⟩ := exec_decodeFrame h
  exact ⟨hframe, hhost, exec_frame_of_inserts hins h⟩

/-- Settles O31: the shared frame, and that of the op-codes that do not insert. -/
theorem indexAndRunFrame : Obligations.IndexAndRunFrame := by
  unfold Obligations.IndexAndRunFrame
  refine fun s t n => ⟨fun h => ?_, fun h => ?_⟩
  all_goals obtain ⟨hframe, hhost⟩ := exec_decodeFrame h
  · exact ⟨hframe, hhost, exec_cache_of_not_inserts rfl h, exec_index_run h⟩
  · exact ⟨hframe, hhost, exec_cache_of_not_inserts rfl h, exec_run_px h⟩

/-! ### Another `IN` -/

/-- The state with another `IN` and `IN_LEN`. -/
def State.withInput (s : State) (n : Nat) (m : Memory) : State := { s with inLen := n, input := m }

theorem opState_withInput (i : Instr) (s : State) (n : Nat) (m : Memory) :
    opState i (s.withInput n m) = (opState i s).withInput n m := by cases i <;> rfl

theorem opPixel_withInput (i : Instr) (s : State) (n : Nat) (m : Memory) : opPixel i (s.withInput n m) = opPixel i s := by
  cases i <;> rfl

/-- Bytes that `IN` has inside `IN_LEN` are there too when it goes on. -/
theorem State.inputAt_withInput {s : State} {k n : Nat} {bs : List Byte} {m : Memory} (h : s.inputAt k bs)
    (hm : ∀ j < s.inLen, Memory.read m j = Memory.read s.input j) : (s.withInput (s.inLen + n) m).inputAt k bs := by
  obtain ⟨hk, hr⟩ := h
  obtain ⟨-, hread⟩ := Memory.readRange_eq_some.1 hr
  refine ⟨Nat.le_add_right_of_le hk, Memory.readRange_eq_some.2 ⟨rfl, fun j hj => ?_⟩⟩
  rw [← hread j hj]
  exact hm (k + j) (by omega)

/-- A decode pixel step that raises nothing does the same with another `IN`, so long as the op-code it runs, if it runs one, still
lies at `IP` (R142, R148). -/
theorem decodePixel_withInput {s t : State} {n : Nat} {m : Memory} (h : decodePixel s = .next t) (hne : t.phase ≠ .error)
    (hin : s.run = 0 → ∀ bs, s.inputAt s.ip bs → (s.withInput n m).inputAt s.ip bs) :
    decodePixel (s.withInput n m) = .next (t.withInput n m) := by
  rcases decodePixel_eq_next h with
    ⟨hr, hl, hk, rfl, hf⟩ | ⟨hr, bs, i, hi, hlen, hd, hl, hl', hk, rfl, hf⟩ | ⟨e, o, -, -, rfl⟩
  · rw [decodePixel_of_run (s := s.withInput n m) hr]
    exact commit_producePixel (u := ({ s with run := s.run - 1 } : State).withInput n m) ⟨hl, hk⟩ hf
  · rw [decodePixel_of_opcode (s := s.withInput n m) hr (hin hr bs hi) hd (hlen ▸ hl), hlen]
    change exec i ((s.used i.length).withInput n m) = _
    rw [exec_eq, opPixel_withInput, opState_withInput]
    have hw : (opState i (s.used i.length)).canWritePixel := (canWritePixel_opState i _).2 ⟨hl', hk⟩
    exact commit_producePixel (u := (opState i (s.used i.length)).withInput n m) hw hf
  · exact absurd rfl hne

theorem step_withInput {s : State} (hw : s.hostWaits) (hp : s.phase = .decPixels) (n : Nat) (m : Memory) :
    step (s.withInput n m) = decodePixel (s.afterWait.withInput n m) := step_decPixels (s := s.withInput n m) hw hp

/-- Settles O37: an op-code inside `IN` is still there when `IN` goes on. -/
theorem trailingBytesAreIgnored : Obligations.TrailingBytesAreIgnored := by
  unfold Obligations.TrailingBytesAreIgnored
  intro s t n m hw hp h hne hm
  rw [step_decPixels hw hp] at h
  exact (step_withInput hw hp _ m).trans
    (decodePixel_withInput h hne fun _ bs hbs => State.inputAt_withInput (s := s.afterWait) hbs hm)

/-! ### The cursors -/

/-- What a completed decode pixel step does to `PIX`, `PHASE` and `IP` (R130, R138, R141). -/
theorem decodePixel_cursors {s t : State} (h : decodePixel s = .next t) (hne : t.phase ≠ .error) :
    t.pix = s.pix + 1 ∧ (t.phase = if s.pix + 1 = s.npix then .done else s.phase) ∧
      (s.run = 0 → ∃ bs i, s.inputAt s.ip bs ∧ decode bs = .ok (i, []) ∧ t.ip = s.ip + bs.length) ∧
      (s.run ≠ 0 → t.ip = s.ip) := by
  rcases decodePixel_eq_next h with ⟨hr, -, -, rfl, -⟩ | ⟨hr, bs, i, hi, hlen, hd, -, -, -, rfl, -⟩ | ⟨e, o, -, -, rfl⟩
  · exact ⟨rfl, rfl, fun h0 => absurd h0 hr, fun _ => rfl⟩
  · exact ⟨by simp, by simp, fun _ => ⟨bs, i, hi, hd, by simp [hlen]⟩, fun h0 => absurd hr h0⟩
  · exact absurd rfl hne

/-- Settles O32: the cursors by `decodePixel_cursors`; a repeat reads no byte, so any `IN` will do. -/
theorem decodeStepCursors : Obligations.DecodeStepCursors := by
  unfold Obligations.DecodeStepCursors
  intro s t hw hp h hne
  rw [step_decPixels hw hp] at h
  obtain ⟨hpix, hphase, hop, hip⟩ := decodePixel_cursors h hne
  rw [State.afterWait_phase, hp] at hphase
  refine ⟨hpix, ?_, hop, fun hr => ⟨hip hr, fun n m => ?_⟩⟩
  · rw [hphase, hpix, State.afterWait_pix, State.afterWait_npix]
    split_ifs with hlast <;> simp [hlast]
  · exact (step_withInput hw hp n m).trans (decodePixel_withInput h hne fun h0 => absurd h0 hr)

/-! ### Hidden alpha -/

/-- What an op-code leaves in `OUT`: the bytes of its pixel, or, when a write fails, what was there (R139, R235). -/
theorem exec_out {i : Instr} {s t : State} (h : exec i s = .next t) :
    (s.canWritePixel ∧
        t.out = Memory.writeRange s.out (s.pix * s.channels) (pixelBytes s.hdrChannels (opPixel i s))) ∨
      (¬s.canWritePixel ∧ t.out = s.out) := by
  rw [exec_eq, commit_eq_next] at h
  rcases h with ⟨h, -⟩ | ⟨e, o, h, rfl⟩
  · obtain ⟨hl, hk, rfl⟩ := producePixel_eq_done.1 h
    exact .inl ⟨(canWritePixel_opState i s).1 ⟨hl, hk⟩, by simp⟩
  · refine .inr ⟨fun hw => ?_, rfl⟩
    rw [producePixel_of_canWrite ((canWritePixel_opState i s).2 hw)] at h
    cases h

/-- Two op-codes whose pixels have the same bytes leave the same `OUT`, in states that differ in `PX` and the cache only. -/
theorem exec_out_congr {i j : Instr} {s t t' : State} {p : Pixel} {c : Vector Pixel 64} (h : exec i s = .next t)
    (h' : exec j { s with px := p, cache := c } = .next t')
    (hb : pixelBytes s.hdrChannels (opPixel j { s with px := p, cache := c }) =
      pixelBytes s.hdrChannels (opPixel i s)) : t'.out = t.out := by
  rcases exec_out h with ⟨hw, ho⟩ | ⟨hw, ho⟩ <;> rcases exec_out h' with ⟨hw', ho'⟩ | ⟨hw', ho'⟩
  · rw [ho', ho, ← hb]
    rfl
  · exact absurd hw hw'
  · exact absurd hw' hw
  · rw [ho', ho]

/-- Two pixels are equal but for their alpha. -/
def sameColour (p q : Pixel) : Prop := p.r = q.r ∧ p.g = q.g ∧ p.b = q.b

/-- With 3 channels a pixel's bytes are its colour (R139). -/
theorem pixelBytes_of_sameColour {ch : Byte} {p q : Pixel} (hc : ch = 3) (h : sameColour p q) :
    pixelBytes ch p = pixelBytes ch q := by
  obtain ⟨hr, hg, hb⟩ := h
  subst hc
  simp [pixelBytes, hr, hg, hb]

/-- The colour an op-code produces comes from the colours of `PX` and of the cache slots, never from an alpha (R132-R137). -/
theorem opPixel_sameColour (i : Instr) {s : State} {p : Pixel} {c : Vector Pixel 64} (hp : sameColour p s.px)
    (hc : ∀ k : Slot, sameColour (cacheRead c k) (cacheRead s.cache k)) :
    sameColour (opPixel i { s with px := p, cache := c }) (opPixel i s) := by
  obtain ⟨hr, hg, hb⟩ := hp
  cases i with
  | index n => exact hc (slotOf n)
  | diff dr dg db => simp [sameColour, opPixel, diffPixel, addDeltas, hr, hg, hb]
  | luma dg drDg dbDg => simp [sameColour, opPixel, lumaPixel, addDeltas, hr, hg, hb]
  | run n => exact ⟨hr, hg, hb⟩
  | rgb r g b => exact ⟨rfl, rfl, rfl⟩
  | rgba r g b a => exact ⟨rfl, rfl, rfl⟩

/-- Settles O36: in each clause the two pixels have the same colour, and so the same bytes. -/
theorem hiddenAlphaNeverReachesOut : Obligations.HiddenAlphaNeverReachesOut := by
  unfold Obligations.HiddenAlphaNeverReachesOut
  intro s a h3
  refine ⟨fun i t t' h h' => ?_, fun c i t t' hc h h' => ?_, fun r g b x y t t' h h' => ?_⟩
  · exact exec_out_congr h h'
      (pixelBytes_of_sameColour h3 (opPixel_sameColour i ⟨rfl, rfl, rfl⟩ fun _ => ⟨rfl, rfl, rfl⟩))
  · exact exec_out_congr h h' (pixelBytes_of_sameColour h3 (opPixel_sameColour i ⟨rfl, rfl, rfl⟩ hc))
  · exact exec_out_congr (p := s.px) (c := s.cache) h h' (pixelBytes_of_sameColour h3 ⟨rfl, rfl, rfl⟩)

end Sys2Proof.Machine
end

section
/-! PROOFS. The op-code the encoder chooses (43_encode_ops.md): the order of its choice (R176-R182), that the encoding can
express it (R188), and the spellings it leaves out (R190, R191). -/

namespace Sys2Proof.Machine

/-! ### The choice, case by case -/

theorem chooseOp_of_hit {c : Vector Pixel 64} {p : Pixel} (h : cacheRead c (hash p) = p) (px : Pixel) :
    chooseOp c p px = .index (hash p).val := if_pos (decide_eq_true h)

theorem chooseOp_of_miss {c : Vector Pixel 64} {p : Pixel} (h : cacheRead c (hash p) ≠ p) (px : Pixel) :
    chooseOp c p px = chooseLiteral p px := if_neg (by simpa [cacheHit] using h)

/-- The four op-codes a miss can lead to, each with the tests that led to it, in the order of R178-R182. -/
theorem chooseLiteral_cases (p px : Pixel) :
    (p.a ≠ px.a ∧ chooseLiteral p px = .rgba p.r p.g p.b p.a) ∨
      (p.a = px.a ∧ diffFits (delta p.r px.r) (delta p.g px.g) (delta p.b px.b) = true ∧
        chooseLiteral p px = .diff (delta p.r px.r) (delta p.g px.g) (delta p.b px.b)) ∨
      (p.a = px.a ∧ diffFits (delta p.r px.r) (delta p.g px.g) (delta p.b px.b) = false ∧
        lumaFits (delta p.r px.r) (delta p.g px.g) (delta p.b px.b) = true ∧
        chooseLiteral p px =
          .luma (delta p.g px.g) (delta p.r px.r - delta p.g px.g) (delta p.b px.b - delta p.g px.g)) ∨
      (p.a = px.a ∧ diffFits (delta p.r px.r) (delta p.g px.g) (delta p.b px.b) = false ∧
        lumaFits (delta p.r px.r) (delta p.g px.g) (delta p.b px.b) = false ∧
        chooseLiteral p px = .rgb p.r p.g p.b) := by
  simp only [chooseLiteral]
  split_ifs with ha hd hl
  · exact .inl ⟨ha, rfl⟩
  · exact .inr (.inl ⟨not_not.1 ha, hd, rfl⟩)
  · exact .inr (.inr (.inl ⟨not_not.1 ha, Bool.not_eq_true _ ▸ hd, hl, rfl⟩))
  · exact .inr (.inr (.inr ⟨not_not.1 ha, Bool.not_eq_true _ ▸ hd, Bool.not_eq_true _ ▸ hl, rfl⟩))

/-- Settles O47: a hit, or one of the four cases of a miss, with the deltas read as signed bytes. -/
theorem opcodeChoicePriority : Obligations.OpcodeChoicePriority := by
  unfold Obligations.OpcodeChoicePriority
  intro c p px
  refine ⟨fun h => chooseOp_of_hit h px, fun h ha => ?rgba, fun h ha hd => ?diff, fun h ha hd hl => ?luma,
    fun h ha hd hl => ?rgb⟩
  all_goals
    rw [chooseOp_of_miss h, chooseLiteral]
    simp only [delta_eq_toInt, diffFits, lumaFits]
  case rgba => rw [if_pos ha]
  case diff => rw [if_neg (not_not.2 ha), if_pos (decide_eq_true hd)]
  case luma => rw [if_neg (not_not.2 ha), if_neg (by simpa using hd), if_pos (decide_eq_true hl)]
  case rgb => rw [if_neg (not_not.2 ha), if_neg (by simpa using hd), if_neg (by simpa using hl)]

/-! ### What the encoding can express -/

theorem wellFormed_chooseLiteral (p px : Pixel) : WellFormed (chooseLiteral p px) := by
  rcases chooseLiteral_cases p px with ⟨-, h⟩ | ⟨-, hd, h⟩ | ⟨-, -, hl, h⟩ | ⟨-, -, -, h⟩ <;> rw [h]
  · trivial
  · exact of_decide_eq_true hd
  · exact of_decide_eq_true hl
  · trivial

theorem wellFormed_chooseOp (c : Vector Pixel 64) (p px : Pixel) : WellFormed (chooseOp c p px) := by
  rcases chooseOp_cases c p px with ⟨-, h⟩ | h <;> rw [h]
  · exact (hash p).isLt
  · exact wellFormed_chooseLiteral p px

/-- Settles O48: INDEX names a slot, DIFF and LUMA are chosen where they fit, and the byte of a RUN is packed as R75 says. -/
theorem emittedOpcodesAreWellFormed : Obligations.EmittedOpcodesAreWellFormed := by
  refine ⟨wellFormed_chooseOp, fun n h1 h62 => ⟨_, rfl, ?_⟩⟩
  have hbyte := toNat_packRun (n := n) ⟨h1, h62⟩
  omega

/-! ### What the encoder leaves out -/

/-- INDEX is chosen on a hit only, and names the slot that holds the pixel (R176). -/
theorem chooseOp_eq_index {c : Vector Pixel 64} {p px : Pixel} {n : Nat} (h : chooseOp c p px = .index n) :
    n = (hash p).val ∧ cacheRead c (hash p) = p := by
  rcases chooseOp_cases c p px with ⟨hhit, h'⟩ | h' <;> rw [h'] at h
  · cases h
    exact ⟨rfl, hhit⟩
  · rcases chooseLiteral_cases p px with ⟨-, hc⟩ | ⟨-, -, hc⟩ | ⟨-, -, -, hc⟩ | ⟨-, -, -, hc⟩ <;>
      cases hc.symm.trans h

/-- An op-code other than INDEX was chosen on a miss. -/
theorem chooseLiteral_of_chooseOp {c : Vector Pixel 64} {p px : Pixel} {i : Instr} (h : chooseOp c p px = i)
    (hi : ∀ n, i ≠ .index n) : chooseLiteral p px = i := by
  rcases chooseOp_cases c p px with ⟨-, h'⟩ | h'
  · exact absurd (h.symm.trans h') (hi _)
  · exact h'.symm.trans h

/-- RGBA is chosen where the alpha changes only (R178). -/
theorem chooseOp_eq_rgba {c : Vector Pixel 64} {p px : Pixel} {r g b a : Byte} (h : chooseOp c p px = .rgba r g b a) :
    a = p.a ∧ p.a ≠ px.a := by
  replace h := chooseLiteral_of_chooseOp h (by simp)
  rcases chooseLiteral_cases p px with ⟨ha, hc⟩ | ⟨-, -, hc⟩ | ⟨-, -, -, hc⟩ | ⟨-, -, -, hc⟩ <;>
    cases hc.symm.trans h
  exact ⟨rfl, ha⟩

/-- LUMA is chosen where DIFF does not fit only (R180, R181). -/
theorem chooseOp_eq_luma {c : Vector Pixel 64} {p px : Pixel} {dg drDg dbDg : Int}
    (h : chooseOp c p px = .luma dg drDg dbDg) : diffFits (dg + drDg) dg (dg + dbDg) = false := by
  replace h := chooseLiteral_of_chooseOp h (by simp)
  rcases chooseLiteral_cases p px with ⟨-, hc⟩ | ⟨-, -, hc⟩ | ⟨-, hd, -, hc⟩ | ⟨-, -, -, hc⟩ <;>
    cases hc.symm.trans h
  rwa [add_sub_cancel, add_sub_cancel]

/-- RGB is chosen where neither DIFF nor LUMA fits only (R180-R182). -/
theorem chooseOp_eq_rgb {c : Vector Pixel 64} {p px : Pixel} {r g b : Byte} (h : chooseOp c p px = .rgb r g b) :
    diffFits (delta p.r px.r) (delta p.g px.g) (delta p.b px.b) = false ∧
      lumaFits (delta p.r px.r) (delta p.g px.g) (delta p.b px.b) = false := by
  replace h := chooseLiteral_of_chooseOp h (by simp)
  rcases chooseLiteral_cases p px with ⟨-, hc⟩ | ⟨-, -, hc⟩ | ⟨-, -, -, hc⟩ | ⟨-, hd, hl, hc⟩ <;>
    cases hc.symm.trans h
  exact ⟨hd, hl⟩

/-- A DIFF of three zeros would make the decoder produce `PX` again. -/
theorem chooseOp_ne_diff_zero {c : Vector Pixel 64} {p px : Pixel} (hne : p ≠ px) : chooseOp c p px ≠ .diff 0 0 0 := by
  intro h
  have hpx := (chooseOp_writes { State.reset with px := px, cache := c } p).1
  rw [h] at hpx
  refine hne (hpx.symm.trans ?_)
  simp [opPixel, diffPixel, addDeltas, addDelta, wrap8]

/-- The encoder's delta undoes a signed 8-bit delta. -/
theorem delta_addDelta (y : Byte) {d : Int} (hd : inRange (-128) d 127) : delta (addDelta y d) y = d := by
  have hy := y.isLt
  simp only [delta, addDelta, wrap8, s8, BitVec.toNat_ofInt]
  split_ifs <;> omega

/-- The encoder's three deltas for a pixel moved by signed 8-bit deltas are those deltas. -/
theorem delta_addDeltas (px : Pixel) {dr dg db : Int} (hr : inRange (-128) dr 127) (hg : inRange (-128) dg 127)
    (hb : inRange (-128) db 127) :
    delta (addDeltas px dr dg db).r px.r = dr ∧ delta (addDeltas px dr dg db).g px.g = dg ∧
      delta (addDeltas px dr dg db).b px.b = db :=
  ⟨delta_addDelta px.r hr, delta_addDelta px.g hg, delta_addDelta px.b hb⟩

/-- A DIFF the encoding can express produces only pixels whose deltas fit DIFF. -/
theorem diffFits_of_diffPixel (px : Pixel) {dr dg db : Int} (hwf : WellFormed (.diff dr dg db)) :
    diffFits (delta (diffPixel px dr dg db).r px.r) (delta (diffPixel px dr dg db).g px.g)
      (delta (diffPixel px dr dg db).b px.b) = true := by
  obtain ⟨hr, hg, hb⟩ := hwf
  obtain ⟨er, eg, eb⟩ := delta_addDeltas px (dr := dr) (dg := dg) (db := db) (by omega) (by omega) (by omega)
  rw [diffPixel, er, eg, eb]
  exact decide_eq_true ⟨hr, hg, hb⟩

/-- A LUMA the encoding can express produces only pixels whose deltas fit LUMA. -/
theorem lumaFits_of_lumaPixel (px : Pixel) {dg drDg dbDg : Int} (hwf : WellFormed (.luma dg drDg dbDg)) :
    lumaFits (delta (lumaPixel px dg drDg dbDg).r px.r) (delta (lumaPixel px dg drDg dbDg).g px.g)
      (delta (lumaPixel px dg drDg dbDg).b px.b) = true := by
  obtain ⟨hg, hr, hb⟩ := hwf
  obtain ⟨er, eg, eb⟩ :=
    delta_addDeltas px (dr := dg + drDg) (dg := dg) (db := dg + dbDg) (by omega) (by omega) (by omega)
  rw [lumaPixel, er, eg, eb]
  refine decide_eq_true ⟨hg, ?_, ?_⟩ <;> rwa [add_sub_cancel_left]

/-- An op-code that completes leaves its pixel in `PX`. -/
theorem exec_px {i : Instr} {s t : State} (h : exec i s = .next t) (hne : t.phase ≠ .error) : t.px = opPixel i s := by
  rcases exec_eq_next h with ⟨-, -, rfl, -⟩ | ⟨o, -, rfl⟩
  · rfl
  · exact absurd rfl hne

/-- Settles O49: each op-code was chosen because the shorter spellings before it do not fit. -/
theorem encodingsNeverProduced : Obligations.EncodingsNeverProduced := by
  unfold Obligations.EncodingsNeverProduced
  refine fun c p px hne => ⟨chooseOp_ne_diff_zero hne, fun _ _ _ => chooseOp_eq_luma, fun r g b h => ?rgb,
    fun r g b a h => ?rgba, fun _ => chooseOp_eq_index⟩
  case rgb =>
    obtain ⟨hd, hl⟩ := chooseOp_eq_rgb h
    rintro i hwf hi s t rfl - hexec hphase rfl
    rw [exec_px hexec hphase] at hd hl
    rcases hi with ⟨dr, dg, db, rfl⟩ | ⟨dg, drDg, dbDg, rfl⟩
    · exact absurd (diffFits_of_diffPixel s.px hwf) (by rw [Bool.not_eq_true]; exact hd)
    · exact absurd (lumaFits_of_lumaPixel s.px hwf) (by rw [Bool.not_eq_true]; exact hl)
  case rgba =>
    obtain ⟨rfl, ha⟩ := chooseOp_eq_rgba h
    exact ha

/-- Settles O51: with 3 channels both alphas are 255, by R190 and R65. -/
theorem threeChannelEncodeNeverRgba : Obligations.ThreeChannelEncodeNeverRgba := by
  unfold Obligations.ThreeChannelEncodeNeverRgba
  intro s p hinv hp h3 hat r g b a h
  have hpx : s.px.a = 255 := hinv.alpha (.inl hp) h3
  exact (chooseOp_eq_rgba h).2 ((State.pixelAt_alpha hat h3).trans hpx.symm)

end Sys2Proof.Machine
end

section
/-! PROOFS. The steps of the encoder (43_encode_ops.md): a run pixel (R172, R173), a pixel that is no run pixel (R174-R177),
the tail (R185), and how many bytes they emit (R187). -/

namespace Sys2Proof.Machine

/-! ### The encode pixel step -/

/-- Below the cap a pixel equal to `PX` is counted, and nothing is emitted (R172). -/
theorem classify_of_run_lt {s : State} (hr : s.run.toNat < 61) :
    classify s.px s = .done () { s with run := BitVec.ofNat 6 (s.run.toNat + 1) } := by
  have hrun : s.run + 1 = BitVec.ofNat 6 (s.run.toNat + 1) := by bv_omega
  exact classify_eq_done.2 (.inl ⟨rfl, by bv_omega, by rw [hrun]⟩)

/-- At the cap the run is emitted as the byte FD (R173). -/
theorem classify_of_run_cap {s : State} (hr : s.run.toNat = 61) (hl : s.lets 1) :
    classify s.px s = .done () { s.emitted [0xFD] with run := 0 } :=
  classify_eq_done.2 (.inr (.inl ⟨rfl, by bv_omega, hl, rfl⟩))

/-- A pixel other than `PX` flushes the run, emits its op-code and goes into the cache (R174-R177). -/
theorem classify_of_ne {s : State} {p : Pixel} (hp : p ≠ s.px) (hl : s.lets (newPixelBytes s p).length) :
    classify p s = .done () { s.emitted (newPixelBytes s p) with run := 0, cache := cacheInsert s.cache p } :=
  classify_eq_done.2 (.inr (.inr ⟨hp, hl, rfl⟩))

/-- Settles O45, below the cap and at it. -/
theorem runPixelResult : Obligations.RunPixelResult := by
  unfold Obligations.RunPixelResult
  intro s hw hp hpix hat
  rw [step_encPixels hw hp, ← hp]
  refine ⟨fun hr hl hf => ?below, fun hr hl hf => ?cap⟩
  case below =>
    exact encodePixel_of_classify (s := s.afterWait) hl hpix hat (classify_of_run_lt (s := s.afterWait.used 1) hr) hf
  case cap =>
    obtain ⟨hl1, hl2⟩ := State.lets_add (m := 1) (n := 1).1 hl
    exact encodePixel_of_classify (s := s.afterWait) hl1 hpix hat
      (classify_of_run_cap (s := s.afterWait.used 1) hr hl2) hf

/-- Settles O46: the pixel is read, classified as new, and passed on as `PX`. -/
theorem newPixelResult : Obligations.NewPixelResult := by
  unfold Obligations.NewPixelResult
  intro s p hw hp hpix hat hne bytes hl hf
  obtain ⟨hl1, hl2⟩ := State.lets_add.1 hl
  rw [step_encPixels hw hp, ← hp]
  exact encodePixel_of_classify (s := s.afterWait) hl1 hpix hat
    (classify_of_ne (s := s.afterWait.used 1) hne hl2) hf

/-- Settles O52: the flush and the end marker are one emission. -/
theorem tailResult : Obligations.TailResult := by
  unfold Obligations.TailResult
  intro s hw hp bytes hl hf
  rw [step_encTail hw hp]
  exact encodeTail_of_lets (s := s.afterWait) hl hf

/-! ### How many bytes the encoder emits -/

theorem encode_length_le (i : Instr) : (encode i).length ≤ 5 := by
  cases i <;> simp [encode]

/-- Classification emits at most 5 bytes more than it takes off the pending run (R187). -/
theorem classify_op_le {p : Pixel} {s t : State} {u : Unit} (h : classify p s = .done u t) :
    t.pix = s.pix ∧ t.op + (pendingRun t.run).length ≤ s.op + (pendingRun s.run).length + 5 := by
  have hpend := pendingRun_length_le t.run
  rcases classify_eq_done.1 h with ⟨-, -, rfl⟩ | ⟨-, -, -, rfl⟩ | ⟨-, -, rfl⟩
  · exact ⟨rfl, by simp only at hpend ⊢; omega⟩
  · exact ⟨rfl, by simp [pendingRun]; omega⟩
  · have hlen := encode_length_le (chooseOp s.cache p s.px)
    exact ⟨rfl, by simp [pendingRun, newPixelBytes]; omega⟩

/-- Settles O53, by what classification and the tail emit; a step that raises emits nothing. -/
theorem encoderOutputBound : Obligations.EncoderOutputBound := by
  unfold Obligations.EncoderOutputBound
  intro s t hw _ hs hbound
  refine ⟨fun hp => ?pixel, fun hp => ?tail⟩
  case pixel =>
    rw [step_encPixels hw hp] at hs
    rcases encodePixel_eq_next hs with ⟨p, s', -, -, -, hcl, rfl, -⟩ | ⟨o, -, rfl⟩
    · obtain ⟨hpix, hop⟩ := classify_op_le hcl
      simp only [State.used_pix, State.used_op, State.used_run, State.afterWait_pix, State.afterWait_op,
        State.afterWait_run] at hpix hop
      simp only [advanceEncoder_op, advanceEncoder_run, advanceEncoder_pix]
      omega
    · exact hbound
  case tail =>
    rw [step_encTail hw hp] at hs
    rcases encodeTail_eq_next hs with ⟨-, rfl, -⟩ | ⟨o, -, rfl⟩
    · simp [endMarker]
      omega
    · simp
      omega

end Sys2Proof.Machine
end

section
/-! PROOFS. Runs of the block with nothing in their way: what several steps in a row are, and the encoder on a row of pixels
equal to `PX` (R172, R173). -/

namespace Sys2Proof.Machine

/-! ### Several steps -/

theorem run_cons {M : Host.Core} {s t u : M.State} {k : Nat} (h : M.step s = .next t) (h' : M.run k t = .next u) :
    M.run (k + 1) s = .next u := by
  rw [Host.Core.run, h]
  exact h'

theorem run_trans {M : Host.Core} {m n : Nat} {s t u : M.State} (h : M.run m s = .next t) (h' : M.run n t = .next u) :
    M.run (m + n) s = .next u := by
  induction m generalizing s with
  | zero =>
    cases h
    rwa [Nat.zero_add]
  | succ m ih =>
    rw [Host.Core.run] at h
    rw [Nat.succ_add]
    split at h
    · next s' hs => exact run_cons hs (ih h)
    · cases h
    · cases h

/-- One more step after a run. -/
theorem run_snoc {M : Host.Core} {m : Nat} {s t u : M.State} (h : M.run m s = .next t) (h' : M.step t = .next u) :
    M.run (m + 1) s = .next u := run_trans h (run_cons h' rfl)

/-! ### Nothing in the way -/

/-- The host has no move left, the oracle never fails, and the cursors are unbounded. -/
structure State.Unhindered (s : State) : Prop where
  host : s.host = []
  oracle : s.oracle = []
  unbounded : s.config.cursorBits = none

theorem State.Unhindered.waits {s : State} (h : s.Unhindered) : s.hostWaits := .inl h.host

theorem State.Unhindered.lets {s : State} (h : s.Unhindered) (n : Nat) : s.lets n := State.lets_of_oracle_nil h.oracle n

/-- No step is refused, wherever the cursors go. -/
theorem State.Unhindered.cursorsFit {s : State} (h : s.Unhindered) (pix ip op : Nat) :
    ({ s with pix := pix, ip := ip, op := op } : State).cursorsFit = true :=
  State.cursorsFit_of_unbounded (s := { s with pix := pix, ip := ip, op := op }) h.unbounded

theorem State.Unhindered.used_afterWait {s : State} (h : s.Unhindered) (n : Nat) : s.afterWait.used n = s := by
  obtain ⟨⟩ := s
  obtain ⟨rfl, rfl, -⟩ := h
  simp [State.afterWait, State.used]

theorem State.Unhindered.emitted {s : State} (h : s.Unhindered) (bs : List Byte) : (s.emitted bs).Unhindered :=
  ⟨h.host, by simp [h.oracle], h.unbounded⟩

/-- Where pixel `i` lies depends on `HDR_CHANNELS` and `PIXIN` alone. -/
theorem State.pixelAt_congr {s t : State} {i : Nat} {p : Pixel} (hc : t.hdrChannels = s.hdrChannels)
    (hp : t.pixin = s.pixin) : t.pixelAt i p ↔ s.pixelAt i p := by
  rw [State.pixelAt, State.pixelAt, hc, hp]

/-! ### A run of pixels equal to `PX` -/

/-- The encoder after `k` pixels equal to `PX`, from `RUN = 0`: a byte FD for each full run of 62 (R173). -/
def State.afterEqual (s : State) (k : Nat) : State :=
  { s.emitted (List.replicate (k / 62) 0xFD) with
    run := BitVec.ofNat 6 (k % 62)
    pix := s.pix + k
    ip := s.ip + k * s.channels
    phase := if k = 0 ∨ s.pix + k ≠ s.npix then .encPixels else .encTail }

theorem State.afterEqual_zero {s : State} (hp : s.phase = .encPixels) (hr : s.run = 0) : s.afterEqual 0 = s := by
  obtain ⟨⟩ := s
  subst hp hr
  simp [State.afterEqual, State.emitted, Memory.writeRange]

theorem State.afterEqual_run (s : State) (k : Nat) : (s.afterEqual k).run.toNat = k % 62 := by
  rw [State.afterEqual, BitVec.toNat_ofNat]
  omega

/-- One more equal pixel: below the cap `RUN` grows, and at it the next byte FD is emitted. -/
theorem step_afterEqual {s : State} {k : Nat} (h : s.Unhindered) (hlt : s.pix + k < s.npix)
    (hat : s.pixelAt (s.pix + k) s.px) : step (s.afterEqual k) = .next (s.afterEqual (k + 1)) := by
  have hk : (s.afterEqual k).Unhindered := ⟨h.host, by simp [State.afterEqual, h.oracle], h.unbounded⟩
  have hp : (s.afterEqual k).phase = .encPixels := if_pos (.inr hlt.ne)
  have hrun := s.afterEqual_run k
  obtain ⟨hbelow, hcap⟩ := runPixelResult _ hk.waits hp hlt hat
  by_cases hk61 : k % 62 = 61
  · have hd : (k + 1) / 62 = k / 62 + 1 := by omega
    have hm : (k + 1) % 62 = 0 := by omega
    rw [hcap (by omega) (hk.lets 2) (hk.cursorsFit _ _ _), hk.used_afterWait]
    simp [State.afterEqual, State.emitted, hd, hm, List.replicate_succ', Memory.writeRange_append, State.npix,
      State.channels, Nat.succ_mul, Nat.add_assoc]
  · have hd : (k + 1) / 62 = k / 62 := by omega
    have hm : (k + 1) % 62 = k % 62 + 1 := by omega
    rw [hbelow (by omega) (hk.lets 1) (hk.cursorsFit _ _ _), hk.used_afterWait, hrun]
    simp [State.afterEqual, State.emitted, hd, hm, State.npix, State.channels, Nat.succ_mul, Nat.add_assoc]

theorem run_afterEqual {s : State} (h : s.Unhindered) (hp : s.phase = .encPixels) (hr : s.run = 0) (k : Nat)
    (hle : s.pix + k ≤ s.npix) (hat : ∀ j < k, s.pixelAt (s.pix + j) s.px) :
    core.run k s = .next (s.afterEqual k) := by
  induction k with
  | zero =>
    rw [State.afterEqual_zero hp hr]
    rfl
  | succ k ih =>
    exact run_snoc (ih (by omega) fun j hj => hat j (by omega)) (step_afterEqual h (by omega) (hat k (by omega)))

/-- Settles O55, by the state `State.afterEqual` after `k` steps. -/
theorem runCapOverManyPixels : Obligations.RunCapOverManyPixels := by
  unfold Obligations.RunCapOverManyPixels
  intro k s hp hh ho hcb hr hle hat
  refine ⟨_, run_afterEqual ⟨hh, ho, hcb⟩ hp hr k hle hat, s.afterEqual_run k, ?_, ?_, rfl, rfl⟩
  · simp [State.afterEqual]
  · have hread := Memory.readRange_writeRange s.sink s.op (List.replicate (k / 62) 0xFD)
    rwa [List.length_replicate] at hread

end Sys2Proof.Machine
end

section
/-! PROOFS. What bytes make the decoder produce: in a decoder that holds the encoder's `PX` and cache, the op-code the encoder
chose for a pixel produces that pixel (R119), and a RUN op-code repeats `PX` (R137, R138). -/

namespace Sys2Proof.Machine

/-! ### A decoder between two steps -/

/-- The block is in a decode run past its header, with nothing in its way. -/
structure State.Decoding (d : State) : Prop where
  free : d.Unhindered
  channels : supportedChannels d.hdrChannels
  phase : d.phase = if d.pix = d.npix then .done else .decPixels
  op : d.op = d.pix * d.channels

/-- What encoder and decoder hold in common between two op-codes: the previous pixel and the cache. -/
structure Context where
  px : Pixel
  cache : Vector Pixel 64

/-- The context at the start of every run (R261). -/
def Context.start : Context := ⟨Pixel.start, emptyCache⟩

def State.context (s : State) : Context := ⟨s.px, s.cache⟩

/-- The decoder once it has produced these pixels (R139-R141) and its other registers hold these values. -/
def State.decodedTo (d : State) (ps : List Pixel) (c : Context) (run : BitVec 6) (ip : Nat) : State :=
  { d with
    px := c.px
    cache := c.cache
    run := run
    ip := ip
    out := Memory.writeRange d.out (d.pix * d.channels) (ps.flatMap (pixelBytes d.hdrChannels))
    op := (d.pix + ps.length) * d.channels
    pix := d.pix + ps.length
    phase := if d.pix + ps.length = d.npix then .done else .decPixels }

section
variable {d : State} {ps : List Pixel} {c : Context} {run : BitVec 6} {ip : Nat}

@[simp] theorem State.decodedTo_ip : (d.decodedTo ps c run ip).ip = ip := rfl
@[simp] theorem State.decodedTo_pix : (d.decodedTo ps c run ip).pix = d.pix + ps.length := rfl
@[simp] theorem State.decodedTo_npix : (d.decodedTo ps c run ip).npix = d.npix := rfl

theorem State.Decoding.decodedTo (h : d.Decoding) : (d.decodedTo ps c run ip).Decoding :=
  ⟨⟨h.free.host, h.free.oracle, h.free.unbounded⟩, h.channels, rfl, rfl⟩

end

theorem State.Decoding.decodedTo_nil {d : State} (h : d.Decoding) : d.decodedTo [] d.context d.run d.ip = d := by
  obtain ⟨-, -, hphase, hop⟩ := h
  rw [State.decodedTo, List.length_nil, Nat.add_zero, ← hphase, ← hop]
  rfl

/-- The bytes of pixels are as many as the pixels times the bytes of one (R53). -/
theorem length_flatMap_pixelBytes (ch : Byte) (ps : List Pixel) :
    (ps.flatMap (pixelBytes ch)).length = ps.length * pixelWidth ch := by
  simp [List.length_flatMap, List.map_const']

theorem State.Decoding.decodedTo_decodedTo {d : State} (h : d.Decoding) (ps qs : List Pixel) (c c' : Context)
    (run run' : BitVec 6) (ip ip' : Nat) :
    (d.decodedTo ps c run ip).decodedTo qs c' run' ip' = d.decodedTo (ps ++ qs) c' run' ip' := by
  have hend : (d.pix + ps.length) * d.channels = d.pix * d.channels + (ps.flatMap (pixelBytes d.hdrChannels)).length := by
    rw [length_flatMap_pixelBytes, pixelWidth_of_supported h.channels, Nat.add_mul]
  simp only [State.decodedTo, List.flatMap_append, Memory.writeRange_append, List.length_append, ← Nat.add_assoc, ← hend]
  rfl

/-! ### One step -/

theorem State.Decoding.phase_of_lt {d : State} (h : d.Decoding) (hlt : d.pix < d.npix) : d.phase = .decPixels :=
  h.phase.trans (if_neg hlt.ne)

theorem State.Decoding.pixelReady {d : State} (h : d.Decoding) (hlt : d.pix < d.npix) (len : Nat) : d.pixelReady len :=
  ⟨h.channels, hlt, h.free.lets _, h.free.cursorsFit _ _ _⟩

/-- One pixel, as a decode step leaves it. -/
theorem State.Decoding.pixelDone {d : State} (h : d.Decoding) (hlt : d.pix < d.npix) (p : Pixel) (cache : Vector Pixel 64)
    (run : BitVec 6) (ip : Nat) :
    ({ d with cache := cache, run := run, ip := ip } : State).pixelDone p = d.decodedTo [p] ⟨p, cache⟩ run ip := by
  simp [State.pixelDone, State.decodedTo, h.free.oracle, h.phase_of_lt hlt, State.npix, State.channels]

/-- With no repeat left, the decoder runs the well-formed op-code whose bytes lie at `IP` (R130). -/
theorem State.Decoding.step_opcode {d : State} {i : Instr} (h : d.Decoding) (hr : d.run = 0) (hwf : WellFormed i)
    (hi : d.inputAt d.ip (encode i)) (hlt : d.pix < d.npix) :
    step d = .next
      (d.decodedTo [opPixel i d] ⟨opPixel i d, (opState i d).cache⟩ (opState i d).run (d.ip + (encode i).length)) := by
  have hdec : decode (encode i) = .ok (i, []) := decode_eq_ok_iff.2 ⟨hwf, List.append_nil _⟩
  obtain ⟨cache, run, hs, -⟩ := opState_eq i d
  rw [stepRunsOpcodeAtIp d _ i h.free.waits (h.phase_of_lt hlt) hr hi hdec (h.free.lets _), h.free.used_afterWait,
    exec_of_ready (h.pixelReady hlt _), hs, h.pixelDone hlt, encode_length]

/-- With repeats left, the decoder produces `PX` once more (R138). -/
theorem State.Decoding.step_repeat {d : State} (h : d.Decoding) (hr : d.run ≠ 0) (hlt : d.pix < d.npix) :
    step d = .next (d.decodedTo [d.px] d.context (BitVec.ofNat 6 (d.run.toNat - 1)) d.ip) := by
  have hdone := h.pixelDone hlt d.px d.cache (BitVec.ofNat 6 (d.run.toNat - 1)) d.ip
  rw [runRepeatResult d h.free.waits (h.phase_of_lt hlt) hr (h.pixelReady hlt 0), State.afterWait_of_nil h.free.host]
  exact congrArg _ hdone

/-! ### What bytes make the decoder produce -/

/-- In a context `c`, a decoder that finds these bytes at `IP` produces these pixels, a step for each, takes all the bytes, and
ends in the context `c'` with no repeat left. -/
def Produces (c : Context) (bs : List Byte) (ps : List Pixel) (c' : Context) : Prop :=
  ∀ d : State, d.Decoding → d.run = 0 → d.context = c → d.inputAt d.ip bs → d.pix + ps.length ≤ d.npix →
    core.run ps.length d = .next (d.decodedTo ps c' 0 (d.ip + bs.length))

theorem Produces.nil (c : Context) : Produces c [] [] c := by
  rintro d hd hr rfl - -
  have hnil := hd.decodedTo_nil
  rw [hr] at hnil
  exact congrArg _ hnil.symm

/-- Bytes at an offset that fall into two parts are the first part there and the second behind it. -/
theorem State.inputAt_append {s : State} {k : Nat} {bs cs : List Byte} (h : s.inputAt k (bs ++ cs)) :
    s.inputAt k bs ∧ s.inputAt (k + bs.length) cs := by
  obtain ⟨hk, hr⟩ := h
  obtain ⟨hbs, hcs⟩ := Memory.readRange_split hr
  rw [List.length_append] at hk
  exact ⟨⟨by omega, hbs⟩, by omega, hcs⟩

theorem Produces.append {c c' c'' : Context} {bs bs' : List Byte} {ps ps' : List Pixel} (h : Produces c bs ps c')
    (h' : Produces c' bs' ps' c'') : Produces c (bs ++ bs') (ps ++ ps') c'' := by
  intro d hd hr hc hi hle
  obtain ⟨hi1, hi2⟩ := State.inputAt_append hi
  rw [List.length_append] at hle
  have hfirst := h d hd hr hc hi1 (by omega)
  have hsecond := h' _ (hd.decodedTo (ps := ps) (c := c') (run := 0)) rfl rfl hi2 (by simp; omega)
  rw [hd.decodedTo_decodedTo, State.decodedTo_ip] at hsecond
  rw [List.length_append, List.length_append, ← Nat.add_assoc]
  exact run_trans hfirst hsecond

/-- The op-code the encoder chose for a pixel produces it, and the decoder's cache follows the encoder's (R119). -/
theorem produces_chooseOp (c : Context) (p : Pixel) :
    Produces c (encode (chooseOp c.cache p c.px)) [p] ⟨p, cacheInsert c.cache p⟩ := by
  rintro d hd hr rfl hi hle
  obtain ⟨hpx, hcache, hrun⟩ := chooseOp_writes d p
  have hstep := hd.step_opcode hr (wellFormed_chooseOp d.cache p d.px) hi hle
  rw [hpx, hcache, hrun, hr, cacheAfter_eq_cacheInsert] at hstep
  exact run_cons hstep rfl

/-- The repeats still to come: `PX` again for each, and no byte is read (R138). -/
theorem State.Decoding.run_repeats {d : State} {n : Nat} (h : d.Decoding) (hr : d.run.toNat = n)
    (hle : d.pix + n ≤ d.npix) :
    core.run n d = .next (d.decodedTo (List.replicate n d.px) d.context 0 d.ip) := by
  induction n generalizing d with
  | zero =>
    have hnil := h.decodedTo_nil
    rw [show d.run = 0 from BitVec.eq_of_toNat_eq hr] at hnil
    exact congrArg _ hnil.symm
  | succ n ih =>
    have hstep := h.step_repeat (by bv_omega) (by omega)
    have hn : (BitVec.ofNat 6 (d.run.toNat - 1)).toNat = n := by
      rw [BitVec.toNat_ofNat]
      omega
    have hrest := ih (h.decodedTo (ps := [d.px]) (c := d.context) (ip := d.ip)) hn (by simp; omega)
    rw [h.decodedTo_decodedTo] at hrest
    exact run_cons hstep hrest

/-- A RUN op-code produces `PX` as often as its length says: once itself, and then by repeats (R137, R138). -/
theorem produces_run (c : Context) {n : Nat} (hwf : WellFormed (.run n)) :
    Produces c (encode (.run n)) (List.replicate n c.px) c := by
  obtain ⟨n, rfl⟩ := Nat.exists_eq_add_of_le' hwf.1
  rintro d hd hr rfl hi hle
  rw [List.length_replicate] at hle ⊢
  have hstep := hd.step_opcode hr hwf hi (by omega)
  have hn : (runRepeats (n + 1)).toNat = n := by
    have := hwf.2
    rw [runRepeats, BitVec.toNat_ofNat]
    omega
  have hrest := (hd.decodedTo (ps := [d.px]) (c := d.context) (ip := d.ip + 1)).run_repeats hn (by simp; omega)
  rw [hd.decodedTo_decodedTo] at hrest
  exact run_cons hstep hrest

/-- The RUN op-code for a pending run produces that many pixels, none where none is pending (R174). -/
theorem produces_pendingRun (c : Context) {r : BitVec 6} (h : r.toNat ≤ 62) :
    Produces c (pendingRun r) (List.replicate r.toNat c.px) c := by
  unfold pendingRun
  split_ifs with h0
  · subst h0
    exact Produces.nil c
  · exact produces_run c ⟨by bv_omega, h⟩

end Sys2Proof.Machine
end

section
/-! PROOFS. Decoding what the encoder produced (R189).  The encoder keeps that its bytes so far make a decoder produce its
pixels so far, but for the pending run, and lead it to the encoder's own `PX` and cache; around this are the two runs. -/

namespace Sys2Proof.Machine

/-! ### An encoder between two steps -/

/-- `SINK` holds exactly these bytes. -/
def State.sinkHolds (e : State) (bs : List Byte) : Prop :=
  e.op = bs.length ∧ Memory.readRange e.sink 0 bs.length = some bs

theorem State.sinkHolds_emitted {e : State} {bs : List Byte} (h : e.sinkHolds bs) (cs : List Byte) :
    (e.emitted cs).sinkHolds (bs ++ cs) := by
  obtain ⟨hop, hr⟩ := h
  refine ⟨by simp [hop], ?_⟩
  rw [State.emitted_sink, List.length_append, hop]
  refine Memory.readRange_append ?_ ?_
  · rw [Memory.readRange_writeRange_below _ _ (by omega), hr]
  · rw [Nat.zero_add, Memory.readRange_writeRange]

/-- At `DONE` the host gets what `SINK` holds (R215). -/
theorem encodeResult_of_sinkHolds {e : State} {bs : List Byte} (hp : e.phase = .done) (h : e.sinkHolds bs) :
    encodeResult e = some (.encoded bs) := by
  obtain ⟨hop, hr⟩ := h
  rw [encodeResult, hp, hop, hr]
  rfl

/-- The block is in an encode run past its header, with nothing in its way, and has read the pixels `ps`: behind `header` its
bytes make a decoder produce `ps` but for the pending run, and lead it to the encoder's context. -/
structure State.Encoding (e : State) (header : List Byte) (ps : List Pixel) : Prop where
  free : e.Unhindered
  phase : e.phase = if e.pix = e.npix then .encTail else .encPixels
  run : e.run.toNat ≤ 61
  pix : e.pix = ps.length
  stream : ∃ bs qs, e.sinkHolds (header ++ bs) ∧ Produces .start bs qs e.context ∧
    ps = qs ++ List.replicate e.run.toNat e.px

section
variable {e : State} {header : List Byte} {ps : List Pixel}

theorem State.Encoding.phase_of_lt (h : e.Encoding header ps) (hlt : e.pix < e.npix) : e.phase = .encPixels :=
  h.phase.trans (if_neg hlt.ne)

/-- A pixel equal to `PX` joins the pending run, and at the cap the run is emitted (R172, R173). -/
theorem State.Encoding.step_equal (h : e.Encoding header ps) (hlt : e.pix < e.npix) (hat : e.pixelAt e.pix e.px) :
    ∃ t, step e = .next t ∧ t.Encoding header (ps ++ [e.px]) := by
  obtain ⟨hbelow, hcap⟩ := runPixelResult e h.free.waits (h.phase_of_lt hlt) hlt hat
  rw [h.free.used_afterWait] at hbelow hcap
  obtain ⟨bs, qs, hsink, hprod, hps⟩ := h.stream
  rcases Nat.lt_or_eq_of_le h.run with hr | hr
  · have hrun : (BitVec.ofNat 6 (e.run.toNat + 1)).toNat = e.run.toNat + 1 := by
      rw [BitVec.toNat_ofNat]
      omega
    refine ⟨_, hbelow hr (h.free.lets 1) (h.free.cursorsFit _ _ _),
      ⟨h.free.host, h.free.oracle, h.free.unbounded⟩, rfl, ?_, ?_, bs, qs, hsink, hprod, ?_⟩
    · exact hrun.trans_le (by omega)
    · simp [h.pix]
    · simp only [hps, List.append_assoc, ← List.replicate_succ', hrun]
  · have hfree := h.free.emitted [0xFD]
    refine ⟨_, hcap hr (h.free.lets 2) (h.free.cursorsFit _ _ _),
      ⟨hfree.host, hfree.oracle, hfree.unbounded⟩, rfl, ?_, ?_, bs ++ [0xFD], qs ++ List.replicate 62 e.px, ?_, ?_, ?_⟩
    · simp
    · simp [h.pix]
    · rw [← List.append_assoc]
      exact State.sinkHolds_emitted hsink [0xFD]
    · exact hprod.append (produces_run e.context (n := 62) (by decide))
    · simp [hps, hr, List.replicate_succ' (n := 61)]

/-- A pixel other than `PX` is emitted behind the pending run (R174-R182). -/
theorem State.Encoding.step_new {p : Pixel} (h : e.Encoding header ps) (hlt : e.pix < e.npix) (hat : e.pixelAt e.pix p)
    (hne : p ≠ e.px) : ∃ t, step e = .next t ∧ t.Encoding header (ps ++ [p]) := by
  have hnew := newPixelResult e p h.free.waits (h.phase_of_lt hlt) hlt hat hne (h.free.lets _) (h.free.cursorsFit _ _ _)
  rw [h.free.used_afterWait] at hnew
  obtain ⟨bs, qs, hsink, hprod, rfl⟩ := h.stream
  have hfree := h.free.emitted (newPixelBytes e p)
  have hpend : Produces e.context (pendingRun e.run) (List.replicate e.run.toNat e.px) e.context :=
    produces_pendingRun e.context (Nat.le_succ_of_le h.run)
  refine ⟨_, hnew, ⟨hfree.host, hfree.oracle, hfree.unbounded⟩, rfl, ?_, ?_, bs ++ newPixelBytes e p,
    qs ++ (List.replicate e.run.toNat e.px ++ [p]), ?_, ?_, ?_⟩
  · simp
  · simp [h.pix, Nat.add_assoc]
  · rw [← List.append_assoc]
    exact State.sinkHolds_emitted hsink _
  · exact hprod.append (hpend.append (produces_chooseOp e.context p))
  · simp

theorem State.Encoding.step_pixel {p : Pixel} (h : e.Encoding header ps) (hlt : e.pix < e.npix)
    (hat : e.pixelAt e.pix p) : ∃ t, step e = .next t ∧ t.Encoding header (ps ++ [p]) := by
  by_cases hp : p = e.px
  · subst hp
    exact h.step_equal hlt hat
  · exact h.step_new hlt hat hp

/-- The encoder reads every pixel of the image, one a step. -/
theorem State.Encoding.run_pixels {rs : List Pixel} (h : e.Encoding header ps) (hn : e.pix + rs.length = e.npix)
    (hat : ∀ i p, rs[i]? = some p → e.pixelAt (e.pix + i) p) :
    ∃ t, core.run rs.length e = .next t ∧ t.Encoding header (ps ++ rs) ∧ t.pix = t.npix := by
  induction rs generalizing e ps with
  | nil => exact ⟨e, rfl, by simpa using h, hn⟩
  | cons r rs ih =>
    rw [List.length_cons] at hn
    have hlt : e.pix < e.npix := by omega
    obtain ⟨t, hstep, ht⟩ := h.step_pixel hlt (hat 0 r rfl)
    obtain ⟨hw, hh, hc, -, -, -, hpixin, -⟩ :=
      encoderStepsFrame e t h.free.waits (.inr (.inl (h.phase_of_lt hlt))) hstep
    have hpix : t.pix = e.pix + 1 := by simp [ht.pix, h.pix]
    have hnpix : t.npix = e.npix := by rw [State.npix, State.npix, hw, hh]
    obtain ⟨u, hrun, hu, hend⟩ := ih ht (by omega) fun i p hi => by
      rw [State.pixelAt_congr hc hpixin, hpix, Nat.add_assoc, Nat.add_comm 1]
      exact hat (i + 1) p hi
    exact ⟨u, run_cons hstep hrun, by simpa using hu, hend⟩

/-- The tail ends the run with the pending run emitted and the end marker behind it (R185). -/
theorem State.Encoding.step_tail (h : e.Encoding header ps) (hend : e.pix = e.npix) :
    ∃ t bs c, step e = .next t ∧ encodeResult t = some (.encoded (header ++ (bs ++ endMarker))) ∧
      Produces .start bs ps c := by
  have htail := tailResult e h.free.waits (h.phase.trans (if_pos hend)) (h.free.lets _) (h.free.cursorsFit _ _ _)
  obtain ⟨bs, qs, hsink, hprod, rfl⟩ := h.stream
  have hpend : Produces e.context (pendingRun e.run) (List.replicate e.run.toNat e.px) e.context :=
    produces_pendingRun e.context (Nat.le_succ_of_le h.run)
  rw [State.afterWait_of_nil h.free.host] at htail
  refine ⟨_, bs ++ pendingRun e.run, e.context, htail, encodeResult_of_sinkHolds rfl ?_, hprod.append hpend⟩
  rw [List.append_assoc, ← List.append_assoc header]
  exact State.sinkHolds_emitted hsink (pendingRun e.run ++ endMarker)

end

/-! ### The bytes of pixels, and the pixels of bytes -/

theorem pixelWidth_eq_toNat {ch : Byte} (hc : supportedChannels ch) : pixelWidth ch = ch.toNat :=
  pixelWidth_of_supported (s := { State.reset with hdrChannels := ch }) hc

/-- The pixel is one `PIXIN` can hold: with 3 channels its alpha is 255 (R65). -/
def readable (ch : Byte) (p : Pixel) : Prop := ch = 3 → p.a = 255

theorem exists_pixelBytes {ch : Byte} {bs : List Byte} (hlen : bs.length = pixelWidth ch) :
    ∃ p, pixelBytes ch p = bs ∧ readable ch p := by
  unfold pixelWidth at hlen
  unfold pixelBytes
  split_ifs at hlen ⊢ with h4
  · match bs, hlen with
    | [r, g, b, a], _ => exact ⟨⟨r, g, b, a⟩, rfl, by rintro rfl; exact absurd h4 (by decide)⟩
  · match bs, hlen with
    | [r, g, b], _ => exact ⟨⟨r, g, b, 255⟩, rfl, fun _ => rfl⟩

/-- Bytes of the right length are those of pixels. -/
theorem exists_flatMap_pixelBytes {ch : Byte} {n : Nat} {bs : List Byte} (hlen : bs.length = n * pixelWidth ch) :
    ∃ ps : List Pixel, ps.length = n ∧ ps.flatMap (pixelBytes ch) = bs ∧ ∀ p ∈ ps, readable ch p := by
  induction n generalizing bs with
  | zero => exact ⟨[], rfl, by simpa [eq_comm (a := 0)] using hlen, by simp⟩
  | succ n ih =>
    rw [Nat.succ_mul] at hlen
    obtain ⟨p, hp, hread⟩ := exists_pixelBytes (ch := ch) (bs := bs.take (pixelWidth ch)) (by simp; omega)
    obtain ⟨ps, hps, hflat, hall⟩ := ih (bs := bs.drop (pixelWidth ch)) (by simp; omega)
    exact ⟨p :: ps, by simp [hps], by rw [List.flatMap_cons, hp, hflat, List.take_append_drop],
      List.forall_mem_cons.2 ⟨hread, hall⟩⟩

/-- An array made of bytes holds each part of them at its place. -/
theorem Memory.readRange_ofBytes_middle (as bs cs : List Byte) :
    Memory.readRange (Memory.ofBytes (as ++ (bs ++ cs))) as.length bs.length = some bs := by
  have hrest := (Memory.readRange_split (Memory.readRange_ofBytes (as ++ (bs ++ cs)))).2
  rw [Nat.zero_add] at hrest
  exact (Memory.readRange_split hrest).1

/-- `PIXIN` made of the bytes of pixels holds each of them at its place (R53, R65). -/
theorem pixelAt_of_flatMap {e : State} {ps : List Pixel} (hc : supportedChannels e.hdrChannels)
    (hpixin : e.pixin = Memory.ofBytes (ps.flatMap (pixelBytes e.hdrChannels)))
    (hall : ∀ p ∈ ps, readable e.hdrChannels p) {i : Nat} {p : Pixel} (hp : ps[i]? = some p) : e.pixelAt i p := by
  obtain ⟨hi, rfl⟩ := List.getElem?_eq_some_iff.1 hp
  have hread : Memory.readRange e.pixin (i * pixelWidth e.hdrChannels) (pixelWidth e.hdrChannels) =
      some (pixelBytes e.hdrChannels ps[i]) := by
    have h := Memory.readRange_ofBytes_middle ((ps.take i).flatMap (pixelBytes e.hdrChannels))
      (pixelBytes e.hdrChannels ps[i]) ((ps.drop (i + 1)).flatMap (pixelBytes e.hdrChannels))
    rw [← List.flatMap_cons, ← List.drop_eq_getElem_cons hi, ← List.flatMap_append, List.take_append_drop, ← hpixin,
      length_flatMap_pixelBytes, List.length_take, Nat.min_eq_left hi.le, pixelBytes_length] at h
    exact h
  rw [Nat.mul_comm] at hread
  rcases hc with h3 | h4
  · simp only [h3, pixelWidth, pixelBytes] at hread
    exact .inr ⟨h3, hread, hall _ (List.getElem_mem hi) h3⟩
  · simp only [h4, pixelWidth, pixelBytes] at hread
    exact .inl ⟨h4, hread⟩

/-! ### The encode run -/

/-- The 14 bytes a stream begins with (R90). -/
def streamHeader (m : Magic) (w h : U32) (ch cs : Byte) : List Byte :=
  m.bytes ++ be32bytes w ++ be32bytes h ++ [ch, cs]

/-- A quiescent block takes `START_ENCODE` with a `PIXIN` of the right length (R212). -/
theorem step_startEncode {s : State} {w h : U32} {ch cs : Byte} {bs : List Byte} (hb : busy s.phase = false)
    (hhost : s.host = [.command (.startEncode w h ch cs bs)]) (hlen : bs.length = w.toNat * h.toNat * ch.toNat) :
    step s = .next (startEncode w h ch cs bs { s with host := [] }) := by
  have hok : pixinLengthOk w h ch bs = true := decide_eq_true fun _ => hlen
  rw [step_of_command hhost, hostCommand, if_neg (by simp [hb]), if_pos hok]

/-- The header emit step begins the encoding, with no pixel read (R96). -/
theorem step_encHeader_encoding {s : State} {w h : U32} {ch cs : Byte} {bs : List Byte} (hs : s.Unhindered)
    (hc : supportedChannels ch) :
    ∃ t, step (startEncode w h ch cs bs s) = .next t ∧ t.Encoding (streamHeader s.config.magic w h ch cs) [] := by
  set e := startEncode w h ch cs bs s
  have he : e.Unhindered := ⟨hs.host, hs.oracle, hs.unbounded⟩
  have hemit := (headerEmitResult e he.waits rfl).1 hc (he.lets 14) (he.cursorsFit _ _ _)
  rw [State.afterWait_of_nil he.host] at hemit
  have hfree := he.emitted (streamHeader s.config.magic w h ch cs)
  have hsink := State.sinkHolds_emitted (e := e) (bs := []) ⟨rfl, rfl⟩ (streamHeader s.config.magic w h ch cs ++ [])
  exact ⟨_, hemit, ⟨hfree.host, hfree.oracle, hfree.unbounded⟩, if_congr eq_comm rfl rfl, Nat.zero_le _, rfl,
    [], [], hsink, Produces.nil _, rfl⟩

/-- The encode run: the command, the header, a step for each pixel, and the tail. -/
theorem encode_run {s : State} {w h : U32} {ch cs : Byte} {ps : List Pixel} (hb : busy s.phase = false)
    (ho : s.oracle = []) (hcb : s.config.cursorBits = none)
    (hhost : s.host = [.command (.startEncode w h ch cs (ps.flatMap (pixelBytes ch)))]) (hc : supportedChannels ch)
    (hlen : ps.length = w.toNat * h.toNat) (hall : ∀ p ∈ ps, readable ch p) :
    ∃ t bs c, core.run (w.toNat * h.toNat + 3) s = .next t ∧
      encodeResult t = some (.encoded (streamHeader s.config.magic w h ch cs ++ (bs ++ endMarker))) ∧
      Produces .start bs ps c := by
  set pixels := ps.flatMap (pixelBytes ch)
  set e := startEncode w h ch cs pixels { s with host := [] }
  have hsize : pixels.length = w.toNat * h.toNat * ch.toNat := by
    rw [length_flatMap_pixelBytes, hlen, pixelWidth_eq_toNat hc]
  have hfree : State.Unhindered { s with host := [] } := ⟨rfl, ho, hcb⟩
  have hstart : step s = .next e := step_startEncode hb hhost hsize
  obtain ⟨e1, hheader, henc⟩ := step_encHeader_encoding (bs := pixels) hfree hc
  obtain ⟨hw, hh, hch, -, -, -, hpixin, -⟩ := encoderStepsFrame e e1 (.inl rfl) (.inl rfl) hheader
  have hpix : e1.pix = 0 := henc.pix
  have hnpix : e1.npix = w.toNat * h.toNat := by rw [State.npix, hw, hh]; rfl
  have hat : ∀ i p, ps[i]? = some p → e1.pixelAt (e1.pix + i) p := fun i p hp => by
    rw [hpix, Nat.zero_add, State.pixelAt_congr hch hpixin]
    exact pixelAt_of_flatMap (e := e) hc rfl hall hp
  obtain ⟨e2, hrun, henc2, hend⟩ := henc.run_pixels (by rw [hpix, hnpix, Nat.zero_add, hlen]) hat
  obtain ⟨t, bs, c, htail, hresult, hprod⟩ := henc2.step_tail hend
  refine ⟨t, bs, c, ?_, hresult, hprod⟩
  rw [← hlen]
  exact run_cons hstart (run_cons hheader (run_snoc hrun htail))

/-! ### The decode run -/

/-- A quiescent block takes `START_DECODE` (R211). -/
theorem step_startDecode {d : State} {bs : List Byte} (hb : busy d.phase = false)
    (hhost : d.host = [.command (.startDecode bs)]) : step d = .next (startDecode bs { d with host := [] }) := by
  rw [step_of_command hhost, hostCommand, if_neg (by simp [hb])]

/-- The header parse step begins the decoding behind the header (R93). -/
theorem step_decHeader_decoding {d : State} {w h : U32} {ch cs : Byte} {bs : List Byte} (hd : d.Unhindered)
    (hc : supportedChannels ch) :
    let e := startDecode (streamHeader d.config.magic w h ch cs ++ bs) d
    let t : State := { e with
      hdrWidth := w, hdrHeight := h, hdrChannels := ch, hdrColorspace := cs, ip := 14
      phase := if w.toNat * h.toNat = 0 then .done else .decPixels }
    step e = .next t ∧ t.Decoding ∧ t.inputAt 14 bs := by
  intro e t
  have he : e.Unhindered := ⟨hd.host, hd.oracle, hd.unbounded⟩
  obtain ⟨hheader, hrest⟩ := State.inputAt_append (State.inputAt_of_ofBytes (s := e) rfl rfl)
  have hparse := headerParseResult e w h ch cs he.waits rfl hc hheader (he.lets 14) (he.cursorsFit _ _ _)
  rw [he.used_afterWait] at hparse
  exact ⟨hparse, ⟨⟨he.host, he.oracle, he.unbounded⟩, hc, if_congr eq_comm rfl rfl, (Nat.zero_mul _).symm⟩, hrest⟩

/-- A decoder that has produced all the pixels of an image into an empty `OUT` gives the host their bytes (R215). -/
theorem decodeResult_decodedTo {d : State} {ps : List Pixel} {c : Context} {run : BitVec 6} {ip : Nat}
    (hc : supportedChannels d.hdrChannels) (hpix : d.pix = 0) (hlen : ps.length = d.npix) :
    decodeResult (d.decodedTo ps c run ip) =
      some (.decoded (ps.flatMap (pixelBytes d.hdrChannels)) d.hdrWidth d.hdrHeight d.hdrChannels d.hdrColorspace) := by
  have hphase : (d.decodedTo ps c run ip).phase = .done := if_pos (by rw [hpix, Nat.zero_add, hlen])
  have hsize : d.arraySize = (ps.flatMap (pixelBytes d.hdrChannels)).length := by
    rw [length_flatMap_pixelBytes, hlen, pixelWidth_of_supported hc, State.arraySize]
  have hout : Memory.readRange (d.decodedTo ps c run ip).out 0 (d.decodedTo ps c run ip).arraySize =
      some (ps.flatMap (pixelBytes d.hdrChannels)) := by
    show Memory.readRange (Memory.writeRange d.out (d.pix * d.channels) _) 0 d.arraySize = _
    rw [hpix, Nat.zero_mul, hsize, Memory.readRange_writeRange]
  simp only [decodeResult, hphase, hout]
  rfl

/-- The decode run on a stream whose bytes behind the header produce the pixels of the image: the command, the header, and a
step for each pixel; the bytes after those are not looked at (R142). -/
theorem decode_run {d : State} {w h : U32} {ch cs : Byte} {bs rest : List Byte} {ps : List Pixel} {c : Context}
    (hb : busy d.phase = false) (ho : d.oracle = []) (hcb : d.config.cursorBits = none)
    (hhost : d.host = [.command (.startDecode (streamHeader d.config.magic w h ch cs ++ (bs ++ rest)))])
    (hc : supportedChannels ch) (hlen : ps.length = w.toNat * h.toNat) (hprod : Produces .start bs ps c) :
    ∃ u, core.run (w.toNat * h.toNat + 2) d = .next u ∧
      decodeResult u = some (.decoded (ps.flatMap (pixelBytes ch)) w h ch cs) := by
  obtain ⟨hheader, hdec, hin⟩ := step_decHeader_decoding (d := { d with host := [] }) (w := w) (h := h) (cs := cs)
    (bs := bs ++ rest) ⟨rfl, ho, hcb⟩ hc
  have hpixels := hprod _ hdec rfl rfl (State.inputAt_append hin).1 (by rw [hlen]; exact (Nat.zero_add _).le)
  rw [← hlen]
  exact ⟨_, run_cons (step_startDecode hb hhost) (run_cons hheader hpixels),
    decodeResult_decodedTo hdec.channels rfl hlen⟩

/-- Settles O59: the encode run leaves a stream whose bytes behind the header produce its pixels, so the decode run does. -/
theorem decodeOfEncodeRun : Obligations.DecodeOfEncodeRun := by
  unfold Obligations.DecodeOfEncodeRun
  intro s w h ch cs pixels hb ho hcb hhost hc hlen
  rw [← pixelWidth_eq_toNat hc] at hlen
  obtain ⟨ps, hps, rfl, hall⟩ := exists_flatMap_pixelBytes hlen
  obtain ⟨t, bs, c, hrun, hresult, hprod⟩ := encode_run hb ho hcb hhost hc hps hall
  refine ⟨t, _, hrun, hresult, fun d hdb hdo hdc hdhost => ?_⟩
  rw [← hdc] at hdhost
  exact decode_run hdb hdo (hdc ▸ hcb) hdhost hc hps hprod

end Sys2Proof.Machine
end

section
/-! PROOFS. The host's side (44_commands.md): what each command does by whether the block is busy, what the model refuses, and the
result the host gets (R210-R215). -/

namespace Sys2Proof.Machine

/-! ### Quiescent and busy blocks -/

theorem busy_eq_false_iff {p : Phase} : busy p = false ↔ p = .idle ∨ p = .done ∨ p = .error := by
  cases p <;> simp [busy]

theorem engineStep_of_quiescent {s : State} (hb : busy s.phase = false) : engineStep s = .next s := by
  unfold engineStep
  rcases busy_eq_false_iff.1 hb with hp | hp | hp <;> rw [hp]

/-- What R212 asks of `PIXIN`: nothing with an unsupported channel count, the length otherwise. -/
theorem pixinLengthOk_iff {w h : U32} {ch : Byte} {bs : List Byte} :
    pixinLengthOk w h ch bs = true ↔ (ch ≠ 3 ∧ ch ≠ 4) ∨ bs.length = w.toNat * h.toNat * ch.toNat := by
  rw [pixinLengthOk, decide_eq_true_iff, imp_iff_not_or, supportedChannels, not_or]

theorem pixinLengthOk_eq_false_iff {w h : U32} {ch : Byte} {bs : List Byte} :
    pixinLengthOk w h ch bs = false ↔ (ch = 3 ∨ ch = 4) ∧ bs.length ≠ w.toNat * h.toNat * ch.toNat := by
  rw [pixinLengthOk, decide_eq_false_iff_not, Classical.not_imp]

/-! ### The commands -/

theorem hostCommand_startDecode {s : State} (hb : busy s.phase = false) (bs : List Byte) :
    hostCommand (.startDecode bs) s = .next (startDecode bs s) := by
  rw [hostCommand, if_neg (by simp [hb])]

theorem hostCommand_startEncode {s : State} (hb : busy s.phase = false) (w h : U32) (ch cs : Byte) (bs : List Byte) :
    hostCommand (.startEncode w h ch cs bs) s =
      if pixinLengthOk w h ch bs then .next (startEncode w h ch cs bs s) else .refused .wrongPixinLength := by
  rw [hostCommand, if_neg (by simp [hb])]

/-- A `START_*` of a busy block has no effect (R213). -/
theorem hostCommand_of_busy {c : HostCommand} {s : State} (hb : busy s.phase = true) (hc : c ≠ .reset) :
    hostCommand c s = .next s := by
  cases c with
  | reset => exact absurd rfl hc
  | startDecode => exact if_pos hb
  | startEncode => exact if_pos hb

/-- Settles O8: a command step in any phase, and `RESET` does not look at the phase. -/
theorem resetCommandInEveryPhase : Obligations.ResetCommandInEveryPhase := by
  unfold Obligations.ResetCommandInEveryPhase
  intro s rest hhost
  rw [step_of_command hhost]
  rfl

/-- Settles O9, by the command's effect in a block that is not busy. -/
theorem startDecodeResult : Obligations.StartDecodeResult := by
  unfold Obligations.StartDecodeResult
  intro s bytes rest hhost hp
  rw [step_of_command hhost]
  exact hostCommand_startDecode (s := { s with host := rest }) (busy_eq_false_iff.2 hp) bytes

/-- Settles O10, by what R212 asks of the length of `PIXIN`. -/
theorem startEncodeResult : Obligations.StartEncodeResult := by
  unfold Obligations.StartEncodeResult
  intro s w h ch cs pixels rest hhost hp
  rw [step_of_command hhost,
    hostCommand_startEncode (s := { s with host := rest }) (busy_eq_false_iff.2 hp) w h ch cs pixels]
  refine ⟨fun hlen => ?begun, fun hlen => ?refused⟩
  case begun =>
    rw [if_pos (pixinLengthOk_iff.2 hlen)]
    rfl
  case refused =>
    rw [if_neg (Bool.eq_false_iff.1 (pixinLengthOk_eq_false_iff.2 hlen))]

/-- Settles O11: the phases that are not quiescent are the busy ones. -/
theorem busyStartHasNoEffect : Obligations.BusyStartHasNoEffect := by
  unfold Obligations.BusyStartHasNoEffect
  rintro s c rest hhost hc ⟨hidle, hdone, herror⟩
  have hb : busy s.phase = true := by
    rw [← Bool.not_eq_false, busy_eq_false_iff]
    simp [hidle, hdone, herror]
  rw [step_of_command hhost]
  exact hostCommand_of_busy (s := { s with host := rest }) hb hc

/-- Settles O12: the step of a waiting host is the engine's, which in a quiescent phase is none. -/
theorem quiescentEngineStays : Obligations.QuiescentEngineStays := by
  unfold Obligations.QuiescentEngineStays
  intro s hw hp
  rw [step_of_waits hw, engineStep_of_quiescent (s := s.afterWait) (busy_eq_false_iff.2 hp)]

/-- Settles O13: the engine stays in `DONE` and `ERROR`, and each command enters its phase with `ERR` cleared. -/
theorem onlyCommandsLeaveDoneAndError : Obligations.OnlyCommandsLeaveDoneAndError := by
  unfold Obligations.OnlyCommandsLeaveDoneAndError
  intro s t hp hs hne
  rcases waits_or_command s with hw | ⟨c, rest, hhost⟩
  · rw [quiescentEngineStays s hw (.inr hp)] at hs
    cases hs
    exact absurd rfl hne
  · rw [step_of_command hhost] at hs
    rcases hostCommand_eq_next hs with
      ⟨-, rfl⟩ | ⟨rfl, rfl⟩ | ⟨bs, rfl, -, rfl⟩ | ⟨w, h, ch, cs, bs, rfl, -, -, rfl⟩
    · exact absurd rfl hne
    all_goals exact ⟨rfl, _, rest, hhost, rfl⟩

/-! ### Refusals -/

/-- The one command that is refused (R212). -/
theorem hostCommand_eq_refused {c : HostCommand} {s : State} {r : Refusal} (h : hostCommand c s = .refused r) :
    r = .wrongPixinLength ∧ ∃ w ht ch cs bs, c = .startEncode w ht ch cs bs ∧ pixinLengthOk w ht ch bs = false := by
  cases c with
  | reset => cases h
  | startDecode bs =>
    rw [hostCommand] at h
    split_ifs at h
  | startEncode w ht ch cs bs =>
    rw [hostCommand] at h
    split_ifs at h with hb hlen
    cases h
    exact ⟨rfl, w, ht, ch, cs, bs, rfl, Bool.eq_false_iff.2 hlen⟩

/-- The refusal is of cursors past a finite `CURSOR_BITS` (X13). -/
def State.overflows (s : State) (r : Refusal) : Prop := r = .cursorOverflow ∧ s.config.cursorBits ≠ none

/-- A step that leaves the build's parameters as they are is refused for its cursors alone. -/
theorem overflows_of_commit {s : State} {x : Attempt Unit} {r : Refusal} (hx : ∀ t, x = .done () t → t.config = s.config)
    (h : commit s x = .refused r) : s.overflows r := by
  obtain ⟨t, ht, hf, rfl⟩ := commit_eq_refused.1 h
  refine ⟨rfl, fun hnone => ?_⟩
  rw [← hx t ht] at hnone
  simp [State.cursorsFit_of_unbounded hnone] at hf

theorem producePixel_config {p : Pixel} {s t : State} (h : producePixel p s = .done () t) : t.config = s.config := by
  obtain ⟨-, -, rfl⟩ := producePixel_eq_done.1 h
  rfl

theorem exec_overflows {i : Instr} {s : State} {r : Refusal} (h : exec i s = .refused r) : s.overflows r := by
  rw [exec_eq] at h
  exact overflows_of_commit (fun t ht => (producePixel_config ht).trans (opState_config i s)) h

theorem decodePixel_overflows {s : State} {r : Refusal} (h : decodePixel s = .refused r) : s.overflows r := by
  unfold decodePixel fetchAndExec at h
  split_ifs at h with hr
  · split at h
    · next i s' hf =>
      obtain ⟨-, -, -, -, -, rfl⟩ := fetch_eq_done.1 hf
      exact exec_overflows (s := s.used i.length) h
    · cases h
    · cases h
  · exact overflows_of_commit (fun t ht => producePixel_config (s := { s with run := s.run - 1 }) ht) h

theorem headerParse_overflows {s : State} {r : Refusal} (h : headerParse s = .refused r) : s.overflows r := by
  refine overflows_of_commit (fun t ht => ?_) h
  split_ifs at ht
  · cases ht
  · obtain ⟨m, s1, h1, ht⟩ := Attempt.andThen_eq_done.1 ht
    obtain ⟨-, -, -, rfl⟩ := inBytes_eq_done.1 h1
    split_ifs at ht
    · obtain ⟨bs, s2, h2, hl⟩ := Attempt.andThen_eq_done.1 ht
      obtain ⟨-, -, -, rfl⟩ := inBytes_eq_done.1 h2
      obtain ⟨-, rfl⟩ := latchHeader_eq_done.1 hl
      rfl
    · cases ht

theorem headerEmit_overflows {s : State} {r : Refusal} (h : headerEmit s = .refused r) : s.overflows r := by
  refine overflows_of_commit (fun t ht => ?_) h
  split_ifs at ht
  · obtain ⟨u, s1, h1, ht⟩ := Attempt.andThen_eq_done.1 ht
    obtain ⟨-, rfl⟩ := emits_eq_done.1 h1
    cases ht
    rfl
  · cases ht

theorem encodePixel_overflows {s : State} {r : Refusal} (h : encodePixel s = .refused r) : s.overflows r := by
  refine overflows_of_commit (fun t ht => ?_) h
  obtain ⟨p, s1, h1, ht⟩ := Attempt.andThen_eq_done.1 ht
  obtain ⟨-, -, -, rfl⟩ := pixIn_eq_done.1 h1
  obtain ⟨u, s2, h2, ht⟩ := Attempt.andThen_eq_done.1 ht
  cases ht
  obtain ⟨-, -, -, -, -, -, -, -, hconfig, -, -⟩ := classify_encodeFrame h2
  exact hconfig

theorem encodeTail_overflows {s : State} {r : Refusal} (h : encodeTail s = .refused r) : s.overflows r := by
  refine overflows_of_commit (fun t ht => ?_) h
  obtain ⟨u, s1, h1, ht⟩ := Attempt.andThen_eq_done.1 ht
  obtain ⟨-, rfl⟩ := runFlush_eq_done.1 h1
  obtain ⟨u, s2, h2, ht⟩ := Attempt.andThen_eq_done.1 ht
  obtain ⟨-, rfl⟩ := emits_eq_done.1 h2
  cases ht
  rfl

theorem engineStep_overflows {s : State} {r : Refusal} (h : engineStep s = .refused r) : s.overflows r := by
  unfold engineStep at h
  cases hp : s.phase <;> simp only [hp] at h
  case decHeader => exact headerParse_overflows h
  case decPixels => exact decodePixel_overflows h
  case encHeader => exact headerEmit_overflows h
  case encPixels => exact encodePixel_overflows h
  case encTail => exact encodeTail_overflows h
  all_goals cases h

/-- Settles O19: the engine refuses for its cursors alone, and the host's commands for the length of `PIXIN` alone. -/
theorem onlyTwoRefusals : Obligations.OnlyTwoRefusals := by
  unfold Obligations.OnlyTwoRefusals
  intro s r hs
  rcases waits_or_command s with hw | ⟨c, rest, hhost⟩
  · rw [step_of_waits hw] at hs
    exact .inl (engineStep_overflows (s := s.afterWait) hs)
  · rw [step_of_command hhost] at hs
    obtain ⟨hr, w, h, ch, cs, bs, rfl, hlen⟩ := hostCommand_eq_refused hs
    exact .inr ⟨hr, w, h, ch, cs, bs, rest, hhost, pixinLengthOk_eq_false_iff.1 hlen⟩

/-! ### The result of a run -/

/-- `OUT` is written below `OP`, which stands behind the last pixel produced (R31, R56). -/
def State.outUpToOp (s : State) : Prop := s.op = s.pix * s.channels ∧ ∀ k < s.op, Memory.lists s.out k

theorem headerParse_outUpToOp {s t : State} (h : s.Inv) (hp : s.phase = .decHeader) (hs : headerParse s = .next t)
    (hne : t.phase ≠ .error) : t.outUpToOp := by
  rcases headerParse_eq_next hs with ⟨bs, -, -, -, hl, -⟩ | ⟨e, o, -, rfl⟩
  · obtain ⟨hpix, -, hop, -⟩ := h.decHeader hp
    obtain ⟨-, rfl⟩ := latchHeader_eq_done.1 hl
    simp [State.outUpToOp, hpix, hop]
  · exact absurd rfl hne

theorem State.outUpToOp.pixelDone {s : State} (h : s.outUpToOp) (hc : supportedChannels s.hdrChannels) (p : Pixel) :
    (s.pixelDone p).outUpToOp := by
  obtain ⟨hop, hout⟩ := h
  refine ⟨rfl, fun k hk => ?_⟩
  rw [State.pixelDone_op, Nat.succ_mul, ← hop, ← pixelWidth_of_supported hc] at hk
  rw [State.pixelDone_out, Memory.lists_writeRange, pixelBytes_length, ← hop]
  by_cases hlt : k < s.op
  · exact .inr (hout k hlt)
  · exact .inl ⟨not_lt.1 hlt, hk⟩

theorem decodePixel_outUpToOp {s t : State} (h : s.Inv) (hp : s.phase = .decPixels) (hs : decodePixel s = .next t)
    (hne : t.phase ≠ .error) : t.outUpToOp := by
  have hc := h.channels (.inl hp)
  obtain ⟨hop, -, -, hlists⟩ := h.decPixels hp
  have hout : s.outUpToOp := ⟨hop, fun k => (hlists k).2⟩
  rcases decodePixel_eq_next hs with ⟨-, -, -, rfl, -⟩ | ⟨-, bs, i, -, -, -, -, -, -, rfl, -⟩ | ⟨e, o, -, -, rfl⟩
  · exact State.outUpToOp.pixelDone (s := { s with run := s.run - 1 }) hout hc _
  · obtain ⟨c, r, hi, -⟩ := opState_eq i (s.used i.length)
    have hout' : (opState i (s.used i.length)).outUpToOp := by
      rw [hi]
      exact hout
    exact hout'.pixelDone (by simpa using hc) _
  · exact absurd rfl hne

/-- At `DONE` the host gets the bytes of `OUT` and the header registers (R215). -/
theorem decodeResult_of_done {s : State} {bs : List Byte} (hp : s.phase = .done)
    (hr : Memory.readRange s.out 0 s.arraySize = some bs) :
    decodeResult s = some (.decoded bs s.hdrWidth s.hdrHeight s.hdrChannels s.hdrColorspace) := by
  rw [decodeResult, hp, hr]
  rfl

/-- At `ERROR` the host gets the kind alone, in either direction (R236). -/
theorem results_of_error {s : State} {e : ErrorKind} (hp : s.phase = .error) (he : s.err = some e) :
    decodeResult s = some (.failed e) ∧ encodeResult s = some (.failed e) := by
  rw [decodeResult, encodeResult, hp, he]
  exact ⟨rfl, rfl⟩

/-- Before a run is over the host gets nothing (R59). -/
theorem results_of_unfinished {s : State} (hd : s.phase ≠ .done) (he : s.phase ≠ .error) :
    decodeResult s = none ∧ encodeResult s = none := by
  rw [decodeResult, encodeResult]
  cases hp : s.phase with
  | done => exact absurd hp hd
  | error => exact absurd hp he
  | _ => exact ⟨rfl, rfl⟩

/-- With all pixels produced, `OUT` is whole. -/
theorem State.outUpToOp.exists_decodeResult {s : State} (h : s.outUpToOp) (hp : s.phase = .done) (hend : s.pix = s.npix) :
    ∃ bytes, decodeResult s = some (.decoded bytes s.hdrWidth s.hdrHeight s.hdrChannels s.hdrColorspace) ∧
      Memory.readRange s.out 0 s.arraySize = some bytes ∧ bytes.length = s.arraySize := by
  obtain ⟨hop, hout⟩ := h
  rw [hend] at hop
  obtain ⟨bytes, hr⟩ := Memory.readRange_of_lists (k := 0) (n := s.arraySize) fun j hj => by
    rw [Nat.zero_add]
    exact hout j (lt_of_lt_of_eq hj hop.symm)
  exact ⟨bytes, decodeResult_of_done hp hr, hr, (Memory.readRange_eq_some.1 hr).1⟩

/-- An encode run past its header has written `SINK` up to `OP`. -/
theorem State.Inv.exists_sinkHolds {s : State} (h : s.Inv) (hp : s.phase = .encPixels ∨ s.phase = .encTail) :
    ∃ bs, s.sinkHolds bs := by
  obtain ⟨-, -, hsink⟩ := h.encPixels hp
  obtain ⟨bs, hr⟩ := Memory.readRange_of_lists (k := 0) (n := s.op) fun j hj => by
    rw [Nat.zero_add]
    exact (hsink j).2 hj
  obtain ⟨hlen, -⟩ := Memory.readRange_eq_some.1 hr
  exact ⟨bs, hlen.symm, hlen ▸ hr⟩

/-- The tail step ends the stream with the end marker (R185). -/
theorem encodeTail_sinkHolds {s t : State} (h : s.Inv) (hp : s.phase = .encTail) (hs : encodeTail s = .next t)
    (hne : t.phase ≠ .error) : ∃ bs, t.sinkHolds (bs ++ endMarker) := by
  obtain ⟨bs, hbs⟩ := h.exists_sinkHolds (.inr hp)
  rcases encodeTail_eq_next hs with ⟨-, rfl, -⟩ | ⟨o, -, rfl⟩
  · refine ⟨bs ++ pendingRun s.run, ?_⟩
    rw [List.append_assoc]
    exact State.sinkHolds_emitted hbs _
  · exact absurd rfl hne

/-- Settles O57: `OUT` is whole behind a decode run, `SINK` behind an encode run, and `ERR` is set in `ERROR`. -/
theorem resultsAreWhole : Obligations.ResultsAreWhole := by
  unfold Obligations.ResultsAreWhole
  intro s t hinv hw hs
  have hinv' : t.Inv := hinv.engineStep hw hs
  refine ⟨fun hp hd => ?decoded, fun hp hd => ?encoded, fun he => ?failed, results_of_unfinished⟩
  case decoded =>
    have hne : t.phase ≠ .error := by simp [hd]
    have hout : t.outUpToOp := by
      rcases hp with hp | hp
      · exact headerParse_outUpToOp hinv.afterWait hp (step_decHeader hw hp ▸ hs) hne
      · exact decodePixel_outUpToOp hinv.afterWait hp (step_decPixels hw hp ▸ hs) hne
    exact hout.exists_decodeResult hd (hinv'.pixEq (.inr hd))
  case encoded =>
    obtain ⟨bs, hsink⟩ := encodeTail_sinkHolds hinv.afterWait hp (step_encTail hw hp ▸ hs) (by simp [hd])
    have hresult := encodeResult_of_sinkHolds hd hsink
    obtain ⟨hop, hr⟩ := hsink
    exact ⟨bs, hresult, hop ▸ hr, by simp [hop, endMarker]⟩
  case failed =>
    obtain ⟨e, he'⟩ := Option.ne_none_iff_exists'.1 (hinv'.err.2 he)
    exact ⟨e, he', results_of_error he he'⟩

end Sys2Proof.Machine
end

section
/-! PROOFS. Errors (60_exceptions.md): an engine step completes or raises; which errors it can raise in each phase (R230, R237),
what it then leaves behind (R235), and where `IoFailure` comes from (R233). -/

namespace Sys2Proof.Machine

/-! ### Completed or raised -/

/-- A step from `s` to `t` has completed, which sets no error, or it has raised one of these errors, and then nothing else
has changed but the oracle's answers (R235). -/
def State.completesOrRaises (s t : State) (es : List ErrorKind) : Prop :=
  (t.err = s.err ∧ (t.phase = .error → s.phase = .error)) ∨
    ∃ e ∈ es, ∃ o, s.raises e o ∧ t = errorEntry e { s with oracle := o }

/-- A completed step that ends in some other phase than `ERROR`. -/
theorem State.completesOrRaises_of_done {s t : State} {es : List ErrorKind} (he : t.err = s.err) (hp : t.phase ≠ .error) :
    s.completesOrRaises t es := .inl ⟨he, fun h => absurd h hp⟩

theorem State.completesOrRaises_of_raises {s : State} {es : List ErrorKind} {e : ErrorKind} {o : List IoAnswer}
    (he : e ∈ es) (ho : s.raises e o) : s.completesOrRaises (errorEntry e { s with oracle := o }) es :=
  .inr ⟨e, he, o, ho, rfl⟩

/-- The end of a pixel loop step leads to the phase behind the loop, or keeps the phase (R141, R184). -/
theorem eq_error_of_ite {c : Prop} [Decidable c] {p q : Phase} (hq : q ≠ .error) (h : (if c then q else p) = .error) :
    p = .error := by
  split_ifs at h
  · exact absurd h hq
  · exact h

theorem headerParse_completesOrRaises {s t : State} (h : headerParse s = .next t) :
    s.completesOrRaises t (errorsOf .decHeader) := by
  rcases headerParse_eq_next h with ⟨bs, -, -, -, hl, -⟩ | ⟨e, o, ho, rfl⟩
  · obtain ⟨-, rfl⟩ := latchHeader_eq_done.1 hl
    refine State.completesOrRaises_of_done rfl ?_
    simp only
    split_ifs <;> simp
  · exact State.completesOrRaises_of_raises (by cases e <;> simp [errorsOf]) ho

theorem decodePixel_completesOrRaises {s t : State} (h : decodePixel s = .next t) :
    s.completesOrRaises t (errorsOf .decPixels) := by
  rcases decodePixel_eq_next h with
    ⟨-, -, -, rfl, -⟩ | ⟨-, bs, i, -, -, -, -, -, -, rfl, -⟩ | ⟨e, o, he, ho, rfl⟩
  · exact .inl ⟨rfl, eq_error_of_ite (by simp)⟩
  · refine .inl ⟨by simp, fun hp => ?_⟩
    simpa using eq_error_of_ite (by simp) hp
  · refine State.completesOrRaises_of_raises ?_ ho
    rcases he with rfl | ⟨rfl, -⟩ <;> simp [errorsOf]

theorem headerEmit_completesOrRaises {s t : State} (h : headerEmit s = .next t) :
    s.completesOrRaises t (errorsOf .encHeader) := by
  rcases headerEmit_eq_next h with ⟨-, -, rfl, -⟩ | ⟨e, o, he, ho, rfl⟩
  · refine State.completesOrRaises_of_done rfl ?_
    simp only
    split_ifs <;> simp
  · refine State.completesOrRaises_of_raises ?_ ho
    rcases he with rfl | rfl <;> simp [errorsOf]

theorem classify_err {p : Pixel} {s t : State} {u : Unit} (h : classify p s = .done u t) : t.err = s.err := by
  rcases classify_eq_done.1 h with ⟨-, -, rfl⟩ | ⟨-, -, -, rfl⟩ | ⟨-, -, rfl⟩ <;> rfl

theorem encodePixel_completesOrRaises {s t : State} (h : encodePixel s = .next t) :
    s.completesOrRaises t (errorsOf .encPixels) := by
  rcases encodePixel_eq_next h with ⟨p, s', -, -, -, hcl, rfl, -⟩ | ⟨o, ho, rfl⟩
  · obtain ⟨hphase, -⟩ := classify_frame hcl
    have herr := classify_err hcl
    exact .inl ⟨herr, fun hp => hphase.symm.trans (eq_error_of_ite (by simp) hp)⟩
  · exact State.completesOrRaises_of_raises (by simp [errorsOf]) ho

theorem encodeTail_completesOrRaises {s t : State} (h : encodeTail s = .next t) :
    s.completesOrRaises t (errorsOf .encTail) := by
  rcases encodeTail_eq_next h with ⟨-, rfl, -⟩ | ⟨o, ho, rfl⟩
  · exact State.completesOrRaises_of_done rfl (by simp)
  · exact State.completesOrRaises_of_raises (by simp [errorsOf]) ho

/-- Every engine step has completed or raised an error of its phase; a quiescent engine has done nothing (R214). -/
theorem engineStep_completesOrRaises {s t : State} (hw : s.hostWaits) (h : step s = .next t) :
    s.afterWait.completesOrRaises t (errorsOf s.phase) := by
  rcases engineStep_cases hw h with ⟨hp, h⟩ | ⟨hp, h⟩ | ⟨hp, h⟩ | ⟨hp, h⟩ | ⟨hp, h⟩ | ⟨-, rfl⟩
  · rw [hp]
    exact headerParse_completesOrRaises h
  · rw [hp]
    exact decodePixel_completesOrRaises h
  · rw [hp]
    exact headerEmit_completesOrRaises h
  · rw [hp]
    exact encodePixel_completesOrRaises h
  · rw [hp]
    exact encodeTail_completesOrRaises h
  · exact .inl ⟨rfl, id⟩

/-- An engine step that enters `ERROR` has raised. -/
theorem engineStep_raised {s t : State} (hw : s.hostWaits) (hp : s.phase ≠ .error) (h : step s = .next t)
    (ht : t.phase = .error) :
    ∃ e ∈ errorsOf s.phase, ∃ o, s.afterWait.raises e o ∧ t = errorEntry e { s.afterWait with oracle := o } :=
  (engineStep_completesOrRaises hw h).resolve_left fun ⟨_, hphase⟩ => hp (hphase ht)

/-- Settles O15: the error of a step that raised is one of its phase. -/
theorem errorKindsByPhase : Obligations.ErrorKindsByPhase := by
  unfold Obligations.ErrorKindsByPhase
  intro s t e hw hp hs ht he
  obtain ⟨e', he', o, -, rfl⟩ := engineStep_raised hw hp hs ht
  cases he
  exact he'

/-- Settles O20: what a step that raised has used of the oracle's answers are the first ones. -/
theorem errorsArePrecise : Obligations.ErrorsArePrecise := by
  unfold Obligations.ErrorsArePrecise
  intro s t hw hp hs ht
  obtain ⟨e, -, o, ⟨⟨used, rfl⟩, -⟩, rfl⟩ := engineStep_raised hw hp hs ht
  exact ⟨e, used, rfl⟩

/-- A host command sets no error (R210-R213). -/
theorem hostCommand_err {c : HostCommand} {s t : State} (h : hostCommand c s = .next t) :
    t.err = s.err ∨ t.err = none := by
  rcases hostCommand_eq_next h with
    ⟨-, rfl⟩ | ⟨-, rfl⟩ | ⟨bs, -, -, rfl⟩ | ⟨w, ht, ch, cs, bs, -, -, -, rfl⟩
  · exact .inl rfl
  all_goals exact .inr rfl

/-- Settles O35: `ERR` becomes `IoFailure` by a step that raised it, and what raises it is a failed answer. -/
theorem ioFailureOnlyFromOracle : Obligations.IoFailureOnlyFromOracle := by
  unfold Obligations.IoFailureOnlyFromOracle
  intro s t hs h ht
  rcases waits_or_command s with hw | ⟨c, rest, hhost⟩
  · rcases engineStep_completesOrRaises hw h with ⟨he, -⟩ | ⟨e, -, o, ⟨-, hfail⟩, rfl⟩
    · exact absurd (he.symm.trans ht) hs
    · exact hfail (Option.some.inj ht)
  · rw [step_of_command hhost] at h
    rcases hostCommand_err h with he | he
    · exact absurd (he.symm.trans ht) hs
    · cases he.symm.trans ht

end Sys2Proof.Machine
end

section
/-! PROOFS. The access of a step that goes wrong: an op-code that the end of `IN` cuts off (R232), and the first access that the
oracle fails, in every step (R233).  The fetch is one read of bytes from `IP` up, so for it both are facts about `inBytes`. -/

namespace Sys2Proof.Machine

/-! ### The fetch as one read -/

/-- Where `IN` lists the first byte, the fetch reads the bytes of its length from `IP` up, asking the oracle as it goes (R79,
R237). -/
theorem fetchBytes_eq_inBytes {s : State} {b0 : Byte} (hb : Memory.read s.input s.ip = some b0) :
    fetchBytes s = inBytes s.ip (opLength b0) s := by
  obtain ⟨n, hn⟩ := Nat.exists_eq_add_of_le' (opLength_pos b0)
  rw [hn, fetchBytes, inBytes]
  cases h : inByte s.ip s with
  | done b t =>
    obtain ⟨-, -, hb', rfl⟩ := inByte_eq_done.1 h
    obtain rfl : b0 = b := Option.some.inj (hb.symm.trans hb')
    simp only [Attempt.andThen_done, hn, Nat.add_sub_cancel]
    rfl
  | raised e o => rfl
  | stopped f => rfl

/-- The first of some bytes at an offset. -/
theorem State.inputAt_head {s : State} {k : Nat} {b0 : Byte} {bs : List Byte} (h : s.inputAt k (b0 :: bs)) :
    Memory.read s.input k = some b0 := by
  obtain ⟨-, hr⟩ := Memory.readRange_eq_some.1 h.2
  simpa using hr 0 (by simp)

/-- The first `j` of some bytes at an offset. -/
theorem State.inputAt_take {s : State} {k : Nat} {bs : List Byte} (h : s.inputAt k bs) (j : Nat) :
    s.inputAt k (bs.take j) := by
  rw [← List.take_append_drop j bs] at h
  exact (State.inputAt_append h).1

/-- What the fetch raises, the decode pixel step raises (R143). -/
theorem decodePixel_of_fetchBytes_raised {s : State} {e : ErrorKind} {o : List IoAnswer} (hr : s.run = 0)
    (h : fetchBytes s = .raised e o) : decodePixel s = .next (errorEntry e { s with oracle := o }) := by
  rw [decodePixel, if_pos hr, fetchAndExec, fetch, h]
  rfl

theorem decodePixel_of_inByte_raised {s : State} {e : ErrorKind} {o : List IoAnswer} (hr : s.run = 0)
    (h : inByte s.ip s = .raised e o) : decodePixel s = .next (errorEntry e { s with oracle := o }) := by
  refine decodePixel_of_fetchBytes_raised hr ?_
  rw [fetchBytes, h, Attempt.andThen_raised]

theorem decodePixel_of_inBytes_raised {s : State} {b0 : Byte} {bs : List Byte} {e : ErrorKind} {o : List IoAnswer}
    (hr : s.run = 0) (hi : s.inputAt s.ip (b0 :: bs)) (h : inBytes s.ip (opLength b0) s = .raised e o) :
    decodePixel s = .next (errorEntry e { s with oracle := o }) :=
  decodePixel_of_fetchBytes_raised hr ((fetchBytes_eq_inBytes (State.inputAt_head hi)).trans h)

/-! ### An op-code that the end of the input cuts off -/

/-- Settles O33: the fetch meets the end of `IN` at the first byte of the op-code, or behind some of its bytes. -/
theorem truncatedOpcodeRaisesEof : Obligations.TruncatedOpcodeRaisesEof := by
  unfold Obligations.TruncatedOpcodeRaisesEof
  intro s hw hp hr
  rw [step_decPixels hw hp]
  refine ⟨fun hk hl => ?none, fun b0 bs hi hk hlen hl => ?some⟩
  case none => exact decodePixel_of_inByte_raised (s := s.afterWait) hr (inByte_eq_raised.2 (.inr ⟨rfl, hl, hk, rfl⟩))
  case some =>
    have hlt : (b0 :: bs).length < opLength b0 := by omega
    exact decodePixel_of_inBytes_raised (s := s.afterWait) hr hi (inBytes_of_eof hi.2 hk hlt hl)

/-! ### The first access that fails -/

/-- The oracle lets `j` accesses through and fails the next one. -/
structure State.FailsAt (s : State) (j : Nat) : Prop where
  lets : s.lets j
  fails : s.oracle[j]? = some .fail

/-- `s` in which the access of index `j` was the first to fail: error entry, with the answers up to that one used (R235). -/
def State.failedAt (s : State) (j : Nat) : State := errorEntry .ioFailure (s.used (j + 1))

/-- Once `m` answers are used, the failure is `m` places nearer. -/
theorem State.FailsAt.used {s t : State} {m j : Nat} (h : s.FailsAt (m + j)) (ht : t.oracle = s.oracle.drop m) :
    t.FailsAt j ∧ t.oracle.drop (j + 1) = s.oracle.drop (m + j + 1) := by
  refine ⟨⟨?_, ?_⟩, ?_⟩
  · have hl := (State.lets_add.1 h.lets).2
    rwa [State.lets, State.used_oracle, ← ht] at hl
  · rw [ht, List.getElem?_drop]
    exact h.fails
  · rw [ht, List.drop_drop, Nat.add_assoc]

theorem State.failedAt_used (s : State) (m j : Nat) : (s.used m).failedAt j = s.failedAt (m + j) := by
  simp only [State.failedAt, State.used_used, Nat.add_assoc]

/-! ### Decode pixel steps -/

/-- The read of the first byte of the op-code fails, whether `IN` holds the byte or not (R64). -/
theorem decodePixel_of_failed_first_read {s : State} (hf : s.FailsAt 0) (hr : s.run = 0) :
    decodePixel s = .next (s.failedAt 0) := by
  refine decodePixel_of_inByte_raised hr ?_
  rw [inByte, askOracle_of_fail hf.fails, Attempt.andThen_raised]

/-- A read of the op-code fails behind bytes that `IN` holds, whether it holds that byte or not (R64). -/
theorem decodePixel_of_failed_read {s : State} {b0 : Byte} {bs : List Byte} {j : Nat} (hf : s.FailsAt j) (hr : s.run = 0)
    (hi : s.inputAt s.ip (b0 :: bs)) (hle : j ≤ (b0 :: bs).length) (hj : j < opLength b0) :
    decodePixel s = .next (s.failedAt j) := by
  have hread := State.inputAt_take hi j
  rw [State.inputAt, List.length_take_of_le hle] at hread
  obtain ⟨hk, hbytes⟩ := hread
  exact decodePixel_of_inBytes_raised hr hi (inBytes_of_fail hbytes (.inr hk) hj hf.lets hf.fails)

/-- A write of the pixel of an op-code fails. -/
theorem exec_of_failed_write {i : Instr} {s : State} {j : Nat} (hf : s.FailsAt j) (hc : supportedChannels s.hdrChannels)
    (hp : s.pix < s.npix) (hj : j < pixelWidth s.hdrChannels) : exec i s = .next (s.failedAt j) := by
  obtain ⟨c, r, hs, -⟩ := opState_eq i s
  rw [exec_eq, hs,
    producePixel_of_fail (s := { s with cache := c, run := r, ip := s.ip + i.length }) hc hp hj hf.lets hf.fails]
  rfl

/-- A read of an op-code that `IN` holds whole fails, or a write of its pixel. -/
theorem decodePixel_of_failed_opcode {s : State} {bs : List Byte} {i : Instr} {j : Nat} (hf : s.FailsAt j) (hr : s.run = 0)
    (hi : s.inputAt s.ip bs) (hd : decode bs = .ok (i, [])) (hc : supportedChannels s.hdrChannels) (hp : s.pix < s.npix)
    (hj : j < bs.length + pixelWidth s.hdrChannels) : decodePixel s = .next (s.failedAt j) := by
  by_cases hlt : j < bs.length
  · obtain ⟨b0, cs, rfl⟩ := List.exists_cons_of_length_pos (by omega : 0 < bs.length)
    obtain ⟨-, hbs⟩ := decode_eq_ok_iff.1 hd
    rw [List.append_nil] at hbs
    have hlen : (b0 :: cs).length = opLength b0 := by rw [opLength_of_decode hd, ← encode_length, hbs]
    exact decodePixel_of_failed_read hf hr hi hlt.le (lt_of_lt_of_eq hlt hlen)
  · obtain ⟨j, rfl⟩ := Nat.exists_eq_add_of_le (not_lt.1 hlt)
    obtain ⟨hf', -⟩ := hf.used (t := s.used bs.length) rfl
    have hl := (State.lets_add.1 hf.lets).1
    rw [decodePixel_of_opcode hr hi hd hl, exec_of_failed_write hf' hc hp (Nat.lt_of_add_lt_add_left hj),
      State.failedAt_used]

/-- A write of a run repeat fails. -/
theorem runRepeat_of_failed_write {s : State} {j : Nat} (hf : s.FailsAt j) (hc : supportedChannels s.hdrChannels)
    (hp : s.pix < s.npix) (hj : j < pixelWidth s.hdrChannels) : runRepeat s = .next (s.failedAt j) := by
  rw [runRepeat, producePixel_of_fail (s := { s with run := s.run - 1 }) hc hp hj hf.lets hf.fails]
  rfl

/-! ### Header steps -/

/-- A read of the header parse step fails, after a `MAGIC` that matches as far as it is compared (R237). -/
theorem headerParse_of_failed_read {s : State} {bs : List Byte} (hf : s.FailsAt bs.length) (h4 : 4 ≤ s.inLen)
    (hlen : bs.length < 14) (hi : s.inputAt 0 bs) (hm : 4 ≤ bs.length → bs.take 4 = s.config.magic.bytes) :
    headerParse s = .next (s.failedAt bs.length) := by
  rw [headerParse, if_neg (not_lt.2 h4)]
  by_cases hlt : bs.length < 4
  · rw [inBytes_of_fail hi.2 (.inr hi.1) hlt hf.lets hf.fails, Attempt.andThen_raised]
    rfl
  · obtain ⟨cs, rfl⟩ : ∃ cs, bs = s.config.magic.bytes ++ cs :=
      ⟨bs.drop 4, by rw [← hm (not_lt.1 hlt), List.take_append_drop]⟩
    rw [List.length_append, Magic.bytes_length] at hf hlen ⊢
    obtain ⟨⟨hk, hmagic⟩, hk', hcs⟩ := State.inputAt_append hi
    rw [Magic.bytes_length] at hk hmagic hk' hcs
    obtain ⟨hf', hdrop⟩ := hf.used (t := s.used 4) rfl
    rw [inBytes_eq_done.2 ⟨(State.lets_add.1 hf.lets).1, .inr hk, hmagic, rfl⟩, Attempt.andThen_done, if_pos (by rfl),
      inBytes_of_fail (s := s.used 4) hcs (.inr hk') (Nat.lt_of_add_lt_add_left hlen) hf'.lets hf'.fails, hdrop,
      Attempt.andThen_raised]
    rfl

/-- An `Emit` of the header emit step fails. -/
theorem headerEmit_of_failed_emit {s : State} {j : Nat} (hf : s.FailsAt j) (hc : supportedChannels s.hdrChannels)
    (hj : j < 14) : headerEmit s = .next (s.failedAt j) := by
  rw [headerEmit, if_pos hc, emits_of_fail (by rwa [headerOf_length]) hf.lets hf.fails, Attempt.andThen_raised]
  rfl

/-! ### Encode steps -/

/-- An access fails, in the flush of the pending run or in the `n` accesses of what comes after it. -/
theorem runFlush_andThen_of_fail {s : State} {j n : Nat} {k : Unit → State → Attempt Unit} (hf : s.FailsAt j)
    (hj : j < (pendingRun s.run).length + n)
    (hk : ∀ i < n, ∀ t : State, t = { s.emitted (pendingRun s.run) with run := 0 } → t.FailsAt i →
      k () t = .raised .ioFailure (t.oracle.drop (i + 1))) :
    (runFlush s).andThen k = .raised .ioFailure (s.oracle.drop (j + 1)) := by
  by_cases hlt : j < (pendingRun s.run).length
  · rw [runFlush_of_fail hlt hf.lets hf.fails, Attempt.andThen_raised]
  · obtain ⟨i, rfl⟩ := Nat.exists_eq_add_of_le (not_lt.1 hlt)
    obtain ⟨hf', hdrop⟩ := hf.used (t := { s.emitted (pendingRun s.run) with run := 0 }) rfl
    rw [runFlush_eq_done (u := ()).2 ⟨(State.lets_add.1 hf.lets).1, rfl⟩, Attempt.andThen_done,
      hk i (by omega) _ rfl hf', hdrop]

/-- The bytes an encode pixel step emits for a pixel, by R170. -/
def emittedFor (s : State) (p : Pixel) : List Byte :=
  if p = s.px then (if s.run.toNat = 61 then [0xFD] else []) else newPixelBytes s p

/-- An `Emit` of the classification of a pixel fails. -/
theorem classify_of_failed_emit {s : State} {p : Pixel} {j : Nat} (hf : s.FailsAt j) (hj : j < (emittedFor s p).length) :
    classify p s = .raised .ioFailure (s.oracle.drop (j + 1)) := by
  unfold emittedFor at hj
  unfold classify
  split_ifs at hj ⊢ with hp hr
  · have hcap : (s.run + 1).toNat = runCap := by
      rw [runCap]
      bv_omega
    have hbyte : encode (.run runCap) = [0xFD] := rfl
    rw [runExtend, if_pos hcap, emitRun, hbyte, emits_of_fail (s := { s with run := s.run + 1 }) hj hf.lets hf.fails,
      Attempt.andThen_raised]
  · simp at hj
  · rw [newPixelBytes, List.length_append] at hj
    refine runFlush_andThen_of_fail hf hj ?_
    rintro i hi t rfl ht
    exact emits_of_fail hi ht.lets ht.fails

/-- The `PixIn` of an encode pixel step fails (R65). -/
theorem encodePixel_of_failed_pixIn {s : State} (hf : s.FailsAt 0) : encodePixel s = .next (s.failedAt 0) := by
  rw [encodePixel, pixIn, askOracle_of_fail hf.fails]
  rfl

/-- The `PixIn` of an encode pixel step fails, or an `Emit`. -/
theorem encodePixel_of_failed_access {s : State} {p : Pixel} {j : Nat} (hf : s.FailsAt j) (hi : s.pix < s.npix)
    (hp : s.pixelAt s.pix p) (hj : j < 1 + (emittedFor s p).length) : encodePixel s = .next (s.failedAt j) := by
  rcases Nat.eq_zero_or_pos j with rfl | hpos
  · exact encodePixel_of_failed_pixIn hf
  · obtain ⟨j, rfl⟩ := Nat.exists_eq_add_of_le hpos
    obtain ⟨hf', hdrop⟩ := hf.used (t := s.used 1) rfl
    rw [encodePixel, pixIn_eq_done.2 ⟨(State.lets_add.1 hf.lets).1, hi, hp, rfl⟩, Attempt.andThen_done,
      classify_of_failed_emit hf' (Nat.lt_of_add_lt_add_left hj), hdrop, Attempt.andThen_raised]
    rfl

/-- An `Emit` of the tail step fails. -/
theorem encodeTail_of_failed_emit {s : State} {j : Nat} (hf : s.FailsAt j)
    (hj : j < (pendingRun s.run ++ endMarker).length) : encodeTail s = .next (s.failedAt j) := by
  rw [List.length_append] at hj
  rw [encodeTail, runFlush_andThen_of_fail hf hj]
  · rfl
  · rintro i hi t - ht
    rw [emits_of_fail hi ht.lets ht.fails, Attempt.andThen_raised]

/-- Settles O34, a lemma for each kind of access of each step. -/
theorem failedAccessRaisesIoFailure : Obligations.FailedAccessRaisesIoFailure := by
  unfold Obligations.FailedAccessRaisesIoFailure
  intro s j hw hl hfail failed
  have hf : s.afterWait.FailsAt j := ⟨hl, hfail⟩
  refine ⟨fun bs hp hr hlen hbs => ?read, fun bs i hp hr hi hd hc hpix hj => ?opcode, fun hp hr hc hpix hj => ?repeats,
    fun bs hp h4 hj hlen hi hm => ?parse, fun hp hc hj => ?emit, fun hp hj => ?pixIn, fun p hp hpix hat => ?pixel,
    fun hp hj => ?tail⟩
  case read =>
    subst hlen
    rw [step_decPixels hw hp]
    cases bs with
    | nil => exact decodePixel_of_failed_first_read hf hr
    | cons b0 bs => exact decodePixel_of_failed_read hf hr hbs.2 le_rfl hbs.1
  case opcode =>
    rw [step_decPixels hw hp]
    exact decodePixel_of_failed_opcode hf hr hi hd hc hpix hj
  case repeats =>
    rw [step_decPixels hw hp, decodePixel_of_run (s := s.afterWait) hr]
    exact runRepeat_of_failed_write hf hc hpix hj
  case parse =>
    subst hlen
    rw [step_decHeader hw hp]
    exact headerParse_of_failed_read hf h4 hj hi hm
  case emit =>
    rw [step_encHeader hw hp]
    exact headerEmit_of_failed_emit hf hc hj
  case pixIn =>
    subst hj
    rw [step_encPixels hw hp]
    exact encodePixel_of_failed_pixIn hf
  case pixel =>
    intro emitted hj
    rw [step_encPixels hw hp]
    exact encodePixel_of_failed_access hf hpix hat hj
  case tail =>
    rw [step_encTail hw hp]
    exact encodeTail_of_failed_emit hf hj

end Sys2Proof.Machine
end

section
/-! PROOFS. Reset (70_reset_and_hazards.md): the register values and the invariant (R260); and every run ends (R269).  A step of
a run neither stops nor is refused, and a pixel step moves `PIX` or ends the run. -/

namespace Sys2Proof.Machine

/-! ### Reset -/

/-- Settles O7: each register by its value in `State.reset`, and the slots by those of an empty cache. -/
theorem resetRegisterValues : Obligations.ResetRegisterValues :=
  ⟨rfl, rfl, rfl, rfl, rfl, rfl, rfl, rfl, rfl, rfl, rfl, rfl, cacheRead_emptyCache⟩

/-- Settles O16: the reset state is what the command `RESET` makes of it. -/
theorem invariantAtReset : Obligations.InvariantAtReset := inv_resetCommand State.reset

/-! ### What an engine step leaves of the host's moves and the parameters -/

/-- `t` has the coming moves of the host and the parameters that `s` has. -/
def State.samePlan (s t : State) : Prop := t.host = s.host ∧ t.config = s.config

theorem headerParse_samePlan {s t : State} (h : headerParse s = .next t) : s.samePlan t := by
  rcases headerParse_eq_next h with ⟨bs, -, -, -, hl, -⟩ | ⟨e, o, -, rfl⟩
  · obtain ⟨-, rfl⟩ := latchHeader_eq_done.1 hl
    exact ⟨rfl, rfl⟩
  · exact ⟨rfl, rfl⟩

theorem decodePixel_samePlan {s t : State} (h : decodePixel s = .next t) : s.samePlan t := by
  rcases decodePixel_eq_next h with ⟨-, -, -, rfl, -⟩ | ⟨-, bs, i, -, -, -, -, -, -, rfl, -⟩ | ⟨e, o, -, -, rfl⟩
  · exact ⟨rfl, rfl⟩
  · exact ⟨opState_host i _, opState_config i _⟩
  · exact ⟨rfl, rfl⟩

theorem headerEmit_samePlan {s t : State} (h : headerEmit s = .next t) : s.samePlan t := by
  rcases headerEmit_eq_next h with ⟨-, -, rfl, -⟩ | ⟨e, o, -, -, rfl⟩ <;> exact ⟨rfl, rfl⟩

theorem classify_samePlan {p : Pixel} {s t : State} {u : Unit} (h : classify p s = .done u t) : s.samePlan t := by
  rcases classify_eq_done.1 h with ⟨-, -, rfl⟩ | ⟨-, -, -, rfl⟩ | ⟨-, -, rfl⟩ <;> exact ⟨rfl, rfl⟩

theorem encodePixel_samePlan {s t : State} (h : encodePixel s = .next t) : s.samePlan t := by
  rcases encodePixel_eq_next h with ⟨p, s', -, -, -, hcl, rfl, -⟩ | ⟨o, -, rfl⟩
  · have hplan : (s.used 1).samePlan s' := classify_samePlan hcl
    exact hplan
  · exact ⟨rfl, rfl⟩

theorem encodeTail_samePlan {s t : State} (h : encodeTail s = .next t) : s.samePlan t := by
  rcases encodeTail_eq_next h with ⟨-, rfl, -⟩ | ⟨o, -, rfl⟩ <;> exact ⟨rfl, rfl⟩

/-- An engine step takes the waiting move of the host, if there is one, and nothing else of its plan (R20). -/
theorem engineStep_samePlan {s t : State} (hw : s.hostWaits) (h : step s = .next t) : s.afterWait.samePlan t := by
  rcases engineStep_cases hw h with ⟨-, h⟩ | ⟨-, h⟩ | ⟨-, h⟩ | ⟨-, h⟩ | ⟨-, h⟩ | ⟨-, rfl⟩
  · exact headerParse_samePlan h
  · exact decodePixel_samePlan h
  · exact headerEmit_samePlan h
  · exact encodePixel_samePlan h
  · exact encodeTail_samePlan h
  · exact ⟨rfl, rfl⟩

/-- A host without moves has none after an engine step either. -/
theorem engineStep_host_nil {s t : State} (hhost : s.host = []) (h : step s = .next t) : t.host = [] := by
  obtain ⟨ht, -⟩ := engineStep_samePlan (.inl hhost) h
  rw [ht, State.afterWait_host, hhost, List.tail_nil]

/-! ### A run steps on -/

/-- The invariant holds, the host has no move left, and the cursors are unbounded; the oracle may answer as it likes. -/
structure State.RunsOn (s : State) : Prop where
  inv : s.Inv
  host : s.host = []
  unbounded : s.config.cursorBits = none

/-- The engine never faults (O18) and refuses nothing (O19), so each step leads on (O14, O17). -/
theorem State.RunsOn.exists_step {s : State} (h : s.RunsOn) :
    ∃ t, step s = .next t ∧ t.RunsOn ∧ t.phase ∈ phaseSuccessors s.phase := by
  cases hs : step s with
  | next t =>
    obtain ⟨-, hconfig⟩ := engineStep_samePlan (.inl h.host) hs
    have ht : t.RunsOn :=
      { inv := everyStepKeepsInvariant s t h.inv hs
        host := engineStep_host_nil h.host hs
        unbounded := (congrArg Config.cursorBits hconfig).trans h.unbounded }
    exact ⟨t, rfl, ht, phaseTransitions s t (.inl h.host) hs⟩
  | fault f => exact absurd hs (invariantExcludesFaults s f h.inv)
  | refused r =>
    rcases onlyTwoRefusals s r hs with ⟨-, hbits⟩ | ⟨-, w, ht, ch, cs, pixels, rest, hhost, -⟩
    · exact absurd h.unbounded hbits
    · simp [h.host] at hhost

/-! ### The pixel loop -/

/-- `PHASE` says that pixels are processed (R130, R170). -/
def Phase.inLoop (p : Phase) : Prop := p = .decPixels ∨ p = .encPixels

theorem npix_congr {s t : State} (hw : t.hdrWidth = s.hdrWidth) (hh : t.hdrHeight = s.hdrHeight) : t.npix = s.npix := by
  rw [State.npix, State.npix, hw, hh]

theorem decodePixel_npix {s t : State} (h : decodePixel s = .next t) : t.npix = s.npix := by
  rcases decodePixel_eq_next h with ⟨-, -, -, rfl, -⟩ | ⟨-, bs, i, -, -, -, -, -, -, rfl, -⟩ | ⟨e, o, -, -, rfl⟩
  · rfl
  · exact opState_npix i _
  · rfl

theorem encodePixel_pix {s t : State} (h : encodePixel s = .next t) (hne : t.phase ≠ .error) : t.pix = s.pix + 1 := by
  rcases encodePixel_eq_next h with ⟨p, s', -, -, -, hcl, rfl, -⟩ | ⟨o, -, rfl⟩
  · obtain ⟨hpix, -⟩ := classify_op_le hcl
    exact congrArg (· + 1) hpix
  · exact absurd rfl hne

/-- The encoder's steps leave `NPIX` as it is (O54). -/
theorem encoderStep_npix {s t : State} (hw : s.hostWaits)
    (hp : s.phase = .encHeader ∨ s.phase = .encPixels ∨ s.phase = .encTail) (h : step s = .next t) : t.npix = s.npix := by
  obtain ⟨hwidth, hheight, -⟩ := encoderStepsFrame s t hw hp h
  exact npix_congr hwidth hheight

/-- A pixel step leaves `NPIX` as it is and, unless it raises, moves `PIX` by one (R141, R184). -/
theorem step_inLoop {s t : State} (hw : s.hostWaits) (hp : s.phase.inLoop) (h : step s = .next t) :
    t.npix = s.npix ∧ (t.phase ≠ .error → t.pix = s.pix + 1) := by
  rcases hp with hp | hp
  · rw [step_decPixels hw hp] at h
    exact ⟨decodePixel_npix (s := s.afterWait) h, fun hne => (decodePixel_cursors h hne).1⟩
  · refine ⟨encoderStep_npix hw (.inr (.inl hp)) h, ?_⟩
    rw [step_encPixels hw hp] at h
    exact encodePixel_pix (s := s.afterWait) h

/-- The phase behind the pixel loop (R141, R184). -/
def Phase.behindLoop : Phase → Phase
  | .encPixels => .encTail
  | _ => .done

theorem mem_phaseSuccessors_inLoop {p q : Phase} (hp : p.inLoop) (hq : q ∈ phaseSuccessors p) :
    q = p ∨ q = p.behindLoop ∨ q = .error := by
  rcases hp with rfl | rfl <;> simpa [phaseSuccessors, Phase.behindLoop] using hq

/-- The pixel loop ends, and takes no more steps than pixels are left; by induction on the pixels left. -/
theorem State.RunsOn.run_loop {n : Nat} {s : State} (h : s.RunsOn) (hp : s.phase.inLoop) (hn : s.npix = s.pix + n) :
    ∃ k t, core.run k s = .next t ∧ t.RunsOn ∧ (t.phase = s.phase.behindLoop ∨ t.phase = .error) ∧ t.npix = s.npix ∧
      k ≤ n := by
  have hlt : s.pix < s.npix := h.inv.pixLt hp
  induction n generalizing s with
  | zero => omega
  | succ n ih =>
    obtain ⟨t, hs, ht, hphase⟩ := h.exists_step
    obtain ⟨hnpix, hpix⟩ := step_inLoop (.inl h.host) hp hs
    rcases mem_phaseSuccessors_inLoop hp hphase with hsame | hend
    · have hloop : t.phase.inLoop := hsame ▸ hp
      have hmoved : t.pix = s.pix + 1 := hpix (by rcases hloop with hl | hl <;> simp [hl])
      obtain ⟨k, u, hrun, hu, hend, hunpix, hk⟩ := ih ht hloop (by omega) (ht.inv.pixLt hloop)
      exact ⟨k + 1, u, run_cons hs hrun, hu, hsame ▸ hend, hunpix.trans hnpix, by omega⟩
    · exact ⟨1, t, run_cons hs rfl, ht, hend, hnpix, by omega⟩

/-! ### Every run ends -/

/-- The run has come to its result or to an error (R215). -/
def Phase.ended (p : Phase) : Prop := p = .done ∨ p = .error

theorem State.RunsOn.decode_run_ends {s : State} (h : s.RunsOn) (hp : s.phase = .decHeader) :
    ∃ k t, core.run k s = .next t ∧ t.phase.ended ∧ 1 ≤ k ∧ k ≤ t.npix + 1 := by
  obtain ⟨t, hs, ht, hphase⟩ := h.exists_step
  have hcases : t.phase = .decPixels ∨ t.phase.ended := by simpa [hp, phaseSuccessors, Phase.ended] using hphase
  rcases hcases with hloop | hend
  · obtain ⟨k, u, hrun, -, hend, hnpix, hk⟩ := ht.run_loop (.inl hloop) (Nat.add_sub_of_le ht.inv.pixLe).symm
    rw [hloop] at hend
    exact ⟨k + 1, u, run_cons hs hrun, hend, by omega, by omega⟩
  · exact ⟨1, t, run_cons hs rfl, hend, le_rfl, by omega⟩

/-- The tail ends the run in one step (R185). -/
theorem State.RunsOn.tail_ends {s : State} (h : s.RunsOn) (hp : s.phase = .encTail) :
    ∃ t, step s = .next t ∧ t.phase.ended ∧ t.npix = s.npix := by
  obtain ⟨t, hs, -, hphase⟩ := h.exists_step
  have hend : t.phase.ended := by simpa [hp, phaseSuccessors, Phase.ended] using hphase
  exact ⟨t, hs, hend, encoderStep_npix (.inl h.host) (.inr (.inr hp)) hs⟩

theorem State.RunsOn.encode_run_ends {s : State} (h : s.RunsOn) (hp : s.phase = .encHeader) :
    ∃ k t, core.run k s = .next t ∧ t.phase.ended ∧ 1 ≤ k ∧ k ≤ t.npix + 2 := by
  obtain ⟨t, hs, ht, hphase⟩ := h.exists_step
  have hcases : t.phase = .encPixels ∨ t.phase = .encTail ∨ t.phase = .error := by simpa [hp, phaseSuccessors] using hphase
  rcases hcases with hloop | htail | herr
  · obtain ⟨k, u, hrun, hu, hend, hnpix, hk⟩ := ht.run_loop (.inr hloop) (Nat.add_sub_of_le ht.inv.pixLe).symm
    rw [hloop] at hend
    rcases hend with htail | herr
    · obtain ⟨v, hv, hend, hvnpix⟩ := hu.tail_ends htail
      exact ⟨k + 1 + 1, v, run_cons hs (run_snoc hrun hv), hend, by omega, by omega⟩
    · exact ⟨k + 1, u, run_cons hs hrun, .inr herr, by omega, by omega⟩
  · obtain ⟨v, hv, hend, -⟩ := ht.tail_ends htail
    exact ⟨2, v, run_cons hs (run_cons hv rfl), hend, by omega, by omega⟩
  · exact ⟨1, t, run_cons hs rfl, .inr herr, le_rfl, by omega⟩

/-- Settles O56: the header step, at most one step a pixel, and in an encode run the tail step. -/
theorem everyRunEnds : Obligations.EveryRunEnds := by
  unfold Obligations.EveryRunEnds
  intro s hinv hhost hbits
  have h : s.RunsOn := ⟨hinv, hhost, hbits⟩
  exact ⟨h.decode_run_ends, h.encode_run_ends⟩

end Sys2Proof.Machine
end

section
/-! PROOFS. Runs do not depend on the runs before them (R261, R262).  A `START_*` gives two blocks the same state but for the
arrays it does not name, and exchanging those commutes with every piece of the run's pseudocode, because none reads them. -/

namespace Sys2Proof.Machine

/-! ### Exchanging a part of the state -/

/-- The same outcome with `f` done to the state it has written. -/
def Attempt.mapState {α : Type} (f : State → State) : Attempt α → Attempt α
  | .done a s => .done a (f s)
  | .raised e o => .raised e o
  | .stopped r => .stopped r

/-- Two pieces of pseudocode in a row commute with `f` when each does. -/
theorem Attempt.andThen_mapState {α β : Type} {f : State → State} {x x' : Attempt α} {k k' : α → State → Attempt β}
    (hx : x' = x.mapState f) (hk : ∀ a s, k' a (f s) = (k a s).mapState f) :
    x'.andThen k' = (x.andThen k).mapState f := by
  subst hx
  cases x with
  | done a s => exact hk a s
  | raised e o => rfl
  | stopped r => rfl

/-- `f` exchanges a part of the state that the oracle, the width of the cursors and error entry have nothing to do with. -/
structure Exchanges (f : State → State) : Prop where
  oracle : ∀ s, (f s).oracle = s.oracle
  cursorsFit : ∀ s, (f s).cursorsFit = s.cursorsFit
  setOracle : ∀ s o, { f s with oracle := o } = f { s with oracle := o }
  errorEntry : ∀ e s, errorEntry e (f s) = f (errorEntry e s)

theorem Exchanges.askOracle {f : State → State} (hf : Exchanges f) (s : State) :
    askOracle (f s) = (askOracle s).mapState f := by
  unfold Machine.askOracle
  rw [hf.oracle]
  rcases s.oracle with _ | ⟨_ | _, o⟩
  · rfl
  · exact congrArg (Attempt.done ()) (hf.setOracle s o)
  · rfl

/-- What a step in `s` wrote is kept or discarded after the exchange as before it (R10, R235). -/
theorem Exchanges.commit {f : State → State} (hf : Exchanges f) {s t : State} {x x' : Attempt Unit}
    (hx : x' = x.mapState f) (h : commit s x = .next t) : commit (f s) x' = .next (f t) := by
  subst hx
  rcases commit_eq_next.1 h with ⟨rfl, hfit⟩ | ⟨e, o, rfl, rfl⟩
  · exact commit_done ((hf.cursorsFit t).trans hfit)
  · rw [Attempt.mapState, commit_raised, hf.setOracle, hf.errorEntry]

theorem listed_mapState (f : State → State) (n : ArrayName) (m : Memory) (k : Nat) (s : State) :
    listed n m k (f s) = (listed n m k s).mapState f := by
  unfold listed
  cases Memory.read m k <;> rfl

theorem run_succ_eq_next {M : Host.Core} {k : Nat} {s t : M.State} :
    M.run (k + 1) s = .next t ↔ ∃ u, M.step s = .next u ∧ M.run k u = .next t := by
  rw [Host.Core.run]
  cases M.step s <;> simp

/-- An exchange that commutes with the engine steps of some phases, which lead to such phases again, commutes with a run
without host moves from one of them. -/
theorem run_exchanged {f : State → State} {ofRun : Phase → Prop}
    (hnext : ∀ {p q : Phase}, ofRun p → q ∈ phaseSuccessors p → ofRun q)
    (hstep : ∀ {s t : State}, s.hostWaits → ofRun s.phase → step s = .next t → step (f s) = .next (f t))
    {k : Nat} {s t : State} (hhost : s.host = []) (hp : ofRun s.phase) (h : core.run k s = .next t) :
    core.run k (f s) = .next (f t) := by
  induction k generalizing s with
  | zero =>
    cases h
    rfl
  | succ k ih =>
    obtain ⟨u, hu, h⟩ := run_succ_eq_next.1 h
    have hphase := phaseTransitions s u (.inl hhost) hu
    exact run_cons (hstep (.inl hhost) hp hu) (ih (engineStep_host_nil hhost hu) (hnext hp hphase) h)

/-! ### A decode run does not read `PIXIN` -/

/-- The state with another `PIXIN`. -/
def State.withPixin (m : Memory) (s : State) : State := { s with pixin := m }

section
variable (m : Memory) (s : State)

theorem exchanges_withPixin : Exchanges (State.withPixin m) :=
  ⟨fun _ => rfl, fun _ => rfl, fun _ _ => rfl, fun _ _ => rfl⟩

theorem inByte_withPixin (k : Nat) : inByte k (s.withPixin m) = (inByte k s).mapState (State.withPixin m) := by
  refine Attempt.andThen_mapState ((exchanges_withPixin m).askOracle s) fun _ u => ?_
  show (if k ≥ u.inLen then raise .unexpectedEof (u.withPixin m) else listed .input u.input k (u.withPixin m)) = _
  split_ifs
  · rfl
  · exact listed_mapState _ _ _ _ u

theorem inBytes_withPixin (k n : Nat) : inBytes k n (s.withPixin m) = (inBytes k n s).mapState (State.withPixin m) := by
  induction n generalizing k s with
  | zero => rfl
  | succ n ih =>
    exact Attempt.andThen_mapState (inByte_withPixin m s k) fun _ u => Attempt.andThen_mapState (ih u (k + 1)) fun _ _ => rfl

theorem outWrite_withPixin (k : Nat) (v : Byte) :
    outWrite k v (s.withPixin m) = (outWrite k v s).mapState (State.withPixin m) := by
  refine Attempt.andThen_mapState ((exchanges_withPixin m).askOracle s) fun _ u => ?_
  show (if k < u.arraySize then _ else _) = _
  split_ifs <;> rfl

theorem outWrites_withPixin (k : Nat) (vs : List Byte) :
    outWrites k vs (s.withPixin m) = (outWrites k vs s).mapState (State.withPixin m) := by
  induction vs generalizing k s with
  | nil => rfl
  | cons v vs ih => exact Attempt.andThen_mapState (outWrite_withPixin m s k v) fun _ u => ih u (k + 1)

theorem producePixel_withPixin (p : Pixel) :
    producePixel p (s.withPixin m) = (producePixel p s).mapState (State.withPixin m) :=
  Attempt.andThen_mapState
    (Attempt.andThen_mapState (outWrites_withPixin m { s with px := p } _ _) fun _ _ => rfl) fun _ _ => rfl

theorem fetch_withPixin : fetch (s.withPixin m) = (fetch s).mapState (State.withPixin m) := by
  refine Attempt.andThen_mapState ?bytes fun bs u => ?decoded
  case bytes =>
    exact Attempt.andThen_mapState (inByte_withPixin m s s.ip) fun b0 u =>
      Attempt.andThen_mapState (inBytes_withPixin m u _ _) fun _ _ => rfl
  case decoded =>
    unfold decoded
    cases decode bs <;> rfl

theorem latchHeader_withPixin (h : List Byte) :
    latchHeader h (s.withPixin m) = (latchHeader h s).mapState (State.withPixin m) := by
  unfold latchHeader
  simp only
  split_ifs <;> rfl

variable {m s} {t : State}

theorem exec_withPixin {i : Instr} (h : exec i s = .next t) : exec i (s.withPixin m) = .next (t.withPixin m) := by
  rw [exec_eq] at h ⊢
  have hpixel : opPixel i (s.withPixin m) = opPixel i s := by cases i <;> rfl
  have hstate : opState i (s.withPixin m) = (opState i s).withPixin m := by cases i <;> rfl
  rw [hpixel, hstate]
  exact (exchanges_withPixin m).commit (producePixel_withPixin m _ _) h

theorem fetchAndExec_withPixin (h : fetchAndExec s = .next t) : fetchAndExec (s.withPixin m) = .next (t.withPixin m) := by
  unfold fetchAndExec at h ⊢
  rw [fetch_withPixin]
  cases hf : fetch s <;> rw [hf] at h
  case done i u => exact exec_withPixin h
  case raised e o =>
    cases h
    rfl
  case stopped r => cases h

theorem decodePixel_withPixin (h : decodePixel s = .next t) : decodePixel (s.withPixin m) = .next (t.withPixin m) := by
  by_cases hr : s.run = 0
  · rw [decodePixel, if_pos hr] at h
    rw [decodePixel, if_pos (by exact hr)]
    exact fetchAndExec_withPixin h
  · rw [decodePixel_of_run hr] at h
    rw [decodePixel_of_run (s := s.withPixin m) hr]
    exact (exchanges_withPixin m).commit (producePixel_withPixin m { s with run := s.run - 1 } s.px) h

theorem headerParse_withPixin (h : headerParse s = .next t) : headerParse (s.withPixin m) = .next (t.withPixin m) := by
  refine (exchanges_withPixin m).commit ?_ h
  show (if s.inLen < 4 then _ else _) = _
  split_ifs
  · rfl
  · refine Attempt.andThen_mapState (inBytes_withPixin m s 0 4) fun bs u => ?_
    show (if bs = u.config.magic.bytes then _ else _) = _
    split_ifs
    · exact Attempt.andThen_mapState (inBytes_withPixin m u 4 10) fun h v => latchHeader_withPixin m v h
    · rfl

end

/-- The phases of a decode run (R20). -/
def Phase.ofDecode (p : Phase) : Prop := p = .decHeader ∨ p = .decPixels ∨ p = .done ∨ p = .error

theorem Phase.ofDecode.successor {p q : Phase} (hp : p.ofDecode) (hq : q ∈ phaseSuccessors p) : q.ofDecode := by
  rcases hp with rfl | rfl | rfl | rfl <;> simp only [phaseSuccessors, List.mem_cons, List.not_mem_nil, or_false] at hq
  · exact .inr hq
  · exact .inr hq
  · exact .inr (.inr (.inl hq))
  · exact .inr (.inr (.inr hq))

/-- An engine step of a decode run neither reads nor writes `PIXIN`. -/
theorem step_withPixin {m : Memory} {s t : State} (hw : s.hostWaits) (hp : s.phase.ofDecode) (h : step s = .next t) :
    step (s.withPixin m) = .next (t.withPixin m) := by
  rcases hp with hp | hp | hp
  · rw [step_decHeader hw hp] at h
    exact (step_decHeader (s := s.withPixin m) hw hp).trans (headerParse_withPixin h)
  · rw [step_decPixels hw hp] at h
    exact (step_decPixels (s := s.withPixin m) hw hp).trans (decodePixel_withPixin h)
  · rw [quiescentEngineStays s hw (.inr hp)] at h
    cases h
    exact quiescentEngineStays (s.withPixin m) hw (.inr hp)

/-! ### An encode run does not read `IN`, `IN_LEN` and `OUT` -/

/-- The state with another `IN`, `IN_LEN` and `OUT`. -/
def State.withDecodeSide (i : Memory) (n : Nat) (o : Memory) (s : State) : State :=
  { s with input := i, inLen := n, out := o }

section
variable (i : Memory) (n : Nat) (o : Memory) (s : State)

theorem exchanges_withDecodeSide : Exchanges (State.withDecodeSide i n o) :=
  ⟨fun _ => rfl, fun _ => rfl, fun _ _ => rfl, fun _ _ => rfl⟩

theorem pixIn_withDecodeSide (j : Nat) :
    pixIn j (s.withDecodeSide i n o) = (pixIn j s).mapState (State.withDecodeSide i n o) := by
  refine Attempt.andThen_mapState ((exchanges_withDecodeSide i n o).askOracle s) fun _ u => ?_
  show (if u.npix ≤ j then _ else if u.hdrChannels = 4 then _ else if u.hdrChannels = 3 then _ else _) = _
  have hbyte := listed_mapState (State.withDecodeSide i n o) .pixin
  split_ifs
  · rfl
  · exact Attempt.andThen_mapState (hbyte _ _ u) fun _ u => Attempt.andThen_mapState (hbyte _ _ u) fun _ u =>
      Attempt.andThen_mapState (hbyte _ _ u) fun _ u => Attempt.andThen_mapState (hbyte _ _ u) fun _ _ => rfl
  · exact Attempt.andThen_mapState (hbyte _ _ u) fun _ u => Attempt.andThen_mapState (hbyte _ _ u) fun _ u =>
      Attempt.andThen_mapState (hbyte _ _ u) fun _ _ => rfl
  · rfl

theorem emits_withDecodeSide (vs : List Byte) :
    emits vs (s.withDecodeSide i n o) = (emits vs s).mapState (State.withDecodeSide i n o) := by
  induction vs generalizing s with
  | nil => rfl
  | cons v vs ih =>
    have hemit : emit v (s.withDecodeSide i n o) = (emit v s).mapState (State.withDecodeSide i n o) :=
      Attempt.andThen_mapState ((exchanges_withDecodeSide i n o).askOracle s) fun _ _ => rfl
    exact Attempt.andThen_mapState hemit fun _ u => ih u

theorem emitRun_withDecodeSide (r : Nat) :
    emitRun r (s.withDecodeSide i n o) = (emitRun r s).mapState (State.withDecodeSide i n o) :=
  Attempt.andThen_mapState (emits_withDecodeSide i n o s _) fun _ _ => rfl

theorem runFlush_withDecodeSide :
    runFlush (s.withDecodeSide i n o) = (runFlush s).mapState (State.withDecodeSide i n o) := by
  unfold runFlush
  show (if s.run = 0 then _ else _) = _
  split_ifs
  · rfl
  · exact emitRun_withDecodeSide i n o s _

theorem runExtend_withDecodeSide :
    runExtend (s.withDecodeSide i n o) = (runExtend s).mapState (State.withDecodeSide i n o) := by
  unfold runExtend
  show (if (s.run + 1).toNat = runCap then _ else _) = Attempt.mapState _ (if (s.run + 1).toNat = runCap then _ else _)
  split_ifs
  · exact emitRun_withDecodeSide i n o { s with run := s.run + 1 } _
  · rfl

theorem classify_withDecodeSide (p : Pixel) :
    classify p (s.withDecodeSide i n o) = (classify p s).mapState (State.withDecodeSide i n o) := by
  unfold classify
  show (if p = s.px then _ else _) = _
  split_ifs
  · exact runExtend_withDecodeSide i n o s
  · exact Attempt.andThen_mapState (runFlush_withDecodeSide i n o s) fun _ u =>
      emits_withDecodeSide i n o { u with cache := cacheAfter u.cache p } _

variable {i n o s} {t : State}

theorem headerEmit_withDecodeSide (h : headerEmit s = .next t) :
    headerEmit (s.withDecodeSide i n o) = .next (t.withDecodeSide i n o) := by
  refine (exchanges_withDecodeSide i n o).commit ?_ h
  show (if supportedChannels s.hdrChannels then _ else _) = _
  split_ifs
  · exact Attempt.andThen_mapState (emits_withDecodeSide i n o s _) fun _ _ => rfl
  · rfl

theorem encodePixel_withDecodeSide (h : encodePixel s = .next t) :
    encodePixel (s.withDecodeSide i n o) = .next (t.withDecodeSide i n o) :=
  (exchanges_withDecodeSide i n o).commit
    (Attempt.andThen_mapState (pixIn_withDecodeSide i n o s _) fun p u =>
      Attempt.andThen_mapState (classify_withDecodeSide i n o u p) fun _ _ => rfl) h

theorem encodeTail_withDecodeSide (h : encodeTail s = .next t) :
    encodeTail (s.withDecodeSide i n o) = .next (t.withDecodeSide i n o) :=
  (exchanges_withDecodeSide i n o).commit
    (Attempt.andThen_mapState (runFlush_withDecodeSide i n o s) fun _ u =>
      Attempt.andThen_mapState (emits_withDecodeSide i n o u _) fun _ _ => rfl) h

end

/-- The phases of an encode run (R20). -/
def Phase.ofEncode (p : Phase) : Prop := p = .encHeader ∨ p = .encPixels ∨ p = .encTail ∨ p = .done ∨ p = .error

theorem Phase.ofEncode.successor {p q : Phase} (hp : p.ofEncode) (hq : q ∈ phaseSuccessors p) : q.ofEncode := by
  rcases hp with rfl | rfl | rfl | rfl | rfl <;>
    simp only [phaseSuccessors, List.mem_cons, List.not_mem_nil, or_false] at hq
  · exact .inr (hq.imp_right (Or.imp_right .inr))
  · exact .inr (hq.imp_right (Or.imp_right .inr))
  · exact .inr (.inr (.inr hq))
  · exact .inr (.inr (.inr (.inl hq)))
  · exact .inr (.inr (.inr (.inr hq)))

/-- An engine step of an encode run neither reads nor writes `IN`, `IN_LEN` and `OUT`. -/
theorem step_withDecodeSide {i o : Memory} {n : Nat} {s t : State} (hw : s.hostWaits) (hp : s.phase.ofEncode)
    (h : step s = .next t) : step (s.withDecodeSide i n o) = .next (t.withDecodeSide i n o) := by
  rcases hp with hp | hp | hp | hp
  · rw [step_encHeader hw hp] at h
    exact (step_encHeader (s := s.withDecodeSide i n o) hw hp).trans (headerEmit_withDecodeSide h)
  · rw [step_encPixels hw hp] at h
    exact (step_encPixels (s := s.withDecodeSide i n o) hw hp).trans (encodePixel_withDecodeSide h)
  · rw [step_encTail hw hp] at h
    exact (step_encTail (s := s.withDecodeSide i n o) hw hp).trans (encodeTail_withDecodeSide h)
  · rw [quiescentEngineStays s hw (.inr hp)] at h
    cases h
    exact quiescentEngineStays (s.withDecodeSide i n o) hw (.inr hp)

/-! ### Runs are independent -/

/-- `START_DECODE` of another block with the same parameters and oracle differs in `PIXIN` alone (R211, R261). -/
theorem startDecode_of_agreeing {s s' : State} (hc : s'.config = s.config) (ho : s'.oracle = s.oracle) (bs : List Byte) :
    startDecode bs { s' with host := [] } = (startDecode bs { s with host := [] }).withPixin s'.pixin := by
  simp only [startDecode, perCallInit, State.withPixin, hc, ho]

/-- `START_ENCODE` of another block with the same parameters and oracle differs in `IN`, `IN_LEN` and `OUT` alone (R212,
R261). -/
theorem startEncode_of_agreeing {s s' : State} (hc : s'.config = s.config) (ho : s'.oracle = s.oracle) (w h : U32)
    (ch cs : Byte) (bs : List Byte) :
    startEncode w h ch cs bs { s' with host := [] } =
      (startEncode w h ch cs bs { s with host := [] }).withDecodeSide s'.input s'.inLen s'.out := by
  simp only [startEncode, perCallInit, State.withDecodeSide, hc, ho]

/-- What a quiescent block does with `START_ENCODE`, by the length of `PIXIN` (R212). -/
theorem step_startEncode_eq {s : State} {w h : U32} {ch cs : Byte} {bs : List Byte} (hb : busy s.phase = false)
    (hhost : s.host = [.command (.startEncode w h ch cs bs)]) :
    step s = if pixinLengthOk w h ch bs then .next (startEncode w h ch cs bs { s with host := [] })
      else .refused .wrongPixinLength :=
  (step_of_command hhost).trans (hostCommand_startEncode (s := { s with host := [] }) hb w h ch cs bs)

/-- Settles O58: the command makes the two blocks differ in the arrays it does not name alone, and so they differ after the
run. -/
theorem runsAreIndependent : Obligations.RunsAreIndependent := by
  unfold Obligations.RunsAreIndependent
  intro s s' k hb hb' hc ho
  refine ⟨fun bs hhost hhost' t h => ?decode, fun w ht ch cs bs hhost hhost' t h => ?encode⟩
  case decode =>
    have hs : step s = .next _ := step_startDecode hb hhost
    have hs' : step s' = .next _ := step_startDecode hb' (hhost'.trans hhost)
    rw [startDecode_of_agreeing hc ho] at hs'
    obtain ⟨e, he, h⟩ := run_succ_eq_next.1 h
    cases hs.symm.trans he
    exact run_cons hs' (run_exchanged Phase.ofDecode.successor step_withPixin rfl (.inl rfl) h)
  case encode =>
    have hs := step_startEncode_eq hb hhost
    have hs' := step_startEncode_eq hb' (hhost'.trans hhost)
    rw [startEncode_of_agreeing hc ho] at hs'
    obtain ⟨e, he, h⟩ := run_succ_eq_next.1 h
    by_cases hlen : pixinLengthOk w ht ch bs = true
    · rw [if_pos hlen] at hs hs'
      cases hs.symm.trans he
      exact run_cons hs' (run_exchanged Phase.ofEncode.successor step_withDecodeSide rfl (.inl rfl) h)
    · rw [if_neg hlen] at hs
      cases hs.symm.trans he

end Sys2Proof.Machine
end

section
/-! PROOFS. Finite cursors (D15, X13): each step that nothing else stands in the way of comes to a state that `commit` looks at,
and is refused when the cursors of that state do not fit. -/

namespace Sys2Proof.Machine

theorem commit_done_of_overflow {s t : State} (hf : t.cursorsFit = false) :
    commit s (.done () t) = .refused .cursorOverflow := commit_eq_refused.2 ⟨t, rfl, hf, rfl⟩

/-! ### Decode pixel steps -/

theorem commit_producePixel_of_overflow {s u : State} {p : Pixel} (hw : u.canWritePixel)
    (hf : (u.pixelDone p).cursorsFit = false) : commit s (producePixel p u) = .refused .cursorOverflow := by
  rw [producePixel_of_canWrite hw]
  exact commit_done_of_overflow hf

theorem exec_of_overflow {i : Instr} {s : State} (hw : s.canWritePixel)
    (hf : ({ s with ip := s.ip + i.length, pix := s.pix + 1, op := (s.pix + 1) * s.channels } : State).cursorsFit = false) :
    exec i s = .refused .cursorOverflow := by
  rw [exec_eq]
  refine commit_producePixel_of_overflow ((canWritePixel_opState i s).2 hw) ?_
  obtain ⟨c, r, hs, -⟩ := opState_eq i s
  rw [hs]
  exact hf

/-! ### Encode steps -/

/-- With its `Emit`s let through, the classification of a pixel appends the bytes of R170, and writes `RUN` and the cache
besides. -/
theorem classify_of_lets {s : State} {p : Pixel} (hl : s.lets (emittedFor s p).length) :
    ∃ r c, classify p s = .done () { s.emitted (emittedFor s p) with run := r, cache := c } := by
  unfold emittedFor at hl ⊢
  split_ifs at hl ⊢ with hp hr
  · subst hp
    exact ⟨_, _, classify_of_run_cap hr hl⟩
  · exact ⟨_, _, classify_eq_done.2 (.inl ⟨hp, by bv_omega, rfl⟩)⟩
  · exact ⟨_, _, classify_of_ne hp hl⟩

theorem encodePixel_of_overflow {s : State} {p : Pixel} (hi : s.pix < s.npix) (hp : s.pixelAt s.pix p)
    (hl : s.lets (1 + (emittedFor s p).length))
    (hf : ({ s with pix := s.pix + 1, ip := s.ip + s.channels, op := s.op + (emittedFor s p).length } : State).cursorsFit =
      false) : encodePixel s = .refused .cursorOverflow := by
  obtain ⟨hl1, hl2⟩ := State.lets_add.1 hl
  obtain ⟨r, c, hcl⟩ := classify_of_lets (s := s.used 1) hl2
  rw [encodePixel, pixIn_eq_done.2 ⟨hl1, hi, hp, rfl⟩, Attempt.andThen_done, hcl, Attempt.andThen_done]
  exact commit_done_of_overflow hf

theorem encodeTail_of_overflow {s : State} (hl : s.lets (pendingRun s.run ++ endMarker).length)
    (hf : ({ s with op := s.op + (pendingRun s.run ++ endMarker).length } : State).cursorsFit = false) :
    encodeTail s = .refused .cursorOverflow := by
  rw [List.length_append] at hl hf
  obtain ⟨hl1, hl2⟩ := State.lets_add.1 hl
  rw [← Nat.add_assoc] at hf
  rw [encodeTail, runFlush_eq_done (u := ()).2 ⟨hl1, rfl⟩, Attempt.andThen_done,
    emits_eq_done (u := ()) (s := { s.emitted (pendingRun s.run) with run := 0 }).2 ⟨hl2, rfl⟩, Attempt.andThen_done]
  exact commit_done_of_overflow hf

/-! ### Header steps -/

theorem headerParse_of_overflow {s : State} {w h : U32} {ch cs : Byte} (hc : supportedChannels ch)
    (hi : s.inputAt 0 (s.config.magic.bytes ++ be32bytes w ++ be32bytes h ++ [ch, cs])) (hl : s.lets 14)
    (hf : ({ s with ip := 14 } : State).cursorsFit = false) : headerParse s = .refused .cursorOverflow := by
  rw [List.append_assoc, List.append_assoc, ← List.append_assoc (be32bytes w)] at hi
  rw [headerParse_of_inputAt rfl hi hl, latchHeader_of_supported hc]
  exact commit_done_of_overflow hf

theorem headerEmit_of_overflow {s : State} (hc : supportedChannels s.hdrChannels) (hl : s.lets 14)
    (hf : ({ s with op := s.op + 14 } : State).cursorsFit = false) : headerEmit s = .refused .cursorOverflow := by
  rw [headerEmit, if_pos hc, emits_eq_done (u := ()).2 ⟨hl, rfl⟩, Attempt.andThen_done]
  exact commit_done_of_overflow hf

/-- Settles O27, a lemma for each step: its pseudocode completes, and its cursors are then those of the statement. -/
theorem cursorOverflowIsRefused : Obligations.CursorOverflowIsRefused := by
  unfold Obligations.CursorOverflowIsRefused
  refine ⟨fun i s hc hpix hl hf => exec_of_overflow ⟨hl, pixel_fits hc hpix⟩ hf, fun s hw => ?_⟩
  refine ⟨fun hp hr hc hpix hl hf => ?repeats, fun w h ch cs hp hc hi hl hf => ?parse, fun hp hc hl hf => ?emit,
    fun p hp hpix hat => ?pixel, fun hp => ?tail⟩
  case repeats =>
    rw [step_decPixels hw hp, decodePixel_of_run (s := s.afterWait) hr]
    exact commit_producePixel_of_overflow ⟨hl, pixel_fits (s := s.afterWait) hc hpix⟩ hf
  case parse =>
    rw [step_decHeader hw hp]
    exact headerParse_of_overflow (s := s.afterWait) hc hi hl hf
  case emit =>
    rw [step_encHeader hw hp]
    exact headerEmit_of_overflow (s := s.afterWait) hc hl hf
  case pixel =>
    intro emitted hl hf
    rw [step_encPixels hw hp]
    exact encodePixel_of_overflow (s := s.afterWait) hpix hat hl hf
  case tail =>
    intro emitted hl hf
    rw [step_encTail hw hp]
    exact encodeTail_of_overflow (s := s.afterWait) hl hf

end Sys2Proof.Machine
end
